-- ==== Sys2Proof/Word.lean ====
section
/-! DEFINITION. The word types of the engine: a byte, a 32-bit register, a 64-bit word and the
128-bit byte counter (00_scope.md rule R10). -/

namespace Sys2Proof

/-- `u8`: one byte of DMEM (R10). -/
abbrev Byte := BitVec 8

/-- `u32`: one register of the REG window (R10, R34). -/
abbrev U32 := BitVec 32

/-- `u64`: the word Blake2b and the Argon2 blocks are made of (R10, R140). -/
abbrev Word := BitVec 64

/-- `u128`: the Blake2b byte counter (R10, R152). -/
abbrev U128 := BitVec 128

end Sys2Proof
end

