-- ==== Sys2Proof/Syntax.lean ====
section
/-! DEFINITION. The commands of the engine, one constructor for each row of the opcode map
(30_encoding.md rule R117). -/

namespace Sys2Proof

/-- A command, with the immediates its word carries (R113, R114, R116).  The lengths are the 8-bit
fields OUTLEN and KEYLEN as numbers of bytes; that they fit their fields is `Instr.wf`. -/
inductive Instr where
  /-- B2B.INIT outlen, keylen (R155): begin a hash on the visible HashState. -/
  | b2bInit (outlen keylen : Nat)
  /-- B2B.UPDATE (R156): absorb a DMEM region. -/
  | b2bUpdate
  /-- B2B.FINAL (R157): finish the hash and write the digest. -/
  | b2bFinal
  /-- B2B.COMPRESS last (R158): one raw compression of a 128-byte block. -/
  | b2bCompress (last : Bool)
  /-- B2B.HASH outlen, keylen (R159): hash a region on a context of its own. -/
  | b2bHash (outlen keylen : Nat)
  /-- B2B.LONG (R184): the variable-length hash H'. -/
  | b2bLong
  /-- A2.H0 (R206): validate, derive the sizes and the seed. -/
  | a2H0
  /-- A2.INIT (R207): the first two blocks of each lane. -/
  | a2Init
  /-- A2.SLICE (R208): fill one slice of every lane. -/
  | a2Slice
  /-- A2.FINAL (R209): the tag. -/
  | a2Final
  /-- A2.RUN (R210): a whole run as one command. -/
  | a2Run
  /-- A2.ABORT (R211): end the run. -/
  | a2Abort
  /-- A2.G xor (R212): the block compression on its own. -/
  | a2G (xor : Bool)
  /-- A2.MODE (R252): the addressing-mode predicate. -/
  | a2Mode
  /-- A2.ADDR (R253): one address block. -/
  | a2Addr
  /-- A2.INDEX (R254): one reference position. -/
  | a2Index
  deriving DecidableEq, Repr

end Sys2Proof
end

