-- ==== Sys2Proof/WellFormed.lean ====
section
/-! DEFINITION. The check on a command as a term: the immediates of format K fit their 8-bit fields
(30_encoding.md rule R113).  A value outside the LEGAL range of a length is well formed: it encodes a
command that decodes and then ends with PARAM (R115). -/

namespace Sys2Proof

/-- A format K field holds one byte (R113: OUTLEN is bits [15:8], KEYLEN is bits [23:16]). -/
def fitsByte (n : Nat) : Bool := n < 256

/-- Every immediate of the command fits its field. -/
def Instr.wf : Instr → Bool
  | .b2bInit outlen keylen => fitsByte outlen && fitsByte keylen
  | .b2bUpdate => true
  | .b2bFinal => true
  | .b2bCompress _ => true
  | .b2bHash outlen keylen => fitsByte outlen && fitsByte keylen
  | .b2bLong => true
  | .a2H0 => true
  | .a2Init => true
  | .a2Slice => true
  | .a2Final => true
  | .a2Run => true
  | .a2Abort => true
  | .a2G _ => true
  | .a2Mode => true
  | .a2Addr => true
  | .a2Index => true

end Sys2Proof
end

