-- ==== Sys2Proof/Decode.lean ====
section
/-! DEFINITION. The command word: decoding (30_encoding.md rules R110..R119), the encoder written from
the same tables, and the assembler text of a command, written and read (R120). -/

namespace Sys2Proof

/-- The three formats of a command word (R112, R113, R114). -/
inductive Format where
  /-- no immediate (R112) -/
  | n
  /-- OUTLEN and KEYLEN (R113) -/
  | k
  /-- one flag (R114) -/
  | f
  deriving DecidableEq, Repr

/-- Why a word is no command (R118). -/
inductive Illegal where
  /-- bits [7:0] are not an opcode of R117 (R118 item 1) -/
  | reservedOpcode
  /-- a reserved bit of the format is 1 (R118 item 2) -/
  | reservedBit
  deriving DecidableEq, Repr

/-- The bits of a word that its format reserves and that must be 0: N [31:8], K [31:24], F [31:9]
(R112, R113, R114). -/
def Format.reserved : Format → U32
  | .n => 0xFFFFFF00
  | .k => 0xFF000000
  | .f => 0xFFFFFE00

/-- OPC, bits [7:0] (R111). -/
def opcField (w : U32) : Nat := (w.extractLsb' 0 8).toNat

/-- OUTLEN, bits [15:8], zero-extended (R113, R115). -/
def outlenField (w : U32) : Nat := (w.extractLsb' 8 8).toNat

/-- KEYLEN, bits [23:16], zero-extended (R113, R115). -/
def keylenField (w : U32) : Nat := (w.extractLsb' 16 8).toNat

/-- FLAG, bit [8], as a boolean (R114, R115). -/
def flagField (w : U32) : Bool := w.getLsbD 8

/-- The opcode map R117: the format and the command an opcode names; no row for a reserved opcode
(R119). -/
def opcodeMap (w : U32) : Option (Format × Instr) :=
  match opcField w with
  | 0x01 => some (.k, .b2bInit (outlenField w) (keylenField w))
  | 0x02 => some (.n, .b2bUpdate)
  | 0x03 => some (.n, .b2bFinal)
  | 0x04 => some (.f, .b2bCompress (flagField w))
  | 0x05 => some (.k, .b2bHash (outlenField w) (keylenField w))
  | 0x08 => some (.n, .b2bLong)
  | 0x10 => some (.n, .a2H0)
  | 0x11 => some (.n, .a2Init)
  | 0x12 => some (.n, .a2Slice)
  | 0x13 => some (.n, .a2Final)
  | 0x14 => some (.n, .a2Run)
  | 0x15 => some (.n, .a2Abort)
  | 0x18 => some (.f, .a2G (flagField w))
  | 0x20 => some (.n, .a2Mode)
  | 0x21 => some (.n, .a2Addr)
  | 0x22 => some (.n, .a2Index)
  | _ => none

/-- R118, in its order: the opcode first, then the reserved bits, then the fields.  DEDUCED (log entry
2): item 2 is read as its words say, "if any reserved bit is 1". -/
def decode (w : U32) : Except Illegal Instr :=
  match opcodeMap w with
  | none => .error .reservedOpcode
  | some (fmt, i) => if w &&& fmt.reserved = 0 then .ok i else .error .reservedBit

/-- A format N word: the opcode alone (R112). -/
def encodeN (opc : Nat) : U32 := BitVec.ofNat 32 opc

/-- A format K word: `OPC | outlen << 8 | keylen << 16` (R113, R120). -/
def encodeK (opc outlen keylen : Nat) : U32 :=
  BitVec.ofNat 32 opc ||| (BitVec.ofNat 32 outlen <<< 8) ||| (BitVec.ofNat 32 keylen <<< 16)

/-- A format F word: `OPC | flag << 8` (R114, R120). -/
def encodeF (opc : Nat) (flag : Bool) : U32 :=
  BitVec.ofNat 32 opc ||| (BitVec.ofNat 32 flag.toNat <<< 8)

/-- The word of a command (R117 for the opcode, R120 for the fields). -/
def encode : Instr → U32
  | .b2bInit outlen keylen => encodeK 0x01 outlen keylen
  | .b2bUpdate => encodeN 0x02
  | .b2bFinal => encodeN 0x03
  | .b2bCompress last => encodeF 0x04 last
  | .b2bHash outlen keylen => encodeK 0x05 outlen keylen
  | .b2bLong => encodeN 0x08
  | .a2H0 => encodeN 0x10
  | .a2Init => encodeN 0x11
  | .a2Slice => encodeN 0x12
  | .a2Final => encodeN 0x13
  | .a2Run => encodeN 0x14
  | .a2Abort => encodeN 0x15
  | .a2G xor => encodeF 0x18 xor
  | .a2Mode => encodeN 0x20
  | .a2Addr => encodeN 0x21
  | .a2Index => encodeN 0x22

/-- The command the decoder reads from the word whose low `nbits` bits are those of `w` and whose other
bits are 0, with bits numbered as spec/opcode_table.json numbers them.  A command is one 32-bit word
(R110). -/
def decodeTableWord (nbits w : Nat) : Option Instr :=
  match decode (BitVec.ofNat 32 (w % 2 ^ nbits)) with
  | .ok i => some i
  | .error _ => none

/-- The text of a format K command (R120). -/
def asmK (name : String) (outlen keylen : Nat) : String :=
  name ++ " outlen=" ++ Nat.repr outlen ++ ", keylen=" ++ Nat.repr keylen

/-- The text of a format F command (R120). -/
def asmF (name field : String) (flag : Bool) : String :=
  name ++ " " ++ field ++ "=" ++ Nat.repr flag.toNat

/-- The assembler text of a command: the mnemonic and then its immediates as `name=value` (R120). -/
def Instr.asm : Instr → String
  | .b2bInit outlen keylen => asmK "B2B.INIT" outlen keylen
  | .b2bUpdate => "B2B.UPDATE"
  | .b2bFinal => "B2B.FINAL"
  | .b2bCompress last => asmF "B2B.COMPRESS" "last" last
  | .b2bHash outlen keylen => asmK "B2B.HASH" outlen keylen
  | .b2bLong => "B2B.LONG"
  | .a2H0 => "A2.H0"
  | .a2Init => "A2.INIT"
  | .a2Slice => "A2.SLICE"
  | .a2Final => "A2.FINAL"
  | .a2Run => "A2.RUN"
  | .a2Abort => "A2.ABORT"
  | .a2G xor => asmF "A2.G" "xor" xor
  | .a2Mode => "A2.MODE"
  | .a2Addr => "A2.ADDR"
  | .a2Index => "A2.INDEX"

/-- The decimal number a list of digits writes, after `n`. -/
def decimalFrom : Nat → List Char → Option Nat
  | n, [] => some n
  | n, c :: cs => if c.isDigit then decimalFrom (10 * n + (c.toNat - '0'.toNat)) cs else none

/-- A decimal number of at least one digit. -/
def decimal (cs : List Char) : Option Nat := if cs.isEmpty then none else decimalFrom 0 cs

/-- Text without the spaces around it. -/
def trimmed (cs : List Char) : List Char :=
  ((cs.dropWhile (· = ' ')).reverse.dropWhile (· = ' ')).reverse

/-- One immediate, `name=value` (R120). -/
def asmImmediate (cs : List Char) : Option (List Char × Nat) :=
  match cs.splitOn '=' with
  | [name, value] => (decimal (trimmed value)).map fun n => (trimmed name, n)
  | _ => none

/-- The immediates after the mnemonic, separated by commas (R120). -/
def asmImmediates (cs : List Char) : Option (List (List Char × Nat)) :=
  if (trimmed cs).isEmpty then some [] else (cs.splitOn ',').mapM asmImmediate

/-- The value of an immediate; an omitted one is 0 (R120). -/
def immediateNamed (name : String) (imms : List (List Char × Nat)) : Nat :=
  (imms.lookup name.toList).getD 0

/-- Every immediate is one of the command's, and none is given twice. -/
def immediatesAre (names : List String) (imms : List (List Char × Nat)) : Bool :=
  imms.all (fun x => (names.map String.toList).contains x.1) && (imms.map Prod.fst).Nodup

/-- A format N command is the bare mnemonic (R120). -/
def readN (i : Instr) (imms : List (List Char × Nat)) : Option Instr :=
  if immediatesAre [] imms then some i else none

/-- A format K command (R120); a value that does not fit its field writes no word. -/
def readK (mk : Nat → Nat → Instr) (imms : List (List Char × Nat)) : Option Instr :=
  let i := mk (immediateNamed "outlen" imms) (immediateNamed "keylen" imms)
  if immediatesAre ["outlen", "keylen"] imms && i.wf then some i else none

/-- A format F command (R120). -/
def readF (mk : Bool → Instr) (field : String) (imms : List (List Char × Nat)) : Option Instr :=
  if immediatesAre [field] imms && immediateNamed field imms < 2 then
    some (mk (immediateNamed field imms = 1))
  else none

/-- The command a mnemonic in lower case names (R117), with its immediates. -/
def asmCommand (name : String) (imms : List (List Char × Nat)) : Option Instr :=
  match name with
  | "b2b.init" => readK .b2bInit imms
  | "b2b.update" => readN .b2bUpdate imms
  | "b2b.final" => readN .b2bFinal imms
  | "b2b.compress" => readF .b2bCompress "last" imms
  | "b2b.hash" => readK .b2bHash imms
  | "b2b.long" => readN .b2bLong imms
  | "a2.h0" => readN .a2H0 imms
  | "a2.init" => readN .a2Init imms
  | "a2.slice" => readN .a2Slice imms
  | "a2.final" => readN .a2Final imms
  | "a2.run" => readN .a2Run imms
  | "a2.abort" => readN .a2Abort imms
  | "a2.g" => readF .a2G "xor" imms
  | "a2.mode" => readN .a2Mode imms
  | "a2.addr" => readN .a2Addr imms
  | "a2.index" => readN .a2Index imms
  | _ => none

/-- The command an assembler text writes (R120).  DESIGN CHOICE (log entry 20): case is ignored in the whole
text, mixed case and the names of immediates included, and the immediates may stand in any order; R120
speaks of an upper or lower case mnemonic only. -/
def Instr.ofAsm (text : String) : Option Instr :=
  let cs := trimmed (text.toList.map Char.toLower)
  let name := cs.takeWhile (· ≠ ' ')
  match asmImmediates (cs.drop name.length) with
  | none => none
  | some imms => asmCommand (String.ofList name) imms

end Sys2Proof
end

