-- ==== Sys2Proof/Config.lean ====
section
/-! DEFINITION. What an implementation fixes (00_scope.md rule R8) and the values the spec leaves open.
A free value is a constant with no body: no proof can see what it is, so a claim holds whatever it is.
Each is applied to `draw`, the number of the drawing (State's own counter), so that two drawings are
never known to be equal. -/

namespace Sys2Proof

/-- The parameters of the engine (R8, R32).  They are data a machine carries and no step changes, so
that every statement is about every engine.  Where the host sees REG and DMEM (REG_BASE and DMEM_BASE,
R89) is not here: no rule reads it. -/
structure Config where
  /-- `DMEM_SIZE`: bytes of DMEM (R8, R80) -/
  dmemSize : Nat
  /-- `LANE_WORKERS`: the workers that share the lanes of a slice (R8, R214, R288) -/
  laneWorkers : Nat
  deriving DecidableEq, Repr

/-- The ranges R8 gives the parameters. -/
abbrev Config.wf (c : Config) : Prop :=
  1 ≤ c.dmemSize ∧ c.dmemSize ≤ 2 ^ 32 ∧ 1 ≤ c.laneWorkers

/-- The engine `State.reset` is the reset state of.  DESIGN CHOICE (log entry 3): 64 KiB of DMEM, the
size the spec's own programs name, and one worker. -/
def Config.default : Config := { dmemSize := 0x10000, laneWorkers := 1 }

/-- The two agents (R30). -/
inductive Agent where
  /-- issues register and DMEM accesses -/
  | host
  /-- runs the accepted command -/
  | engine
  deriving DecidableEq, Repr

/-- What a DMEM byte holds after the `epoch`-th power-on until something writes it: "a draw for each
byte, made once at power-on" (R302). -/
opaque Config.powerOnByte (epoch addr : Nat) : Byte

/-- Whether the engine completes its command before the host's next access: the time between
acceptance and completion is not specified (R270, R272, R315). -/
opaque Config.engineFirst (draw : Nat) : Bool

/-- What a state register reads as while a command runs (R52). -/
opaque Config.anyRegister (draw : Nat) : U32

/-- What a byte of DMEM holds, or reads as, that a race or an abandoned command leaves unspecified
(R94, R303). -/
opaque Config.anyByte (draw addr : Nat) : Byte

/-- The reference column A2.INDEX answers where R246..R249 give none: the area is empty or the lane has no
block.  Only a race (R94) can leave such sizes in the run registers (log entry 14). -/
opaque Config.openColumn (q seg r s i j1 : Nat) (same : Bool) : Nat

/-- The words a race leaves in the registers of the HashState and of the run context (R94); `place`
tells the registers of one drawing apart. -/
opaque Config.anyWord (draw place : Nat) : Word

end Sys2Proof
end

