-- ==== Sys2Proof/Machine/State.lean ====
section
/-! DEFINITION. Everything the spec gives the engine to hold (10_state.md rules R31..R64, 20_memory.md
rule R80), the model's own fields beside it, the reasons a step can stop, and the reset state
(70_reset_and_hazards.md rule R301). -/

namespace Sys2Proof.Machine

/-- Why a command ends in an error completion (60_exceptions.md rule R275). -/
inductive Cause where
  /-- the command word does not decode (code 1) -/
  | illegal
  /-- a DMEM region operand is not valid (code 2) -/
  | range
  /-- a length, count or code operand is outside its legal range (code 3) -/
  | param
  /-- B2BST is not ABSORBING (code 4) -/
  | b2bState
  /-- A2ST does not allow the command (code 5) -/
  | a2State
  /-- the memory matrix does not fit in DMEM (code 6) -/
  | alloc
  deriving DecidableEq, Repr

/-- STATUS (R38).  Its reserved bits read as zero and ignore writes, so its fields are all of it;
`Status.word` is the register as the host reads it.  No ERRCODE is code 0 (R275). -/
structure Status where
  /-- [0] BUSY: a command runs -/
  busy : Bool
  /-- [1] DONE: a command has completed; the interrupt pending bit -/
  done : Bool
  /-- [2] ERR: a command has completed with an error -/
  err : Bool
  /-- [3] OVERRUN: CMD was written while BUSY -/
  overrun : Bool
  /-- [15:8] ERRCODE: the error of the last completion -/
  errcode : Option Cause
  deriving DecidableEq, Repr

/-- B2BST, the lifecycle of the HashState (R55).  The code 3 never occurs (R45). -/
inductive B2bSt where
  /-- no hash is in progress (0) -/
  | uninit
  /-- between B2B.INIT and B2B.FINAL (1) -/
  | absorbing
  /-- after B2B.FINAL (2) -/
  | finalized
  deriving DecidableEq, Repr

/-- The HashState (R50). -/
structure HashState where
  /-- B2B_H0..B2B_H7 (R46) -/
  h : Vector Word 8
  /-- B2B_T0, the low word of the byte counter (R47) -/
  t0 : Word
  /-- B2B_T1, the high word of the byte counter (R47) -/
  t1 : Word
  /-- BUF, hidden (R56) -/
  buf : Vector Byte 128
  /-- B2B_STAT.BUFLEN, bytes held in BUF (R45) -/
  buflen : Nat
  /-- B2B_STAT.OUTLEN, the configured output length (R45) -/
  outlen : Nat
  /-- B2B_STAT.B2BST (R45, R55) -/
  st : B2bSt
  deriving DecidableEq, Repr

/-- The Argon2 configuration registers (R48). -/
structure A2Config where
  /-- A2_M: memory cost in KiB -/
  m : U32
  /-- A2_T: passes -/
  t : U32
  /-- A2_P: lanes -/
  p : U32
  /-- A2_TAGLEN: bytes of the tag -/
  taglen : U32
  /-- A2_VERSION: fed into H0 only -/
  version : U32
  /-- A2_TYPE: 0 Argon2d, 1 Argon2i, 2 Argon2id -/
  ty : U32
  /-- A2_PWD_ADDR -/
  pwdAddr : U32
  /-- A2_PWD_LEN -/
  pwdLen : U32
  /-- A2_SALT_ADDR -/
  saltAddr : U32
  /-- A2_SALT_LEN -/
  saltLen : U32
  /-- A2_SECRET_ADDR -/
  secretAddr : U32
  /-- A2_SECRET_LEN -/
  secretLen : U32
  /-- A2_AD_ADDR -/
  adAddr : U32
  /-- A2_AD_LEN -/
  adLen : U32
  /-- A2_MBASE: DMEM address of the matrix -/
  mbase : U32
  /-- A2_TAG_ADDR -/
  tagAddr : U32
  deriving DecidableEq, Repr

/-- A2ST, the state of the Argon2 run (R49, R59).  The codes 6 and 7 never occur. -/
inductive A2St where
  /-- no run (0) -/
  | unconfigured
  /-- after A2.H0 (1) -/
  | seedDerived
  /-- after A2.INIT (2) -/
  | initFilled
  /-- some slices done (3) -/
  | filling
  /-- every slice done (4) -/
  | filled
  /-- after A2.FINAL (5) -/
  | finalized
  deriving DecidableEq, Repr

/-- The Argon2 run status registers (R49) and the seed (R51). -/
structure RunCtx where
  /-- A2_STAT.A2ST -/
  st : A2St
  /-- A2_PASS: the pass of the next slice to fill -/
  pass : U32
  /-- A2_SLICE: the index of the next slice to fill -/
  slice : U32
  /-- A2_MPRIME: blocks in the matrix -/
  mprime : U32
  /-- A2_LANELEN: blocks per lane -/
  lanelen : U32
  /-- A2_SEGLEN: blocks per segment -/
  seglen : U32
  /-- A2_H0REG0..A2_H0REG15 -/
  h0reg : Vector U32 16
  deriving DecidableEq, Repr

/-- DMEM (R80): the bytes that something has written, as (address, byte) pairs with the addresses
strictly rising.  An address not listed has kept what the `epoch`-th power-on left in it (R302). -/
structure Memory where
  /-- which power-on the unwritten bytes date from; the model's own -/
  epoch : Nat
  /-- the written bytes -/
  cells : List Host.Cell
  deriving DecidableEq, Repr

/-- The canonical form of a memory: addresses strictly rising.  An unlisted address holds a draw and
no known byte, so no entry can repeat it (log entry 5). -/
abbrev Memory.wf (m : Memory) : Prop := m.cells.Pairwise (fun x y => x.1 < y.1)

/-- One access of the host, or of the platform, to the engine (30_encoding.md rules R121, R122).  The
host's program arrives as a list of them. -/
inductive HostOp where
  /-- `WR off, v`: a 32-bit REG write -/
  | wr (off : Nat) (v : U32)
  /-- `RD off`: a 32-bit REG read -/
  | rd (off : Nat)
  /-- a REG access that is not 32 bits wide, which the interface does not have (R87) -/
  | regOdd (off bytes : Nat)
  /-- `DW addr, b`: a DMEM byte write -/
  | dw (addr : Nat) (b : Byte)
  /-- `DR addr`: a DMEM byte read -/
  | dr (addr : Nat)
  /-- `WAIT`: read STATUS until BUSY = 0 (R122) -/
  | wait
  /-- wait for the IRQ line (R281) -/
  | waitIrq
  /-- power-on reset, through the platform's reset input (R300) -/
  | powerOn
  deriving DecidableEq, Repr

/-- What the host has seen. -/
inductive HostObs where
  /-- the value a REG read returned -/
  | reg (off : Nat) (v : U32)
  /-- the byte a DMEM read returned -/
  | byte (addr : Nat) (b : Byte)
  /-- the IRQ line was high -/
  | irq
  deriving DecidableEq, Repr

/-- Why a step stops. -/
inductive Fault where
  /-- Raised by a host DMEM access at an address that is not in 0..DMEM_SIZE-1 (R80): no such byte
  exists and the spec gives the access no meaning.  Safe: the model stops. -/
  | dmemAddressAbsent
  deriving DecidableEq, Repr

/-- Why a step has no meaning. -/
inductive Refusal where
  /-- Raised by `exec` for a command that has no meaning yet.  Safe: the model stops. -/
  | notModelled (mnemonic : String)
  /-- Raised by a host REG access that is not 32 bits wide, not 4-aligned or outside the window: "The
  spec gives it no meaning. A model refuses it" (R87).  Safe: the model stops. -/
  | regAccessOutsideInterface
  deriving DecidableEq, Repr

/-- The machine. -/
structure State where
  /-- the parameters (R8, R32); no step changes them -/
  cfg : Config
  /-- CMD: the last accepted command word (R37) -/
  cmd : U32
  /-- STATUS (R38) -/
  status : Status
  /-- CTRL.IRQ_EN (R39) -/
  irqEn : Bool
  /-- ERRCMD: the word of the last command that ended in error (R40) -/
  errcmd : U32
  /-- ARG0..ARG7 (R43) -/
  args : Vector Word 8
  /-- RES0 (R44) -/
  res0 : Word
  /-- RES1 (R44) -/
  res1 : Word
  /-- the HashState (R45..R47, R50, R56) -/
  hash : HashState
  /-- A2_M .. A2_TAG_ADDR (R48) -/
  a2 : A2Config
  /-- A2_STAT .. A2_SEGLEN and A2_H0REGk (R49, R51) -/
  run : RunCtx
  /-- DMEM (R80) -/
  dmem : Memory
  /-- the model's own: the host's accesses still to come, the next one first -/
  inputs : List HostOp
  /-- the model's own: what the host has seen, the latest first -/
  seen : List HostObs
  /-- the model's own: which agent moves next when both can (R270) -/
  turn : Agent
  /-- the model's own: a host write has raced with the running command (R94) -/
  raced : Bool
  /-- the model's own: how many free values have been drawn -/
  draws : Nat
  deriving DecidableEq, Repr

/-- STATUS after reset (R301). -/
def Status.reset : Status :=
  { busy := false, done := false, err := false, overrun := false, errcode := none }

/-- The HashState after reset (R301). -/
def HashState.reset : HashState :=
  { h := Vector.replicate 8 0, t0 := 0, t1 := 0, buf := Vector.replicate 128 0,
    buflen := 0, outlen := 0, st := .uninit }

/-- The configuration registers after reset (R301). -/
def A2Config.reset : A2Config :=
  { m := 0, t := 0, p := 0, taglen := 0, version := 0, ty := 0, pwdAddr := 0, pwdLen := 0,
    saltAddr := 0, saltLen := 0, secretAddr := 0, secretLen := 0, adAddr := 0, adLen := 0,
    mbase := 0, tagAddr := 0 }

/-- The run registers after reset (R301) and after A2.ABORT (R211). -/
def RunCtx.reset : RunCtx :=
  { st := .unconfigured, pass := 0, slice := 0, mprime := 0, lanelen := 0, seglen := 0,
    h0reg := Vector.replicate 16 0 }

/-- The engine with parameters `cfg` right after power-on (R301, R302): every register at its reset
value, no byte of DMEM written, no host access pending. -/
def State.resetFor (cfg : Config) : State :=
  { cfg := cfg, cmd := 0, status := Status.reset, irqEn := false, errcmd := 0,
    args := Vector.replicate 8 0, res0 := 0, res1 := 0, hash := HashState.reset,
    a2 := A2Config.reset, run := RunCtx.reset, dmem := { epoch := 0, cells := [] },
    inputs := [], seen := [], turn := .host, raced := false, draws := 0 }

/-- The machine right after reset (R301), for the engine `Config.default`. -/
def State.reset : State := State.resetFor Config.default

end Sys2Proof.Machine
end

