-- ==== Sys2Proof/Machine/Bytes.lean ====
section
/-! DEFINITION. Byte strings, little-endian words and blocks (00_scope.md rules R10..R14, 20_memory.md
rule R83). -/

namespace Sys2Proof.Machine

/-- `ror64(x, n) = (x >> n) | (x << (64 - n))` (R11). -/
def ror64 (x : Word) (n : Nat) : Word := (x >>> n) ||| (x <<< (64 - n))

/-- The `n`-byte little-endian encoding of a number (R12). -/
def leBytes : Nat → Nat → List Byte
  | 0, _ => []
  | n + 1, x => BitVec.ofNat 8 x :: leBytes n (x / 256)

/-- `LE32` (R12), of a number below 2^32. -/
def le32 (x : Nat) : List Byte := leBytes 4 x

/-- `LE64` (R12). -/
def le64 (x : Word) : List Byte := leBytes 8 x.toNat

/-- The number whose little-endian encoding a byte string is (R12). -/
def ofLE : List Byte → Nat
  | [] => 0
  | b :: bs => b.toNat + 256 * ofLE bs

/-- `a[i..j)` with `n = j - i` bytes (R12). -/
def slice (bs : List Byte) (i n : Nat) : List Byte := (bs.drop i).take n

/-- Word `k` of a byte string read as little-endian 64-bit words (R12, R83 items 1 and 5). -/
def word64At (bs : List Byte) (k : Nat) : Word := BitVec.ofNat 64 (ofLE (slice bs (8 * k) 8))

/-- Word `k` of a byte string read as little-endian 32-bit words (R51, R101). -/
def word32At (bs : List Byte) (k : Nat) : U32 := BitVec.ofNat 32 (ofLE (slice bs (4 * k) 4))

/-- `zeros(n)` (R12). -/
def zeros (n : Nat) : List Byte := List.replicate n 0

/-- An Argon2 block: 128 words (R14). -/
abbrev Block := Vector Word 128

/-- `ZERO` (R14). -/
def Block.zero : Block := Vector.replicate 128 0

/-- A block from its 1024 bytes: `B.w[k] = fromLE64(bytes 8k .. 8k+7)` (R14). -/
def Block.ofBytes (bs : List Byte) : Block := Vector.ofFn fun k => word64At bs k.val

/-- The 1024 bytes of a block (R14). -/
def Block.bytes (b : Block) : List Byte := b.toList.flatMap le64

/-- `X ⊕ Y`, word by word (R14). -/
def Block.xor (x y : Block) : Block := Vector.zipWith (· ^^^ ·) x y

end Sys2Proof.Machine
end

