-- ==== Sys2Proof/Machine/Flags.lean ====
section
/-! DEFINITION. The flags: the STATUS register, how acceptance, completion and the host's writes change
it (10_state.md rules R38, R64; 60_exceptions.md rules R271, R273, R274, R275, R279), and the
interrupt line (R281).  The engine has no other flag: no command writes one by its arithmetic. -/

namespace Sys2Proof.Machine

/-- The error codes (R275). -/
def Cause.code : Cause → Nat
  | .illegal => 1
  | .range => 2
  | .param => 3
  | .b2bState => 4
  | .a2State => 5
  | .alloc => 6

/-- STATUS.ERRCODE as a number: 0 is NONE (R275). -/
def errcodeOf : Option Cause → Nat
  | none => 0
  | some e => e.code

/-- STATUS as a 32-bit register (R38); the reserved bits are 0. -/
def Status.word (f : Status) : U32 :=
  BitVec.ofNat 32 (f.busy.toNat + 2 * f.done.toNat + 4 * f.err.toNat + 8 * f.overrun.toNat
    + 256 * errcodeOf f.errcode)

/-- Acceptance (R271): BUSY is set; DONE, ERR and ERRCODE are cleared; OVERRUN keeps its value. -/
def Status.accepted (f : Status) : Status :=
  { f with busy := true, done := false, err := false, errcode := none }

/-- Success completion (R273). -/
def Status.succeeded (f : Status) : Status :=
  { f with busy := false, done := true, err := false, errcode := none }

/-- Error completion (R274). -/
def Status.failed (f : Status) (e : Cause) : Status :=
  { f with busy := false, done := true, err := true, errcode := some e }

/-- A CMD write while BUSY = 1 (R279). -/
def Status.overran (f : Status) : Status := { f with overrun := true }

/-- A host write of `v` to STATUS (R38): a 1 to DONE clears DONE, a 1 to ERR clears ERR and ERRCODE, a
1 to OVERRUN clears OVERRUN; the read-only fields ignore the write. -/
def Status.cleared (f : Status) (v : U32) : Status :=
  { f with
    done := f.done && !v.getLsbD 1
    err := f.err && !v.getLsbD 2
    errcode := if v.getLsbD 2 then none else f.errcode
    overrun := f.overrun && !v.getLsbD 3 }

/-- The interrupt line: `IRQ = CTRL.IRQ_EN ∧ STATUS.DONE` (R281). -/
def State.irq (s : State) : Bool := s.irqEn && s.status.done

end Sys2Proof.Machine
end

