-- ==== Sys2Proof/Machine/Operands.lean ====
section
/-! DEFINITION. Where a command finds its operands (30_encoding.md rules R115, R116), the regions of
DMEM they name (20_memory.md rule R84), and the views of the status registers of a hash and of a run
(10_state.md rules R45, R49). -/

namespace Sys2Proof.Machine

/-- `ARG[n]`, all 64 bits (R43, R115). -/
def State.arg (s : State) (n : Fin 8) : Word := s.args[n]

/-- `ARG[n].lo`, an address, a length or an index: bits [31:0], the others ignored (R43, R115). -/
def State.argLo (s : State) (n : Fin 8) : Nat := ((s.arg n).extractLsb' 0 32).toNat

/-- A DMEM region: its first address and its length in bytes (R84). -/
abbrev Region := Nat × Nat

/-- The region test of R84: empty, or ending inside DMEM, with the sum computed as an integer. -/
def State.valid (s : State) (a n : Nat) : Bool := n = 0 || a + n ≤ s.cfg.dmemSize

/-- Whether an address lies in a region. -/
def Region.holds (r : Region) (a : Nat) : Bool := r.1 ≤ a && a < r.1 + r.2

/-- Whether an address lies in one of a list of regions. -/
def inRegions (rs : List Region) (a : Nat) : Bool := rs.any (fun r => Region.holds r a)

/-- The part of a region that lies in a memory of `size` bytes. -/
def Region.clip (size : Nat) (r : Region) : Region := (r.1, min r.2 (size - r.1))

/-- The parts of the regions that lie in a memory of `size` bytes. -/
def clipAll (size : Nat) (rs : List Region) : List Region := rs.map (Region.clip size)

/-- The code of B2BST (R45). -/
def B2bSt.code : B2bSt → Nat
  | .uninit => 0
  | .absorbing => 1
  | .finalized => 2

/-- B2B_STAT as the host reads it (R45). -/
def HashState.statWord (hs : HashState) : U32 :=
  BitVec.ofNat 32 (hs.st.code + 256 * hs.buflen + 65536 * hs.outlen)

/-- The byte counter `t = B2B_T1 · 2^64 + B2B_T0` (R47). -/
def HashState.t (hs : HashState) : U128 := hs.t1 ++ hs.t0

/-- The code of A2ST (R49). -/
def A2St.code : A2St → Nat
  | .unconfigured => 0
  | .seedDerived => 1
  | .initFilled => 2
  | .filling => 3
  | .filled => 4
  | .finalized => 5

/-- A run is active while A2ST is SEED_DERIVED, INIT_FILLED, FILLING or FILLED (R59). -/
def A2St.active : A2St → Bool
  | .unconfigured => false
  | .seedDerived => true
  | .initFilled => true
  | .filling => true
  | .filled => true
  | .finalized => false

end Sys2Proof.Machine
end

