-- ==== Sys2Proof/Machine/Ops.lean ====
section
/-! DEFINITION. The shared operations: reading and writing DMEM (00_scope.md rule R13, 20_memory.md rules
R80..R86), and the two ways a command ends (60_exceptions.md rules R273, R274).  The engine's
"exception" is the error completion: it switches no mode and jumps nowhere (R282); the host returns
from it by clearing STATUS (R283), which is `Status.cleared`. -/

namespace Sys2Proof.Machine

/-- What an unlisted address reads as: the power-on draw of that byte (R302). -/
def Memory.blank (m : Memory) (a : Nat) : Byte := Config.powerOnByte m.epoch a

/-- The entries from address `a` upward. -/
def cellsFrom (a : Nat) (cells : List Host.Cell) : List Host.Cell :=
  cells.dropWhile (fun c => Nat.blt c.1 a)

/-- The entries below address `a`. -/
def cellsBelow (a : Nat) (cells : List Host.Cell) : List Host.Cell :=
  cells.filter (fun c => Nat.blt c.1 a)

/-- The byte the first of the entries from `a` upward gives address `a`. -/
def headByte (m : Memory) (a : Nat) : List Host.Cell → Byte
  | [] => m.blank a
  | c :: _ => if c.1 = a then c.2 else m.blank a

/-- The byte at an address. -/
def Memory.byte (m : Memory) (a : Nat) : Byte := headByte m a (cellsFrom a m.cells)

/-- `MemRead(addr, n)` over the entries still ahead. -/
def readCells (m : Memory) : Nat → Nat → List Host.Cell → List Byte
  | _, 0, _ => []
  | a, n + 1, cells => headByte m a (cellsFrom a cells) :: readCells m (a + 1) n (cellsFrom a cells)

/-- `MemRead(addr, n)`: the `n` bytes DMEM[addr .. addr+n) (R13). -/
def Memory.read (m : Memory) (a n : Nat) : List Byte := readCells m a n m.cells

/-- The entries of a byte string placed at an address. -/
def cellsOf : Nat → List Byte → List Host.Cell
  | _, [] => []
  | a, b :: bs => (a, b) :: cellsOf (a + 1) bs

/-- `MemWrite(addr, n, v)` with `n` the length of `v` (R13). -/
def Memory.write (m : Memory) (a : Nat) (bs : List Byte) : Memory :=
  { m with
    cells := cellsBelow a m.cells ++ cellsOf a bs
      ++ m.cells.filter (fun c => Nat.ble (a + bs.length) c.1) }

/-- One byte of free value for each byte of a region (R94, R303). -/
def Memory.drawRegion (m : Memory) (draw : Nat) (r : Region) : Memory :=
  m.write r.1 ((List.range' r.1 r.2).map (Config.anyByte draw))

/-- Free values for every byte of the regions (R94, R303). -/
def Memory.drawRegions (m : Memory) (draw : Nat) (rs : List Region) : Memory :=
  rs.foldl (fun m r => m.drawRegion draw r) m

/-- The bytes of the regions that exist take free values, the next drawing. -/
def State.openBytes (s : State) (rs : List Region) : State :=
  { s with
    dmem := s.dmem.drawRegions s.draws (clipAll s.cfg.dmemSize rs)
    draws := s.draws + 1 }

/-- Success completion (R273): STATUS only; ERRCMD is unchanged. -/
def State.complete (s : State) : State := { s with status := s.status.succeeded }

/-- Error completion (R274): STATUS, and ERRCMD takes the command word; nothing else changes (R278). -/
def State.raise (s : State) (e : Cause) : State :=
  { s with status := s.status.failed e, errcmd := s.cmd }

/-- The end of a command (R270): its first failing check raises its cause on the state as it was;
with none, the command's effect stands and it completes. -/
def State.conclude (s : State) (check : Option Cause) (effect : State) :
    Host.Outcome State Fault Refusal :=
  match check with
  | some e => .next (s.raise e)
  | none => .next effect.complete

/-- Acceptance of the word `v` (R271): CMD and STATUS change, nothing else.  A command that starts has
raced with nothing yet. -/
def State.accept (s : State) (v : U32) : State :=
  { s with cmd := v, status := s.status.accepted, raced := false }

/-- The next drawing of who moves first (R270, R315): taken after each access of the host. -/
def State.redraw (s : State) : State :=
  { s with
    turn := if Config.engineFirst s.draws then .engine else .host
    draws := s.draws + 1 }

end Sys2Proof.Machine
end

