-- ==== Sys2Proof/Machine/Blake2b.lean ====
section
/-! DEFINITION. The Blake2b compression engine and its commands B2B.INIT, B2B.UPDATE, B2B.FINAL,
B2B.COMPRESS and B2B.HASH (41_blake2b.md). -/

namespace Sys2Proof.Machine

/-- The initialization vector (R141). -/
def iv : Vector Word 8 :=
  #v[0x6A09E667F3BCC908, 0xBB67AE8584CAA73B, 0x3C6EF372FE94F82B, 0xA54FF53A5F1D36F1,
     0x510E527FADE682D1, 0x9B05688C2B3E6C1F, 0x1F83D9ABFB41BD6B, 0x5BE0CD19137E2179]

/-- The message schedule (R142). -/
def sigma : Vector (Vector (Fin 16) 16) 10 :=
  #v[#v[0, 1, 2, 3, 4, 5, 6, 7, 8, 9, 10, 11, 12, 13, 14, 15],
     #v[14, 10, 4, 8, 9, 15, 13, 6, 1, 12, 0, 2, 11, 7, 5, 3],
     #v[11, 8, 12, 0, 5, 2, 15, 13, 10, 14, 3, 6, 7, 1, 9, 4],
     #v[7, 9, 3, 1, 13, 12, 11, 14, 2, 6, 5, 10, 4, 0, 15, 8],
     #v[9, 0, 5, 7, 2, 4, 10, 15, 14, 1, 11, 12, 6, 8, 3, 13],
     #v[2, 12, 6, 10, 0, 11, 8, 3, 4, 13, 7, 5, 15, 14, 1, 9],
     #v[12, 5, 1, 15, 14, 13, 4, 10, 0, 7, 6, 3, 9, 2, 8, 11],
     #v[13, 11, 7, 14, 12, 1, 3, 9, 5, 0, 15, 4, 8, 6, 2, 10],
     #v[6, 15, 14, 9, 11, 3, 0, 8, 12, 2, 13, 7, 1, 4, 10, 5],
     #v[10, 2, 8, 4, 7, 6, 1, 5, 15, 11, 9, 14, 3, 12, 13, 0]]

/-- The row of the schedule round `r` uses: `SIGMA[r mod 10]` (R142). -/
def sigmaRow (r : Nat) : Vector (Fin 16) 16 := sigma[r % 10]'(Nat.mod_lt r (by decide))

/-- `Gmix(v, a, b, c, d, x, y)` (R143). -/
def gmix (v : Vector Word 16) (a b c d : Fin 16) (x y : Word) : Vector Word 16 :=
  let v := v.set a (v[a] + v[b] + x)
  let v := v.set d (ror64 (v[d] ^^^ v[a]) 32)
  let v := v.set c (v[c] + v[d])
  let v := v.set b (ror64 (v[b] ^^^ v[c]) 24)
  let v := v.set a (v[a] + v[b] + y)
  let v := v.set d (ror64 (v[d] ^^^ v[a]) 16)
  let v := v.set c (v[c] + v[d])
  v.set b (ror64 (v[b] ^^^ v[c]) 63)

/-- `Round(v, M, s)`: four calls on the columns, then four on the diagonals (R145). -/
def blakeRound (m : Vector Word 16) (v : Vector Word 16) (s : Vector (Fin 16) 16) :
    Vector Word 16 :=
  let v := gmix v 0 4 8 12 m[s[0]] m[s[1]]
  let v := gmix v 1 5 9 13 m[s[2]] m[s[3]]
  let v := gmix v 2 6 10 14 m[s[4]] m[s[5]]
  let v := gmix v 3 7 11 15 m[s[6]] m[s[7]]
  let v := gmix v 0 5 10 15 m[s[8]] m[s[9]]
  let v := gmix v 1 6 11 12 m[s[10]] m[s[11]]
  let v := gmix v 2 7 8 13 m[s[12]] m[s[13]]
  gmix v 3 4 9 14 m[s[14]] m[s[15]]

/-- The sixteen message words of a 128-byte block (R146). -/
def messageWords (m : List Byte) : Vector Word 16 := Vector.ofFn fun j => word64At m j.val

/-- The working vector F starts from: the state, the IV, the counter and the last-block flag (R144). -/
def workingVector (h : Vector Word 8) (t : U128) (f : Bool) : Vector Word 16 :=
  let v : Vector Word 16 := h ++ iv
  let v := v.set 12 (v[12] ^^^ t.extractLsb' 0 64)
  let v := v.set 13 (v[13] ^^^ t.extractLsb' 64 64)
  if f then v.set 14 (v[14] ^^^ 0xFFFFFFFFFFFFFFFF) else v

/-- The compression function `F(h, m, t, f)` (R144). -/
def compress (h : Vector Word 8) (m : List Byte) (t : U128) (f : Bool) : Vector Word 8 :=
  let mw := messageWords m
  let v := (List.range 12).foldl (fun v r => blakeRound mw v (sigmaRow r)) (workingVector h t f)
  Vector.ofFn fun i => h[i] ^^^ v[i.val]'(by omega) ^^^ v[i.val + 8]'(by omega)

/-- The state the IV and the parameter block give (R147). -/
def initialH (nn kk : Nat) : Vector Word 8 :=
  iv.set 0 (iv[0] ^^^ 0x01010000 ^^^ (BitVec.ofNat 64 kk <<< 8) ^^^ BitVec.ofNat 64 nn)

/-- BUF holding the key, zero-padded to 128 bytes (R148). -/
def keyBlock (key : List Byte) : Vector Byte 128 :=
  Vector.ofFn fun i => (key ++ zeros (128 - key.length)).getD i.val 0

/-- `Init(nn, key)` (R148).  With no key BUF is not written. -/
def HashState.init (hs : HashState) (nn : Nat) (key : List Byte) : HashState :=
  { h := initialH nn key.length, t0 := 0, t1 := 0,
    buf := if key.length = 0 then hs.buf else keyBlock key,
    buflen := if key.length = 0 then 0 else 128,
    outlen := nn, st := .absorbing }

/-- `t <- t + n`, modulo 2^128 (R152). -/
def HashState.addT (hs : HashState) (n : Nat) : HashState :=
  let t := hs.t + BitVec.ofNat 128 n
  { hs with t0 := t.extractLsb' 0 64, t1 := t.extractLsb' 64 64 }

/-- Make room in a full buffer: count it and compress it, not as the last block (R149). -/
def HashState.makeRoom (hs : HashState) : HashState :=
  if hs.buflen = 128 then
    let hs := hs.addT 128
    { hs with h := compress hs.h hs.buf.toList hs.t false, buflen := 0 }
  else hs

/-- `BUF[BUFLEN] <- x; BUFLEN <- BUFLEN + 1` (R149). -/
def HashState.push (hs : HashState) (x : Byte) : HashState :=
  { hs with buf := hs.buf.setIfInBounds hs.buflen x, buflen := hs.buflen + 1 }

/-- One byte of Absorb (R149). -/
def HashState.absorbByte (hs : HashState) (x : Byte) : HashState := hs.makeRoom.push x

/-- `Absorb(data)`, byte by byte (R149). -/
def HashState.absorb (hs : HashState) (data : List Byte) : HashState :=
  data.foldl HashState.absorbByte hs

/-- The HashState after Finalize() (R151): the buffered bytes, zero-padded, are the last block. -/
def HashState.finalize (hs : HashState) : HashState :=
  let n := hs.buflen
  let hs := hs.addT n
  { hs with
    h := compress hs.h (hs.buf.toList.take n ++ zeros (128 - n)) hs.t true
    buflen := 0
    st := .finalized }

/-- The digest a finalized state holds: `trunc(LE64(h[0]) ‖ ... ‖ LE64(h[7]), OUTLEN)` (R151). -/
def HashState.digest (hs : HashState) : List Byte := (hs.h.toList.flatMap le64).take hs.outlen

/-- `Blake2b(nn, data, key)` on a private HashState (R150, R62). -/
def blake2b (nn : Nat) (data key : List Byte) : List Byte :=
  ((HashState.reset.init nn key).absorb data).finalize.digest

/-- The length checks of B2B.INIT and B2B.HASH (R155, R159). -/
def badHashLengths (nn kk : Nat) : Bool := nn < 1 || nn > 64 || kk > 64

/-- The checks of B2B.INIT, in the order of R277 (R155). -/
def checkB2bInit (nn kk : Nat) (s : State) : Option Cause :=
  if badHashLengths nn kk then some .param
  else if s.valid (s.argLo 0) kk then none else some .range

/-- The effect of B2B.INIT (R155). -/
def effectB2bInit (nn kk : Nat) (s : State) : State :=
  { s with hash := s.hash.init nn (s.dmem.read (s.argLo 0) kk) }

/-- B2B.INIT outlen, keylen (R155). -/
def execB2bInit (nn kk : Nat) (s : State) : Host.Outcome State Fault Refusal :=
  s.conclude (checkB2bInit nn kk s) (effectB2bInit nn kk s)

/-- The checks of B2B.UPDATE (R156). -/
def checkB2bUpdate (s : State) : Option Cause :=
  if s.hash.st ≠ .absorbing then some .b2bState
  else if s.valid (s.argLo 0) (s.argLo 1) then none else some .range

/-- The effect of B2B.UPDATE (R156). -/
def effectB2bUpdate (s : State) : State :=
  { s with hash := s.hash.absorb (s.dmem.read (s.argLo 0) (s.argLo 1)) }

/-- B2B.UPDATE (R156). -/
def execB2bUpdate (s : State) : Host.Outcome State Fault Refusal :=
  s.conclude (checkB2bUpdate s) (effectB2bUpdate s)

/-- The checks of B2B.FINAL (R157). -/
def checkB2bFinal (s : State) : Option Cause :=
  if s.hash.st ≠ .absorbing then some .b2bState
  else if s.valid (s.argLo 2) s.hash.outlen then none else some .range

/-- The effect of B2B.FINAL (R157). -/
def effectB2bFinal (s : State) : State :=
  { s with hash := s.hash.finalize, dmem := s.dmem.write (s.argLo 2) s.hash.finalize.digest }

/-- B2B.FINAL (R157). -/
def execB2bFinal (s : State) : Host.Outcome State Fault Refusal :=
  s.conclude (checkB2bFinal s) (effectB2bFinal s)

/-- The check of B2B.COMPRESS (R158). -/
def checkB2bCompress (s : State) : Option Cause :=
  if s.valid (s.argLo 0) 128 then none else some .range

/-- The effect of B2B.COMPRESS (R158): h only. -/
def effectB2bCompress (last : Bool) (s : State) : State :=
  { s with
    hash := { s.hash with
      h := compress s.hash.h (s.dmem.read (s.argLo 0) 128) s.hash.t last } }

/-- B2B.COMPRESS last (R158). -/
def execB2bCompress (last : Bool) (s : State) : Host.Outcome State Fault Refusal :=
  s.conclude (checkB2bCompress s) (effectB2bCompress last s)

/-- The checks of B2B.HASH (R159). -/
def checkB2bHash (nn kk : Nat) (s : State) : Option Cause :=
  if badHashLengths nn kk then some .param
  else if s.valid (s.argLo 0) (s.argLo 1) && s.valid (s.argLo 3) kk && s.valid (s.argLo 2) nn
  then none else some .range

/-- The effect of B2B.HASH (R159): every input is read before the digest is written (R91). -/
def effectB2bHash (nn kk : Nat) (s : State) : State :=
  { s with
    dmem := s.dmem.write (s.argLo 2)
      (blake2b nn (s.dmem.read (s.argLo 0) (s.argLo 1)) (s.dmem.read (s.argLo 3) kk)) }

/-- B2B.HASH outlen, keylen (R159). -/
def execB2bHash (nn kk : Nat) (s : State) : Host.Outcome State Fault Refusal :=
  s.conclude (checkB2bHash nn kk s) (effectB2bHash nn kk s)

end Sys2Proof.Machine
end

