-- ==== Sys2Proof/Machine/Blake2bLong.lean ====
section
/-! DEFINITION. The Blake2b-Long generator H' and its command B2B.LONG (42_blake2b_long.md). -/

namespace Sys2Proof.Machine

/-- The rest of H' after the chain value `v`, with `rem` bytes still to emit (R181): while more than 64
remain, the next chain value emits its first 32 bytes; the final call is emitted in full.  `fuel`
bounds the further chain values; one for each byte remaining is enough. -/
def hPrimeChain : Nat → Nat → List Byte → List Byte
  | 0, rem, v => blake2b rem v []
  | fuel + 1, rem, v =>
    if rem > 64 then
      (blake2b 64 v []).take 32 ++ hPrimeChain fuel (rem - 32) (blake2b 64 v [])
    else blake2b rem v []

/-- The first chain value `V1 = Blake2b(64, LE32(T) ‖ A)` (R181). -/
def hPrimeFirst (t : Nat) (a : List Byte) : List Byte := blake2b 64 (le32 t ++ a) []

/-- `H'(T, A)` (R181); the prefix LE32(T) for every T (R183, conflict C1). -/
def hPrime (t : Nat) (a : List Byte) : List Byte :=
  if t ≤ 64 then blake2b t (le32 t ++ a) []
  else (hPrimeFirst t a).take 32 ++ hPrimeChain t (t - 32) (hPrimeFirst t a)

/-- The checks of B2B.LONG (R184). -/
def checkB2bLong (s : State) : Option Cause :=
  if s.argLo 3 = 0 then some .param
  else if s.valid (s.argLo 0) (s.argLo 1) && s.valid (s.argLo 2) (s.argLo 3) then none
  else some .range

/-- The effect of B2B.LONG (R184). -/
def effectB2bLong (s : State) : State :=
  { s with
    dmem := s.dmem.write (s.argLo 2)
      (hPrime (s.argLo 3) (s.dmem.read (s.argLo 0) (s.argLo 1))) }

/-- B2B.LONG (R184). -/
def execB2bLong (s : State) : Host.Outcome State Fault Refusal :=
  s.conclude (checkB2bLong s) (effectB2bLong s)

end Sys2Proof.Machine
end

