-- ==== Sys2Proof/Machine/BlockMix.lean ====
section
/-! DEFINITION. The Argon2 block compression G and its command A2.G (43_argon2_fill.md rules R195..R197,
R212). -/

namespace Sys2Proof.Machine

/-- `x + y + 2 · x[31:0] · y[31:0]`, modulo 2^64 (R195). -/
def mulAdd (x y : Word) : Word :=
  x + y + 2 * ((x.extractLsb' 0 32).setWidth 64 * (y.extractLsb' 0 32).setWidth 64)

/-- `GB(v, a, b, c, d)` (R195, conflict C4). -/
def gb (v : Vector Word 16) (a b c d : Fin 16) : Vector Word 16 :=
  let v := v.set a (mulAdd v[a] v[b])
  let v := v.set d (ror64 (v[d] ^^^ v[a]) 32)
  let v := v.set c (mulAdd v[c] v[d])
  let v := v.set b (ror64 (v[b] ^^^ v[c]) 24)
  let v := v.set a (mulAdd v[a] v[b])
  let v := v.set d (ror64 (v[d] ^^^ v[a]) 16)
  let v := v.set c (mulAdd v[c] v[d])
  v.set b (ror64 (v[b] ^^^ v[c]) 63)

/-- The permutation P: columns, then diagonals (R196). -/
def permP (v : Vector Word 16) : Vector Word 16 :=
  let v := gb v 0 4 8 12
  let v := gb v 1 5 9 13
  let v := gb v 2 6 10 14
  let v := gb v 3 7 11 15
  let v := gb v 0 5 10 15
  let v := gb v 1 6 11 12
  let v := gb v 2 7 8 13
  gb v 3 4 9 14

/-- Word `k` of row `i`: `16i + k` (R197). -/
def rowIndex (i : Fin 8) (k : Fin 16) : Fin 128 := ⟨16 * i.val + k.val, by omega⟩

/-- Word `k` of column `j`: the pairs `(2j, 2j+1)` of each row, `2j + 16·(k/2) + k mod 2` (R197). -/
def colIndex (j : Fin 8) (k : Fin 16) : Fin 128 :=
  ⟨2 * j.val + 16 * (k.val / 2) + k.val % 2, by omega⟩

/-- "apply P to (w_0, ..., w_15)": load the words at the sixteen places, permute, store back (R197). -/
def applyP (place : Fin 16 → Fin 128) (q : Block) : Block :=
  let v := permP (Vector.ofFn fun k => q[place k])
  (List.finRange 16).foldl (fun q k => q.set (place k) v[k]) q

/-- The row pass (R197). -/
def mixRows (q : Block) : Block := (List.finRange 8).foldl (fun q i => applyP (rowIndex i) q) q

/-- The column pass (R197). -/
def mixCols (q : Block) : Block := (List.finRange 8).foldl (fun q j => applyP (colIndex j) q) q

/-- `G(X, Y)` (R197). -/
def blockG (x y : Block) : Block :=
  let r := x.xor y
  (mixCols (mixRows r)).xor r

/-- The block at a DMEM address (R14, R191). -/
def Memory.block (m : Memory) (a : Nat) : Block := Block.ofBytes (m.read a 1024)

/-- Store a block at a DMEM address (R191). -/
def Memory.setBlock (m : Memory) (a : Nat) (b : Block) : Memory := m.write a b.bytes

/-- The checks of A2.G (R212). -/
def checkA2G (s : State) : Option Cause :=
  if s.valid (s.argLo 0) 1024 && s.valid (s.argLo 1) 1024 && s.valid (s.argLo 2) 1024 then none
  else some .range

/-- The block A2.G writes; with XOR it accumulates into what the destination held (R212, R91). -/
def resultA2G (xor : Bool) (s : State) : Block :=
  let n := blockG (s.dmem.block (s.argLo 0)) (s.dmem.block (s.argLo 1))
  if xor then (s.dmem.block (s.argLo 2)).xor n else n

/-- The effect of A2.G (R212). -/
def effectA2G (xor : Bool) (s : State) : State :=
  { s with dmem := s.dmem.setBlock (s.argLo 2) (resultA2G xor s) }

/-- A2.G xor (R212). -/
def execA2G (xor : Bool) (s : State) : Host.Outcome State Fault Refusal :=
  s.conclude (checkA2G s) (effectA2G xor s)

end Sys2Proof.Machine
end

