-- ==== Sys2Proof/Machine/Addressing.lean ====
section
/-! DEFINITION. The variant addressing controller and its commands A2.MODE, A2.ADDR and A2.INDEX
(44_argon2_addressing.md).  Positions, sizes and lanes are computed as integers. -/

namespace Sys2Proof.Machine

/-- What a fill reads from the configuration and the run context (R191, R61). -/
structure Job where
  /-- A2_MBASE -/
  mbase : Nat
  /-- lanes, A2_P -/
  p : Nat
  /-- blocks per lane, A2_LANELEN -/
  q : Nat
  /-- blocks per segment, A2_SEGLEN -/
  seg : Nat
  /-- m', A2_MPRIME -/
  mprime : Nat
  /-- passes, A2_T -/
  t : Nat
  /-- variant, A2_TYPE -/
  y : Nat
  deriving DecidableEq, Repr

/-- The run the registers hold. -/
def State.job (s : State) : Job :=
  { mbase := s.a2.mbase.toNat, p := s.a2.p.toNat, q := s.run.lanelen.toNat,
    seg := s.run.seglen.toNat, mprime := s.run.mprime.toNat, t := s.a2.t.toNat,
    y := s.a2.ty.toNat }

/-- DI(y, r, s): data-independent addressing (R241). -/
def dataIndependent (y r s : Nat) : Bool := y = 1 || (y = 2 && r = 0 && s < 2)

/-- J1, the low half of the selector word (R243). -/
def selJ1 (w : Word) : Nat := (w.extractLsb' 0 32).toNat

/-- J2, the high half of the selector word (R243). -/
def selJ2 (w : Word) : Nat := (w.extractLsb' 32 32).toNat

/-- RefLane (R245). -/
def refLane (p r s l j2 : Nat) : Nat := if r = 0 ∧ s = 0 then l else j2 % p

/-- RefArea: how many blocks a reference may be drawn from (R246), or 0 where the integer R246 gives is not
above 0: every difference is taken last. -/
def refArea (q seg r s i : Nat) (same : Bool) : Nat :=
  if r = 0 then
    if s = 0 then i - 1
    else if same then s * seg + i - 1
    else s * seg - (if i = 0 then 1 else 0)
  else if same then q + i - (seg + 1)
  else q - seg - (if i = 0 then 1 else 0)

/-- The quadratic remap of J1 (R247). -/
def remapJ1 (area j1 : Nat) : Nat :=
  let x := j1 * j1 / 2 ^ 32
  let yy := area * x / 2 ^ 32
  area - 1 - yy

/-- AreaStart (R248). -/
def areaStart (seg r s : Nat) : Nat := if r = 0 ∨ s = 3 then 0 else (s + 1) * seg

/-- RefCol (R249).  With an empty area or no block in a lane the rules give no column, and it is a free
value (log entry 14). -/
def refCol (q seg r s i j1 : Nat) (same : Bool) : Nat :=
  if refArea q seg r s i same = 0 ∨ q = 0 then Config.openColumn q seg r s i j1 same
  else (areaStart seg r s + remapJ1 (refArea q seg r s i same) j1) % q

/-- The input block of the address generator (R250). -/
def addrInput (j : Job) (r l s : Nat) (k : Word) : Block :=
  Vector.ofFn fun i =>
    ([BitVec.ofNat 64 r, BitVec.ofNat 64 l, BitVec.ofNat 64 s, BitVec.ofNat 64 j.mprime,
      BitVec.ofNat 64 j.t, BitVec.ofNat 64 j.y, k] : List Word).getD i.val 0

/-- AddrBlock(r, l, s, k) = G(ZERO, G(ZERO, In)) (R250). -/
def addrBlock (j : Job) (r l s : Nat) (k : Word) : Block :=
  blockG Block.zero (blockG Block.zero (addrInput j r l s k))

/-- The hidden counter and current address block of one segment (R251, R62). -/
structure AddrGen where
  /-- ctr -/
  ctr : Word
  /-- Z -/
  z : Block

/-- `ctr <- ctr + 1; Z <- AddrBlock(r, l, s, ctr)` (R251). -/
def addrAdvance (j : Job) (r l s : Nat) (g : AddrGen) : AddrGen :=
  { ctr := g.ctr + 1, z := addrBlock j r l s (g.ctr + 1) }

/-- AddrStart (R251).  Z is not read before it is generated. -/
def addrStart (j : Job) (r l s start : Nat) : AddrGen :=
  let g : AddrGen := { ctr := 0, z := Block.zero }
  if start = 2 then addrAdvance j r l s g else g

/-- The generator AddrNext(i) leaves (R251). -/
def addrNext (j : Job) (r l s i : Nat) (g : AddrGen) : AddrGen :=
  if i % 128 = 0 then addrAdvance j r l s g else g

/-- The selector word AddrNext(i) returns from that generator: `Z.w[i mod 128]` (R251). -/
def AddrGen.word (g : AddrGen) (i : Nat) : Word := g.z[i % 128]'(Nat.mod_lt i (by decide))

/-- The check of A2.MODE (R252). -/
def checkA2Mode (s : State) : Option Cause :=
  if s.argLo 0 > 2 || s.argLo 2 > 3 then some .param else none

/-- The effect of A2.MODE (R252). -/
def effectA2Mode (s : State) : State :=
  { s with
    res0 := BitVec.ofNat 64 (dataIndependent (s.argLo 0) (s.argLo 1) (s.argLo 2)).toNat
    res1 := 0 }

/-- A2.MODE (R252). -/
def execA2Mode (s : State) : Host.Outcome State Fault Refusal :=
  s.conclude (checkA2Mode s) (effectA2Mode s)

/-- The checks of A2.ADDR (R253). -/
def checkA2Addr (s : State) : Option Cause :=
  if s.run.st = .unconfigured then some .a2State
  else if s.argLo 0 ≥ s.a2.t.toNat || s.argLo 1 ≥ s.a2.p.toNat || s.argLo 2 > 3 then some .param
  else if s.valid (s.argLo 4) 1024 then none else some .range

/-- The effect of A2.ADDR (R253). -/
def effectA2Addr (s : State) : State :=
  { s with
    dmem := s.dmem.setBlock (s.argLo 4)
      (addrBlock s.job (s.argLo 0) (s.argLo 1) (s.argLo 2) (s.arg 3)) }

/-- A2.ADDR (R253). -/
def execA2Addr (s : State) : Host.Outcome State Fault Refusal :=
  s.conclude (checkA2Addr s) (effectA2Addr s)

/-- The checks of A2.INDEX (R254): a position some FillSegment visits. -/
def checkA2Index (s : State) : Option Cause :=
  if s.run.st = .unconfigured then some .a2State
  else if s.argLo 1 ≥ s.a2.t.toNat || s.argLo 2 > 3 || s.argLo 3 ≥ s.a2.p.toNat
      || s.argLo 4 ≥ s.run.seglen.toNat
      || (s.argLo 1 = 0 && s.argLo 2 = 0 && s.argLo 4 < 2) then some .param
  else none

/-- The effect of A2.INDEX (R254). -/
def effectA2Index (s : State) : State :=
  let rl := refLane s.a2.p.toNat (s.argLo 1) (s.argLo 2) (s.argLo 3) (selJ2 (s.arg 0))
  let rc := refCol s.run.lanelen.toNat s.run.seglen.toNat (s.argLo 1) (s.argLo 2) (s.argLo 4)
    (selJ1 (s.arg 0)) (rl = s.argLo 3)
  { s with res0 := BitVec.ofNat 64 rl, res1 := BitVec.ofNat 64 rc }

/-- A2.INDEX (R254). -/
def execA2Index (s : State) : Host.Outcome State Fault Refusal :=
  s.conclude (checkA2Index s) (effectA2Index s)

end Sys2Proof.Machine
end

