-- ==== Sys2Proof/Machine/Fill.lean ====
section
/-! DEFINITION. The Argon2 block-fill engine and its commands A2.H0, A2.INIT, A2.SLICE, A2.FINAL, A2.RUN
and A2.ABORT (43_argon2_fill.md). -/

namespace Sys2Proof.Machine

/-- q, blocks per lane, from the requested memory (R192). -/
def laneLen (m p : Nat) : Nat := 4 * (m / (4 * p))

/-- seg = q / 4 (R192). -/
def segLen (m p : Nat) : Nat := laneLen m p / 4

/-- m' = p · q (R192). -/
def mPrime (m p : Nat) : Nat := p * laneLen m p

/-- The input regions of a run: password, salt, secret, associated data (R48, R92). -/
def inputRegions (c : A2Config) : List Region :=
  [(c.pwdAddr.toNat, c.pwdLen.toNat), (c.saltAddr.toNat, c.saltLen.toNat),
   (c.secretAddr.toNat, c.secretLen.toNat), (c.adAddr.toNat, c.adLen.toNat)]

/-- The tag region (R48). -/
def tagRegion (c : A2Config) : Region := (c.tagAddr.toNat, c.taglen.toNat)

/-- The matrix region of a run with these parameters (R90, R202). -/
def matrixRegion (c : A2Config) : Region :=
  (c.mbase.toNat, mPrime c.m.toNat c.p.toNat * 1024)

/-- The parameter checks of Validate() (R201; conflict C5). -/
def badParams (c : A2Config) : Bool :=
  c.t.toNat < 1 || c.p.toNat < 1 || c.ty.toNat > 2 || c.taglen.toNat < 1
    || c.m.toNat < 8 * c.p.toNat

/-- Validate() and the allocation check: PARAM, then RANGE, then ALLOC (R201, R202). -/
def checkParams (s : State) : Option Cause :=
  if badParams s.a2 then some .param
  else if (inputRegions s.a2 ++ [tagRegion s.a2]).all (fun r => s.valid r.1 r.2) then
    if s.valid (matrixRegion s.a2).1 (matrixRegion s.a2).2 then none else some .alloc
  else some .range

/-- The checks of A2.H0 and A2.RUN: no run is active, then the parameters (R206, R210). -/
def checkStart (s : State) : Option Cause :=
  if s.run.st.active then some .a2State else checkParams s

/-- A length-prefixed field of H0 (R193). -/
def prefixed (bs : List Byte) (n : Nat) : List Byte := le32 n ++ bs

/-- The bytes H0 hashes (R193). -/
def seedInput (c : A2Config) (m : Memory) : List Byte :=
  le32 c.p.toNat ++ le32 c.taglen.toNat ++ le32 c.m.toNat ++ le32 c.t.toNat
    ++ le32 c.version.toNat ++ le32 c.ty.toNat
    ++ prefixed (m.read c.pwdAddr.toNat c.pwdLen.toNat) c.pwdLen.toNat
    ++ prefixed (m.read c.saltAddr.toNat c.saltLen.toNat) c.saltLen.toNat
    ++ prefixed (m.read c.secretAddr.toNat c.secretLen.toNat) c.secretLen.toNat
    ++ prefixed (m.read c.adAddr.toNat c.adLen.toNat) c.adLen.toNat

/-- The seed H0 (R193). -/
def seedH0 (c : A2Config) (m : Memory) : List Byte := blake2b 64 (seedInput c m) []

/-- `A2_H0REGk = fromLE32(H0[4k .. 4k+4))` (R51). -/
def h0Registers (h0 : List Byte) : Vector U32 16 := Vector.ofFn fun k => word32At h0 k.val

/-- The 64 bytes of H0 the A2_H0REG registers hold (R51). -/
def RunCtx.h0Bytes (r : RunCtx) : List Byte := r.h0reg.toList.flatMap fun w => le32 w.toNat

/-- The effect of A2.H0 (R206). -/
def effectA2H0 (s : State) : State :=
  { s with
    run :=
      { st := .seedDerived, pass := 0, slice := 0,
        mprime := BitVec.ofNat 32 (mPrime s.a2.m.toNat s.a2.p.toNat),
        lanelen := BitVec.ofNat 32 (laneLen s.a2.m.toNat s.a2.p.toNat),
        seglen := BitVec.ofNat 32 (segLen s.a2.m.toNat s.a2.p.toNat),
        h0reg := h0Registers (seedH0 s.a2 s.dmem) } }

/-- A2.H0 (R206). -/
def execA2H0 (s : State) : Host.Outcome State Fault Refusal :=
  s.conclude (checkStart s) (effectA2H0 s)

/-- The DMEM address of block (l, c) (R90). -/
def blkAddr (j : Job) (l c : Nat) : Nat := j.mbase + (l * j.q + c) * 1024

/-- `Blk(l, c)` (R191). -/
def blk (j : Job) (m : Memory) (l c : Nat) : Block := m.block (blkAddr j l c)

/-- Initial block `c` of lane `l`: `H'(1024, H0 ‖ LE32(c) ‖ LE32(l))` (R194). -/
def initialBlock (h0 : List Byte) (l c : Nat) : List Byte := hPrime 1024 (h0 ++ le32 c ++ le32 l)

/-- The two initial blocks of a lane (R194). -/
def initLane (j : Job) (h0 : List Byte) (m : Memory) (l : Nat) : Memory :=
  (m.write (blkAddr j l 0) (initialBlock h0 l 0)).write (blkAddr j l 1) (initialBlock h0 l 1)

/-- `n` blocks of every lane, from column `c` upward (R90). -/
def laneColumns (j : Job) (c n : Nat) : List Region :=
  (List.range j.p).map fun l => (blkAddr j l c, n * 1024)

/-- The matrix the run registers name lies in DMEM (R90, R202).  It does in every run; only a race (R94) can
leave other sizes in them (log entries 8 and 21). -/
def State.matrixInside (s : State) : Bool := s.valid s.job.mbase (s.job.p * s.job.q * 1024)

/-- A2.INIT finds its two columns in the matrix. -/
def State.initDefined (s : State) : Bool := 2 ≤ s.job.q && s.matrixInside

/-- The check of A2.INIT (R207). -/
def checkA2Init (s : State) : Option Cause :=
  if s.run.st = .seedDerived then none else some .a2State

/-- The matrix after A2.INIT (R207).  Where the registers name no such matrix, the columns it would write
hold free values (log entry 21). -/
def fillInit (s : State) : State :=
  if s.initDefined then
    { s with dmem := (List.range s.job.p).foldl (initLane s.job s.run.h0Bytes) s.dmem }
  else s.openBytes (laneColumns s.job 0 2)

/-- The effect of A2.INIT (R207). -/
def effectA2Init (s : State) : State :=
  { fillInit s with run := { s.run with st := .initFilled } }

/-- A2.INIT (R207). -/
def execA2Init (s : State) : Host.Outcome State Fault Refusal :=
  s.conclude (checkA2Init s) (effectA2Init s)

/-- The first index FillSegment computes: 2 in segment 0 of pass 0, else 0 (R198, R200). -/
def segStart (r s : Nat) : Nat := if r = 0 ∧ s = 0 then 2 else 0

/-- The predecessor column (R199). -/
def prevCol (q c : Nat) : Nat := if c = 0 then q - 1 else c - 1

/-- The selector word of one position: from the address generator or from the predecessor block
(R200, R244, R251). -/
def selector (j : Job) (m : Memory) (r s l i : Nat) (g : AddrGen) : Word :=
  if dataIndependent j.y r s then g.word i
  else (blk j m l (prevCol j.q (s * j.seg + i)))[0]

/-- The block one iteration of FillSegment stores at column `s·seg + i` of lane `l` (R200, R203). -/
def newBlock (j : Job) (m : Memory) (r s l i : Nat) (w : Word) : Block :=
  let c := s * j.seg + i
  let rl := refLane j.p r s l (selJ2 w)
  let rc := refCol j.q j.seg r s i (selJ1 w) (rl = l)
  let n := blockG (blk j m l (prevCol j.q c)) (blk j m rl rc)
  if r = 0 then n else (blk j m l c).xor n

/-- One iteration of FillSegment (R200). -/
def fillStep (j : Job) (r s l : Nat) (gm : AddrGen × Memory) (i : Nat) : AddrGen × Memory :=
  let g := if dataIndependent j.y r s then addrNext j r l s i gm.1 else gm.1
  (g, gm.2.setBlock (blkAddr j l (s * j.seg + i))
    (newBlock j gm.2 r s l i (selector j gm.2 r s l i g)))

/-- FillSegment(r, s, l) (R200). -/
def fillSegment (j : Job) (r s : Nat) (m : Memory) (l : Nat) : Memory :=
  let start := segStart r s
  ((List.range' start (j.seg - start)).foldl (fillStep j r s l) (addrStart j r l s start, m)).2

/-- One slice: the segment of each lane, in an order of the lanes (R198, R213). -/
def fillSlice (j : Job) (r s : Nat) (order : List Nat) (m : Memory) : Memory :=
  order.foldl (fillSegment j r s) m

/-- The order in which `workers` workers fill `p` lanes here: worker w takes the lanes w, w + workers,
... (R288).  DESIGN CHOICE (log entry 9): the spec leaves the order open and says that no result
depends on it (R214). -/
def laneOrder (workers p : Nat) : List Nat :=
  (List.range workers).flatMap fun w => (List.range p).filter fun l => l % workers = w

/-- The check of A2.SLICE (R208). -/
def checkA2Slice (s : State) : Option Cause :=
  if s.run.st = .initFilled || s.run.st = .filling then none else some .a2State

/-- The pass and slice after one more slice (R208). -/
def RunCtx.advance (r : RunCtx) : RunCtx :=
  if r.slice = 3 then { r with slice := 0, pass := r.pass + 1 }
  else { r with slice := r.slice + 1 }

/-- The run context after one more slice of a run of `t` passes (R208). -/
def RunCtx.afterSlice (r : RunCtx) (t : U32) : RunCtx :=
  { r.advance with st := if r.advance.pass = t then .filled else .filling }

/-- A2.SLICE finds whole segments of at least two blocks (R192), a slice that exists (R49) and its matrix. -/
def State.sliceDefined (s : State) : Bool :=
  2 ≤ s.job.seg && s.job.q = 4 * s.job.seg && s.run.slice.toNat ≤ 3 && s.matrixInside

/-- The columns A2.SLICE writes: those of the slice, without columns 0 and 1 in slice (0, 0) (R208). -/
def sliceColumns (s : State) : List Region :=
  let start := segStart s.run.pass.toNat s.run.slice.toNat
  laneColumns s.job (s.run.slice.toNat * s.job.seg + start) (s.job.seg - start)

/-- The matrix after A2.SLICE (R208).  Where the registers name no such matrix, the columns it would write
hold free values (log entry 21). -/
def fillCurrentSlice (s : State) : State :=
  if s.sliceDefined then
    { s with
      dmem := fillSlice s.job s.run.pass.toNat s.run.slice.toNat
        (laneOrder s.cfg.laneWorkers s.job.p) s.dmem }
  else s.openBytes (sliceColumns s)

/-- The effect of A2.SLICE (R208). -/
def effectA2Slice (s : State) : State :=
  { fillCurrentSlice s with run := s.run.afterSlice s.a2.t }

/-- A2.SLICE (R208). -/
def execA2Slice (s : State) : Host.Outcome State Fault Refusal :=
  s.conclude (checkA2Slice s) (effectA2Slice s)

/-- The XOR of the last column over every lane (R204). -/
def lastColumn (j : Job) (m : Memory) : Block :=
  (List.range j.p).foldl (fun c l => c.xor (blk j m l (j.q - 1))) Block.zero

/-- The check of A2.FINAL (R209). -/
def checkA2Final (s : State) : Option Cause :=
  if s.run.st = .filled then none else some .a2State

/-- A2.FINAL finds a last column in the matrix and its tag region in DMEM (R201). -/
def State.finalDefined (s : State) : Bool :=
  1 ≤ s.job.q && s.matrixInside && s.valid (tagRegion s.a2).1 (tagRegion s.a2).2

/-- DMEM after A2.FINAL (R209): C is read before the tag is written (R100).  Where the registers name no
such matrix, the bytes of the tag are free values (log entry 21). -/
def writeTag (s : State) : State :=
  if s.finalDefined then
    { s with
      dmem := s.dmem.write s.a2.tagAddr.toNat
        (hPrime s.a2.taglen.toNat (lastColumn s.job s.dmem).bytes) }
  else s.openBytes [tagRegion s.a2]

/-- The effect of A2.FINAL (R209). -/
def effectA2Final (s : State) : State :=
  { writeTag s with run := { s.run with st := .finalized } }

/-- A2.FINAL (R209). -/
def execA2Final (s : State) : Host.Outcome State Fault Refusal :=
  s.conclude (checkA2Final s) (effectA2Final s)

/-- The effects of A2.SLICE, `n` times (R210). -/
def fillSlices : Nat → State → State
  | 0, s => s
  | n + 1, s => fillSlices n (effectA2Slice s)

/-- The effect of A2.RUN: those of A2.H0, A2.INIT, A2.SLICE 4·t times and A2.FINAL (R210). -/
def effectA2Run (s : State) : State :=
  effectA2Final (fillSlices (4 * s.a2.t.toNat) (effectA2Init (effectA2H0 s)))

/-- A2.RUN (R210). -/
def execA2Run (s : State) : Host.Outcome State Fault Refusal :=
  s.conclude (checkStart s) (effectA2Run s)

/-- The effect of A2.ABORT (R211): the run registers return to their reset values. -/
def effectA2Abort (s : State) : State := { s with run := RunCtx.reset }

/-- A2.ABORT (R211): no check. -/
def execA2Abort (s : State) : Host.Outcome State Fault Refusal :=
  s.conclude none (effectA2Abort s)

end Sys2Proof.Machine
end

