-- ==== Sys2Proof/Machine/Dispatch.lean ====
section
/-! DEFINITION. What each command does: one arm for each constructor of Instr. -/

namespace Sys2Proof.Machine

def exec (i : Instr) (s : State) : Host.Outcome State Fault Refusal :=
  match i with
  -- Blake2b (41_blake2b.md)
  | .b2bInit outlen keylen => Sys2Proof.Machine.execB2bInit outlen keylen s
  | .b2bUpdate => Sys2Proof.Machine.execB2bUpdate s
  | .b2bFinal => Sys2Proof.Machine.execB2bFinal s
  | .b2bCompress last => Sys2Proof.Machine.execB2bCompress last s
  | .b2bHash outlen keylen => Sys2Proof.Machine.execB2bHash outlen keylen s
  -- Blake2b-Long (42_blake2b_long.md)
  | .b2bLong => Sys2Proof.Machine.execB2bLong s
  -- Argon2 fill (43_argon2_fill.md)
  | .a2H0 => Sys2Proof.Machine.execA2H0 s
  | .a2Init => Sys2Proof.Machine.execA2Init s
  | .a2Slice => Sys2Proof.Machine.execA2Slice s
  | .a2Final => Sys2Proof.Machine.execA2Final s
  | .a2Run => Sys2Proof.Machine.execA2Run s
  | .a2Abort => Sys2Proof.Machine.execA2Abort s
  | .a2G xor => Sys2Proof.Machine.execA2G xor s
  -- Argon2 addressing (44_argon2_addressing.md)
  | .a2Mode => Sys2Proof.Machine.execA2Mode s
  | .a2Addr => Sys2Proof.Machine.execA2Addr s
  | .a2Index => Sys2Proof.Machine.execA2Index s

end Sys2Proof.Machine
end

