-- ==== Sys2Proof/Machine/Footprint.lean ====
section
/-! DEFINITION. The footprint of a command (20_memory.md rule R92), what a host write that races with it
leaves (R94), and the soft reset that abandons it (70_reset_and_hazards.md rule R303). -/

namespace Sys2Proof.Machine

/-- The cause a command would end with, if any: its own checks (R276). -/
def checkOf : Instr → State → Option Cause
  | .b2bInit outlen keylen, s => checkB2bInit outlen keylen s
  | .b2bUpdate, s => checkB2bUpdate s
  | .b2bFinal, s => checkB2bFinal s
  | .b2bCompress _, s => checkB2bCompress s
  | .b2bHash outlen keylen, s => checkB2bHash outlen keylen s
  | .b2bLong, s => checkB2bLong s
  | .a2H0, s => checkStart s
  | .a2Init, s => checkA2Init s
  | .a2Slice, s => checkA2Slice s
  | .a2Final, s => checkA2Final s
  | .a2Run, s => checkStart s
  | .a2Abort, _ => none
  | .a2G _, s => checkA2G s
  | .a2Mode, s => checkA2Mode s
  | .a2Addr, s => checkA2Addr s
  | .a2Index, s => checkA2Index s

/-- The matrix region of the run the registers hold (R90). -/
def runMatrix (j : Job) : Region := (j.mbase, j.p * j.q * 1024)

/-- The read set of a command whose checks pass (R92).  A race can leave A2_LANELEN = 0, and then R92's
"column q-1 of every lane" for A2.FINAL names no column: the model takes the 1024 bytes at A2_MBASE, column 0 of
every lane of length 0.  DESIGN CHOICE (log entry 21). -/
def readSet : Instr → State → List Region
  | .b2bInit _ keylen, s => [(s.argLo 0, keylen)]
  | .b2bUpdate, s => [(s.argLo 0, s.argLo 1)]
  | .b2bFinal, _ => []
  | .b2bCompress _, s => [(s.argLo 0, 128)]
  | .b2bHash _ keylen, s => [(s.argLo 0, s.argLo 1), (s.argLo 3, keylen)]
  | .b2bLong, s => [(s.argLo 0, s.argLo 1)]
  | .a2H0, s => inputRegions s.a2
  | .a2Init, _ => []
  | .a2Slice, s => [runMatrix s.job]
  | .a2Final, s => laneColumns s.job (s.job.q - 1) 1
  | .a2Run, s => inputRegions s.a2 ++ [matrixRegion s.a2]
  | .a2Abort, _ => []
  | .a2G xor, s =>
    [(s.argLo 0, 1024), (s.argLo 1, 1024)] ++ (if xor then [(s.argLo 2, 1024)] else [])
  | .a2Mode, _ => []
  | .a2Addr, _ => []
  | .a2Index, _ => []

/-- The regions R92 lists as the write set of a command whose checks pass. -/
def writeRegions : Instr → State → List Region
  | .b2bInit _ _, _ => []
  | .b2bUpdate, _ => []
  | .b2bFinal, s => [(s.argLo 2, s.hash.outlen)]
  | .b2bCompress _, _ => []
  | .b2bHash outlen _, s => [(s.argLo 2, outlen)]
  | .b2bLong, s => [(s.argLo 2, s.argLo 3)]
  | .a2H0, _ => []
  | .a2Init, s => laneColumns s.job 0 2
  | .a2Slice, s => laneColumns s.job (s.run.slice.toNat * s.job.seg) s.job.seg
  | .a2Final, s => [tagRegion s.a2]
  | .a2Run, s => [matrixRegion s.a2, tagRegion s.a2]
  | .a2Abort, _ => []
  | .a2G _, s => [(s.argLo 2, 1024)]
  | .a2Mode, _ => []
  | .a2Addr, s => [(s.argLo 4, 1024)]
  | .a2Index, _ => []

/-- The write set of a command whose checks pass: the bytes of DMEM in the regions of R92.  The regions lie in
DMEM, unless a race has left other sizes in the run registers (log entry 21). -/
def writeSet (i : Instr) (s : State) : List Region := clipAll s.cfg.dmemSize (writeRegions i s)

/-- The running command, if the machine is busy, its word decodes and its checks pass: only such a
command has a footprint ("A command that ends in error ... Its footprint is empty", R92). -/
def State.running (s : State) : Option Instr :=
  if s.status.busy then
    match decode s.cmd with
    | .ok i => if (checkOf i s).isNone then some i else none
    | .error _ => none
  else none

/-- The write set of the running command. -/
def State.writing (s : State) : List Region :=
  match s.running with
  | some i => writeSet i s
  | none => []

/-- The footprint of the running command: its read set and its write set (R92). -/
def State.footprint (s : State) : List Region :=
  match s.running with
  | some i => readSet i s ++ writeSet i s
  | none => []

/-- B2BST from a free word. -/
def b2bStOf (w : Word) : B2bSt :=
  if w.toNat % 3 = 0 then .uninit else if w.toNat % 3 = 1 then .absorbing else .finalized

/-- A2ST from a free word. -/
def a2StOf (w : Word) : A2St :=
  match w.toNat % 6 with
  | 0 => .unconfigured
  | 1 => .seedDerived
  | 2 => .initFilled
  | 3 => .filling
  | 4 => .filled
  | _ => .finalized

/-- A HashState of free values: every component any value of the width R50 gives it, BUFLEN 0..128 and OUTLEN
0..64 (log entry 8). -/
def anyHash (draw : Nat) : HashState :=
  { h := Vector.ofFn fun i => Config.anyWord draw i.val
    t0 := Config.anyWord draw 8
    t1 := Config.anyWord draw 9
    buf := Vector.ofFn fun i => (Config.anyWord draw (16 + i.val)).extractLsb' 0 8
    buflen := (Config.anyWord draw 10).toNat % 129
    outlen := (Config.anyWord draw 11).toNat % 65
    st := b2bStOf (Config.anyWord draw 12) }

/-- A run context of free values: every register any value of its bits, and A2ST any state (R49). -/
def anyRun (draw : Nat) : RunCtx :=
  { st := a2StOf (Config.anyWord draw 200)
    pass := (Config.anyWord draw 201).extractLsb' 0 32
    slice := (Config.anyWord draw 202).extractLsb' 0 32
    mprime := (Config.anyWord draw 203).extractLsb' 0 32
    lanelen := (Config.anyWord draw 204).extractLsb' 0 32
    seglen := (Config.anyWord draw 205).extractLsb' 0 32
    h0reg := Vector.ofFn fun k => (Config.anyWord draw (206 + k.val)).extractLsb' 0 32 }

/-- The registers of the HashState the command writes take the values of `any`, the others keep those of `hs`
(the "Writes" of R155..R158).  B2B_STAT is one register (R36, R45): a command that writes BUFLEN or B2BST leaves
B2BST, BUFLEN and OUTLEN open, and with a BUFLEN that is open, so are the bytes of BUF that R56 left open before
(log entry 8). -/
def mixHash (i : Instr) (hs any : HashState) : HashState :=
  match i with
  | .b2bInit _ _ => any
  | .b2bUpdate => any
  | .b2bFinal => any
  | .b2bCompress _ => { hs with h := any.h }
  | .b2bHash _ _ => hs
  | .b2bLong => hs
  | .a2H0 => hs
  | .a2Init => hs
  | .a2Slice => hs
  | .a2Final => hs
  | .a2Run => hs
  | .a2Abort => hs
  | .a2G _ => hs
  | .a2Mode => hs
  | .a2Addr => hs
  | .a2Index => hs

/-- The run registers the command writes take the values of `any`, the others keep those of `r` (the
"Writes" of R206..R211). -/
def mixRun (i : Instr) (r any : RunCtx) : RunCtx :=
  match i with
  | .a2H0 => any
  | .a2Run => any
  | .a2Init => { r with st := any.st }
  | .a2Slice => { r with st := any.st, pass := any.pass, slice := any.slice }
  | .a2Final => { r with st := any.st }
  | .b2bInit _ _ => r
  | .b2bUpdate => r
  | .b2bFinal => r
  | .b2bCompress _ => r
  | .b2bHash _ _ => r
  | .b2bLong => r
  | .a2Abort => r
  | .a2G _ => r
  | .a2Mode => r
  | .a2Addr => r
  | .a2Index => r

/-- The HashState after a raced command: any value of the registers it writes (R94). -/
def racedHash (i : Instr) (hs : HashState) (draw : Nat) : HashState := mixHash i hs (anyHash draw)

/-- The run context after a raced command: any value of the registers it writes (R94). -/
def racedRun (i : Instr) (r : RunCtx) (draw : Nat) : RunCtx := mixRun i r (anyRun draw)

/-- What a race leaves when the command completes (R94): every byte of the write set and every register
the command writes holds any value.  `s` is the state the command ran from, `s'` the one it ended in;
the completion itself stands. -/
def settleRace (i : Instr) (s s' : State) : State :=
  { s' with
    dmem := s'.dmem.drawRegions s.draws (writeSet i s)
    hash := racedHash i s'.hash s.draws
    run := racedRun i s'.run s.draws
    raced := false
    draws := s.draws + 1 }

/-- Every register and the hidden state at its reset value (R301); DMEM and what belongs to the host
stay. -/
def State.resetRegisters (s : State) : State :=
  { State.resetFor s.cfg with
    dmem := s.dmem, inputs := s.inputs, seen := s.seen, turn := s.turn, draws := s.draws }

/-- The soft reset (R303): a running command is abandoned and its write set is left unspecified; every
register takes its reset value; the rest of DMEM is unchanged. -/
def State.softReset (s : State) : State :=
  { s.resetRegisters with
    dmem := s.dmem.drawRegions s.draws s.writing
    draws := s.draws + 1 }

/-- Power-on reset (R300, R302): every register takes its reset value and every byte of DMEM is drawn
anew. -/
def State.powerOnReset (s : State) : State :=
  { s.resetRegisters with dmem := { epoch := s.dmem.epoch + 1, cells := [] } }

end Sys2Proof.Machine
end

