-- ==== Sys2Proof/Machine/HostPort.lean ====
section
/-! DEFINITION. The host's side of the engine: the register map (10_state.md rules R34..R63), the DMEM
accesses and their races (20_memory.md rules R86..R95), and the host operations of 30_encoding.md rules
R121 and R122. -/

namespace Sys2Proof.Machine

/-- A 32-bit register of the REG window (R36).  `hi` tells the two halves of a 64-bit register apart
(R34). -/
inductive Reg where
  /-- 0x000 -/
  | cmd
  /-- 0x004 -/
  | status
  /-- 0x008 -/
  | ctrl
  /-- 0x00C -/
  | errcmd
  /-- 0x010 -/
  | id
  /-- 0x014 -/
  | dmemLast
  /-- 0x020 + 8n, 0x024 + 8n -/
  | arg (n : Fin 8) (hi : Bool)
  /-- 0x060, 0x064 -/
  | res0 (hi : Bool)
  /-- 0x068, 0x06C -/
  | res1 (hi : Bool)
  /-- 0x080 -/
  | b2bStat
  /-- 0x100 + 8i, 0x104 + 8i -/
  | b2bH (i : Fin 8) (hi : Bool)
  /-- 0x140, 0x144 -/
  | b2bT0 (hi : Bool)
  /-- 0x148, 0x14C -/
  | b2bT1 (hi : Bool)
  /-- 0x200 + 4k: A2_M .. A2_TAG_ADDR in the order of R36 -/
  | a2cfg (k : Fin 16)
  /-- 0x240 -/
  | a2Stat
  /-- 0x244 -/
  | a2Pass
  /-- 0x248 -/
  | a2Slice
  /-- 0x24C -/
  | a2Mprime
  /-- 0x250 -/
  | a2Lanelen
  /-- 0x254 -/
  | a2Seglen
  /-- 0x280 + 4k -/
  | a2H0reg (k : Fin 16)
  deriving DecidableEq, Repr

/-- Whether an offset is that of the upper half of a 64-bit register: the halves alternate, the lower
one first (R34, R101). -/
def isHigh (off : Nat) : Bool := off / 4 % 2 = 1

/-- Entry `(off - base) / size` of an array of registers. -/
def slot (n : Nat) [NeZero n] (base size off : Nat) : Fin n := Fin.ofNat n ((off - base) / size)

/-- The register map (R36).  An offset with no row is reserved (R35). -/
def regAt (off : Nat) : Option Reg :=
  if off = 0x000 then some .cmd
  else if off = 0x004 then some .status
  else if off = 0x008 then some .ctrl
  else if off = 0x00C then some .errcmd
  else if off = 0x010 then some .id
  else if off = 0x014 then some .dmemLast
  else if 0x020 ≤ off ∧ off < 0x060 then some (.arg (slot 8 0x020 8 off) (isHigh off))
  else if 0x060 ≤ off ∧ off < 0x068 then some (.res0 (isHigh off))
  else if 0x068 ≤ off ∧ off < 0x070 then some (.res1 (isHigh off))
  else if off = 0x080 then some .b2bStat
  else if 0x100 ≤ off ∧ off < 0x140 then some (.b2bH (slot 8 0x100 8 off) (isHigh off))
  else if 0x140 ≤ off ∧ off < 0x148 then some (.b2bT0 (isHigh off))
  else if 0x148 ≤ off ∧ off < 0x150 then some (.b2bT1 (isHigh off))
  else if 0x200 ≤ off ∧ off < 0x240 then some (.a2cfg (slot 16 0x200 4 off))
  else if off = 0x240 then some .a2Stat
  else if off = 0x244 then some .a2Pass
  else if off = 0x248 then some .a2Slice
  else if off = 0x24C then some .a2Mprime
  else if off = 0x250 then some .a2Lanelen
  else if off = 0x254 then some .a2Seglen
  else if 0x280 ≤ off ∧ off < 0x2C0 then some (.a2H0reg (slot 16 0x280 4 off))
  else none

/-- One half of a 64-bit register (R34). -/
def halfOf (x : Word) (hi : Bool) : U32 := if hi then x.extractLsb' 32 32 else x.extractLsb' 0 32

/-- A 64-bit register with one half replaced (R34). -/
def withHalf (x : Word) (hi : Bool) (v : U32) : Word :=
  if hi then v ++ x.extractLsb' 0 32 else x.extractLsb' 32 32 ++ v

/-- Configuration register `k`, in the order of R36. -/
def A2Config.get (c : A2Config) (k : Fin 16) : U32 :=
  #v[c.m, c.t, c.p, c.taglen, c.version, c.ty, c.pwdAddr, c.pwdLen, c.saltAddr, c.saltLen,
     c.secretAddr, c.secretLen, c.adAddr, c.adLen, c.mbase, c.tagAddr][k]

/-- The configuration with register `k` replaced. -/
def A2Config.set (c : A2Config) (k : Fin 16) (v : U32) : A2Config :=
  match k.val with
  | 0 => { c with m := v }
  | 1 => { c with t := v }
  | 2 => { c with p := v }
  | 3 => { c with taglen := v }
  | 4 => { c with version := v }
  | 5 => { c with ty := v }
  | 6 => { c with pwdAddr := v }
  | 7 => { c with pwdLen := v }
  | 8 => { c with saltAddr := v }
  | 9 => { c with saltLen := v }
  | 10 => { c with secretAddr := v }
  | 11 => { c with secretLen := v }
  | 12 => { c with adAddr := v }
  | 13 => { c with adLen := v }
  | 14 => { c with mbase := v }
  | _ => { c with tagAddr := v }

/-- The value a register holds (R37..R51).  ID and DMEM_LAST are constants (R41, R42); SRST reads 0
(R39). -/
def State.regValue (s : State) : Reg → U32
  | .cmd => s.cmd
  | .status => s.status.word
  | .ctrl => BitVec.ofNat 32 s.irqEn.toNat
  | .errcmd => s.errcmd
  | .id => 0xB2A20001
  | .dmemLast => BitVec.ofNat 32 (s.cfg.dmemSize - 1)
  | .arg n hi => halfOf s.args[n] hi
  | .res0 hi => halfOf s.res0 hi
  | .res1 hi => halfOf s.res1 hi
  | .b2bStat => s.hash.statWord
  | .b2bH i hi => halfOf s.hash.h[i] hi
  | .b2bT0 hi => halfOf s.hash.t0 hi
  | .b2bT1 hi => halfOf s.hash.t1 hi
  | .a2cfg k => s.a2.get k
  | .a2Stat => BitVec.ofNat 32 s.run.st.code
  | .a2Pass => s.run.pass
  | .a2Slice => s.run.slice
  | .a2Mprime => s.run.mprime
  | .a2Lanelen => s.run.lanelen
  | .a2Seglen => s.run.seglen
  | .a2H0reg k => s.run.h0reg[k]

/-- The registers whose value is unspecified while a command runs (R52). -/
def Reg.unstable : Reg → Bool
  | .cmd => false
  | .status => false
  | .ctrl => false
  | .errcmd => false
  | .id => false
  | .dmemLast => false
  | .arg _ _ => false
  | .res0 _ => true
  | .res1 _ => true
  | .b2bStat => true
  | .b2bH _ _ => true
  | .b2bT0 _ => true
  | .b2bT1 _ => true
  | .a2cfg _ => false
  | .a2Stat => true
  | .a2Pass => true
  | .a2Slice => true
  | .a2Mprime => true
  | .a2Lanelen => true
  | .a2Seglen => true
  | .a2H0reg _ => true

/-- What a host read of an offset returns (R35, R52). -/
def State.readReg (s : State) (off : Nat) : U32 :=
  match regAt off with
  | none => 0
  | some r => if s.status.busy && r.unstable then Config.anyRegister s.draws else s.regValue r

/-- A host write to a register that takes one only when idle: ARG, B2B_H, B2B_T and the configuration
(R43, R46, R47, R48).  The configuration ignores it while a run is active (R54).  The read-only
registers ignore every write (R63). -/
def State.writeIdle (s : State) (r : Reg) (v : U32) : State :=
  match r with
  | .arg n hi => { s with args := s.args.set n (withHalf s.args[n] hi v) }
  | .b2bH i hi => { s with hash := { s.hash with h := s.hash.h.set i (withHalf s.hash.h[i] hi v) } }
  | .b2bT0 hi => { s with hash := { s.hash with t0 := withHalf s.hash.t0 hi v } }
  | .b2bT1 hi => { s with hash := { s.hash with t1 := withHalf s.hash.t1 hi v } }
  | .a2cfg k => if s.run.st.active then s else { s with a2 := s.a2.set k v }
  | .cmd => s
  | .status => s
  | .ctrl => s
  | .errcmd => s
  | .id => s
  | .dmemLast => s
  | .res0 _ => s
  | .res1 _ => s
  | .b2bStat => s
  | .a2Stat => s
  | .a2Pass => s
  | .a2Slice => s
  | .a2Mprime => s
  | .a2Lanelen => s
  | .a2Seglen => s
  | .a2H0reg _ => s

/-- A host write to CMD: acceptance when idle (R37, R271), OVERRUN when busy (R279). -/
def State.writeCmd (s : State) (v : U32) : State :=
  if s.status.busy then { s with status := s.status.overran } else s.accept v

/-- A host write to CTRL: bit 1 performs a soft reset, whatever bit 0; else bit 0 is IRQ_EN (R39). -/
def State.writeCtrl (s : State) (v : U32) : State :=
  if v.getLsbD 1 then s.softReset else { s with irqEn := v.getLsbD 0 }

/-- A host write of `v` to an offset.  CMD, STATUS and CTRL take it whether or not a command runs; every
other register ignores it while busy (R53); a reserved offset ignores it (R35). -/
def State.writeReg (s : State) (off : Nat) (v : U32) : State :=
  match regAt off with
  | none => s
  | some .cmd => s.writeCmd v
  | some .status => { s with status := s.status.cleared v }
  | some .ctrl => s.writeCtrl v
  | some r => if s.status.busy then s else s.writeIdle r v

/-- A REG access the interface has: 4-aligned, inside the 4096-byte window (R34, R86, R87). -/
def regAccessible (off : Nat) : Bool := off % 4 = 0 && off < 4096

/-- A host DMEM byte write (R86): a byte of the running command's footprint is left unspecified and the
race is on record (R94); any other byte takes the value (R95). -/
def State.hostStore (s : State) (a : Nat) (b : Byte) : State :=
  if inRegions s.footprint a then
    { s with dmem := s.dmem.write a [Config.anyByte s.draws a], raced := true }
  else { s with dmem := s.dmem.write a [b] }

/-- What a host DMEM byte read returns (R86): any value for a byte of the running command's write set,
else the byte (R94, R95). -/
def State.hostLoad (s : State) (a : Nat) : Byte :=
  if inRegions s.writing a then Config.anyByte s.draws a else s.dmem.byte a

/-- The host sees something. -/
def State.observe (s : State) (o : HostObs) : State := { s with seen := o :: s.seen }

/-- One access of the host, already taken off the list: its effect, then a fresh drawing of who moves
next. -/
def hostMove (op : HostOp) (s : State) : Host.Outcome State Fault Refusal :=
  match op with
  | .wr off v =>
    if regAccessible off then .next (s.writeReg off v).redraw
    else .refused .regAccessOutsideInterface
  | .rd off =>
    if regAccessible off then .next (s.observe (.reg off (s.readReg off))).redraw
    else .refused .regAccessOutsideInterface
  | .regOdd _ _ => .refused .regAccessOutsideInterface
  | .dw a b =>
    if a < s.cfg.dmemSize then .next (s.hostStore a b).redraw else .fault .dmemAddressAbsent
  | .dr a =>
    if a < s.cfg.dmemSize then .next (s.observe (.byte a (s.hostLoad a))).redraw
    else .fault .dmemAddressAbsent
  | .wait => .next (s.observe (.reg 0x004 s.status.word)).redraw
  | .waitIrq => .next (s.observe .irq).redraw
  | .powerOn => .next s.powerOnReset.redraw

/-- Whether an access has to wait: WAIT until BUSY = 0 (R122), and a wait for the interrupt until the
line is high. -/
def HostOp.blocked (op : HostOp) (s : State) : Bool :=
  match op with
  | .wait => s.status.busy
  | .waitIrq => !s.irq
  | .wr _ _ => false
  | .rd _ => false
  | .regOdd _ _ => false
  | .dw _ _ => false
  | .dr _ => false
  | .powerOn => false

/-- `SETARG n, v64` (R122). -/
def hostSetArg (n : Nat) (v : Word) : List HostOp :=
  [.wr (0x020 + 8 * n) (halfOf v false), .wr (0x024 + 8 * n) (halfOf v true)]

/-- `SETARGLO n, v32` (R122). -/
def hostSetArgLo (n : Nat) (v : U32) : List HostOp :=
  [.wr (0x020 + 8 * n) v, .wr (0x024 + 8 * n) 0]

/-- `ISSUE <command>` (R122). -/
def hostIssue (i : Instr) : List HostOp := [.wr 0x000 (encode i)]

/-- `CALL <command>` (R122). -/
def hostCall (i : Instr) : List HostOp := hostIssue i ++ [.wait]

/-- `CHECK` (R122): the read whose bits give ERR and ERRCODE. -/
def hostCheck : List HostOp := [.rd 0x004]

/-- `A2.FILLALL` for a run of `t` passes (R122). -/
def hostFillAll (t : Nat) : List HostOp := (List.replicate (4 * t) (hostCall .a2Slice)).flatten

/-- `DW addr, b0 b1 ...` (R121). -/
def hostStores : Nat → List Byte → List HostOp
  | _, [] => []
  | a, b :: bs => .dw a b :: hostStores (a + 1) bs

/-- `DR addr, n` (R121). -/
def hostLoads (a n : Nat) : List HostOp := (List.range' a n).map .dr

end Sys2Proof.Machine
end

