-- ==== Sys2Proof/Machine/Engine.lean ====
section
/-! DEFINITION. The engine's move: the accepted word is decoded and run to its completion as one step
(60_exceptions.md rule R270). -/

namespace Sys2Proof.Machine

/-- A completion settles the race a host write has left on record (R94). -/
def settle (i : Instr) (s : State) :
    Host.Outcome State Fault Refusal → Host.Outcome State Fault Refusal
  | .next s' => .next (settleRace i s s')
  | .fault r => .fault r
  | .refused r => .refused r

/-- Decode CMD and run it (R271); a word that does not decode ends with ILLEGAL (R118). -/
def engineMove (s : State) : Host.Outcome State Fault Refusal :=
  match decode s.cmd with
  | .ok i => if s.raced && (checkOf i s).isNone then settle i s (exec i s) else exec i s
  | .error _ => .next (s.raise .illegal)

/-- Whether the engine moves next, given the host's next access: a command runs, and it is the engine's
turn or the host waits (R270, R272). -/
def engineTurn (s : State) (op : HostOp) : Bool :=
  s.status.busy && (s.turn = .engine || op.blocked s)

/-- The state of `s` right after the word whose low `nbits` bits are those of `w` was accepted (R271),
with the engine to move. -/
def acceptTableWord (s : State) (nbits w : Nat) : State :=
  { s.accept (BitVec.ofNat 32 (w % 2 ^ nbits)) with turn := .engine }

end Sys2Proof.Machine
end

