-- ==== Sys2Proof/Machine/Step.lean ====
section
/-! DEFINITION. One step of the machine: one move of the host or one move of the engine
(10_state.md rule R30, 60_exceptions.md rule R270). -/

namespace Sys2Proof.Machine

/-- One step.  With no access of the host pending, a running command completes and an idle engine stays
as it is (R290).  With one pending, the engine moves if a command runs and it is its turn or the host
waits; else the host moves, or keeps waiting. -/
def step (s : State) : Host.Outcome State Fault Refusal :=
  match s.inputs with
  | [] => if s.status.busy then engineMove s else .next s
  | op :: rest =>
    if engineTurn s op then engineMove s
    else if op.blocked s then .next s
    else hostMove op { s with inputs := rest }

/-- The state in which the very next step runs the command whose word has the low `nbits` bits of `w`:
the word has just been accepted (R271) and the engine moves first.  A command reaches the engine only
as a host write to CMD (R98; log entry 11). -/
def State.withFetchWord (s : State) (nbits w : Nat) : State := acceptTableWord s nbits w

end Sys2Proof.Machine
end

