-- ==== Sys2Proof/Safety.lean ====
section
/-! DEFINITION. What counts as a good run (70_reset_and_hazards.md rules R318, R319). -/

namespace Sys2Proof

open Sys2Proof.Machine

/-- The engine is idle and the host has no access left: the end of a run (R318).  R318 says nothing about a run
during which a soft reset abandoned a command; that such a run ends here too is the model's choice.
DESIGN CHOICE (log entry 22). -/
def runEnded (s : State) : Bool := s.inputs.isEmpty && !s.status.busy

/-- A state a run may start from: BUSY = 0 (R318). -/
def launchable (s : State) : Bool := !s.status.busy

/-- The observation at the end of a run, its REG half: every aligned offset of the window as the host
reads it (R318). -/
def regObservation (s : State) : List U32 := (List.range 1024).map fun k => s.readReg (4 * k)

/-- The observation at the end of a run, its DMEM half: every byte (R318). -/
def dmemObservation (s : State) : List Byte := s.dmem.read 0 s.cfg.dmemSize

/-- An error completion (R274): the running command ended in this step and left ERR = 1. -/
def errorCompletion (s s' : State) : Bool := s.status.busy && !s'.status.busy && s'.status.err

/-- "A run that ends with STATUS.ERR = 1, or that saw any completion with ERR = 1, has faulted" (R318): over
the `n` steps from `s` the machine never stops, no step is an error completion, and ERR = 0 at the end.
What ERR was at the launch does not count.  R318 says nothing about a run during which a soft reset abandoned a
command; that the abandoning is no error completion, so that such a run need not have faulted, is the model's
choice.  DESIGN CHOICE, unsafe (log entry 22). -/
def noError : Nat → State → Bool
  | 0, s => !s.status.err
  | n + 1, s =>
    match step s with
    | .next s' => !errorCompletion s s' && noError n s'
    | .fault _ => false
    | .refused _ => false

/-- An Argon2 run has ended: the tag bytes are the output key (R319). -/
def argonEnded (s : State) : Bool := s.run.st = .finalized && !s.status.busy

end Sys2Proof
end

