-- ==== Sys2Proof/Certificates/Slice0/Obligations.lean ====
section
/-! DEFINITION. What is claimed of the model.  Each statement's docstring names the rules of the spec it
formalises.  `Claims` holds the few words the statements share. -/

open Sys2Proof Sys2Proof.Machine

namespace Sys2Proof.Claims

/-- R84: a region is valid iff it is empty or ends inside DMEM, the sum computed as an integer. -/
def fits (s : State) (a n : Nat) : Prop := n = 0 ∨ a + n ≤ s.cfg.dmemSize

/-- R273: STATUS after a success completion. -/
def doneStatus (f : Status) : Status :=
  { f with busy := false, done := true, err := false, errcode := none }

/-- R274: the state after an error completion with cause `e`; everything but STATUS and ERRCMD is as it
was. -/
def failedState (s : State) (e : Cause) : State :=
  { s with
    status := { s.status with busy := false, done := true, err := true, errcode := some e }
    errcmd := s.cmd }

/-- The command ends with the error `e` and no other effect. -/
def endsWith (i : Instr) (s : State) (e : Cause) : Prop := exec i s = .next (failedState s e)

/-- Every byte of DMEM outside the region reads as before. -/
def sameBytesOutside (s t : State) (a n : Nat) : Prop :=
  ∀ x, (x < a ∨ a + n ≤ x) → t.dmem.byte x = s.dmem.byte x

/-- The host's pending access has to wait: WAIT polls until BUSY = 0 (R122), a wait for the interrupt until
its line is high. -/
def hostWaits (s : State) : Prop := s.inputs.head?.any (fun op => op.blocked s) = true

/-- The engine moves next: a command runs, and the host has no access pending, or it is the engine's turn,
or the host waits. -/
def engineNext (s : State) : Prop :=
  s.status.busy = true ∧ (s.inputs = [] ∨ s.turn = .engine ∨ hostWaits s)

/-- Nothing moves: the engine is idle, and the host has no access pending or waits. -/
def nothingMoves (s : State) : Prop := s.status.busy = false ∧ (s.inputs = [] ∨ hostWaits s)

/-- The host moves next with the access `op`: the engine is idle or it is the host's turn, and the access
does not have to wait. -/
def hostNext (s : State) (op : HostOp) (rest : List HostOp) : Prop :=
  s.inputs = op :: rest ∧ (s.status.busy = false ∨ s.turn = .host) ∧ op.blocked s = false

/-- BUFLEN and OUTLEN within the widths R50 gives them. -/
def hashRange (s : State) : Prop := s.hash.buflen ≤ 128 ∧ s.hash.outlen ≤ 64

/-- The limits of R57 on the HashState, and that a digest length never exceeds 64 bytes. -/
def hashOk (s : State) : Prop :=
  s.hash.buflen ≤ 128 ∧ s.hash.outlen ≤ 64 ∧
    (s.hash.st = .absorbing → 1 ≤ s.hash.outlen) ∧
    (s.hash.st = .uninit → s.hash.outlen = 0 ∧ s.hash.buflen = 0) ∧
    (s.hash.st = .finalized → s.hash.buflen = 0)

/-- The sizes of the run are those R192 derives from the configuration. -/
def sized (s : State) : Prop :=
  s.run.lanelen.toNat = 4 * (s.a2.m.toNat / (4 * s.a2.p.toNat)) ∧
    s.run.seglen.toNat * 4 = s.run.lanelen.toNat ∧
    s.run.mprime.toNat = s.a2.p.toNat * s.run.lanelen.toNat

/-- The configuration passes the checks of R201 and R202. -/
def configOk (s : State) : Prop :=
  1 ≤ s.a2.t.toNat ∧ 1 ≤ s.a2.p.toNat ∧ s.a2.ty.toNat ≤ 2 ∧ 1 ≤ s.a2.taglen.toNat ∧
    8 * s.a2.p.toNat ≤ s.a2.m.toNat ∧
    fits s s.a2.pwdAddr.toNat s.a2.pwdLen.toNat ∧ fits s s.a2.saltAddr.toNat s.a2.saltLen.toNat ∧
    fits s s.a2.secretAddr.toNat s.a2.secretLen.toNat ∧ fits s s.a2.adAddr.toNat s.a2.adLen.toNat ∧
    fits s s.a2.tagAddr.toNat s.a2.taglen.toNat ∧
    fits s s.a2.mbase.toNat
      (s.a2.p.toNat * (4 * (s.a2.m.toNat / (4 * s.a2.p.toNat))) * 1024)

/-- While a run is active its configuration is one that R201 and R202 accept. -/
def acceptedConfig (s : State) : Prop := s.run.st.active = true → configOk s

/-- What the run registers hold in each run state: R49, R59 and R192; and while a run is active its
configuration is one that R201 and R202 accept. -/
def runOk (s : State) : Prop :=
  (s.run.st.active = true → configOk s ∧ sized s) ∧
  (match s.run.st with
    | .unconfigured =>
      s.run.pass = 0 ∧ s.run.slice = 0 ∧ s.run.mprime = 0 ∧ s.run.lanelen = 0 ∧ s.run.seglen = 0
    | .seedDerived => s.run.pass = 0 ∧ s.run.slice = 0
    | .initFilled => s.run.pass = 0 ∧ s.run.slice = 0
    | .filling =>
      s.run.pass.toNat < s.a2.t.toNat ∧ s.run.slice.toNat ≤ 3 ∧
        ¬(s.run.pass = 0 ∧ s.run.slice = 0)
    | .filled => s.run.pass = s.a2.t ∧ s.run.slice = 0
    | .finalized =>
      s.run.slice = 0 ∧ 2 ≤ s.run.seglen.toNat ∧ s.run.lanelen.toNat = 4 * s.run.seglen.toNat)

/-- DMEM is in its canonical form and lists only addresses that exist. -/
def dmemOk (s : State) : Prop := s.dmem.wf ∧ ∀ c ∈ s.dmem.cells, c.1 < s.cfg.dmemSize

/-- The flags agree (R38, R64, R275), and a race on record belongs to a running command. -/
def statusOk (s : State) : Prop :=
  (s.status.busy = true → s.status.done = false ∧ s.status.err = false) ∧
    (s.status.err = true ↔ s.status.errcode ≠ none) ∧
    (s.raced = true → s.running ≠ none)

/-- The matrix geometry of R192 for a fill: whole segments of at least two blocks. -/
def geometry (j : Job) : Prop := 2 ≤ j.seg ∧ j.q = 4 * j.seg

/-- The run registers name a matrix of R192 that lies in DMEM (R90, R202).  They do in every active run
(`StepKeepsTheRunLimits`), unless a command raced with the host (R94). -/
def matrixOk (s : State) : Prop := geometry s.job ∧ fits s s.job.mbase (s.job.p * s.job.q * 1024)

/-- The selector word of position (r, l, s, i) when the blocks are those of `m` (R200, R244, R251): word
`i mod 128` of address block `floor(i / 128) + 1`, or word 0 of the predecessor. -/
def selectorWord (j : Job) (m : Memory) (r s l i : Nat) : Word :=
  if dataIndependent j.y r s then
    (addrBlock j r l s (BitVec.ofNat 64 (i / 128 + 1)))[i % 128]'(Nat.mod_lt i (by decide))
  else (blk j m l (prevCol j.q (s * j.seg + i)))[0]

/-- The k-th chain value of H' (k from 0): V1 and then its repeated hash (R181). -/
def chainValue (t : Nat) (a : List Byte) : Nat → List Byte
  | 0 => blake2b 64 (le32 t ++ a) []
  | k + 1 => blake2b 64 (chainValue t a k) []

/-- Run `n` A2.SLICE commands one after the other (R190). -/
def slices : Nat → State → Host.Outcome State Fault Refusal
  | 0, s => .next s
  | n + 1, s =>
    match exec .a2Slice s with
    | .next t => slices n t
    | .fault r => .fault r
    | .refused r => .refused r

/-- The stepwise run of R190: A2.H0, A2.INIT, A2.SLICE 4·t times, A2.FINAL; `t` is A2_T. -/
def stepwiseRun (s : State) : Host.Outcome State Fault Refusal :=
  match exec .a2H0 s with
  | .next s1 =>
    match exec .a2Init s1 with
    | .next s2 =>
      match slices (4 * s.a2.t.toNat) s2 with
      | .next s3 => exec .a2Final s3
      | .fault r => .fault r
      | .refused r => .refused r
    | .fault r => .fault r
    | .refused r => .refused r
  | .fault r => .fault r
  | .refused r => .refused r

/-- The allowed changes of A2ST (the table of R59). -/
def transition (i : Instr) (a b : A2St) : Prop :=
  (i = .a2H0 ∧ (a = .unconfigured ∨ a = .finalized) ∧ b = .seedDerived) ∨
    (i = .a2Init ∧ a = .seedDerived ∧ b = .initFilled) ∨
    (i = .a2Slice ∧ (a = .initFilled ∨ a = .filling) ∧ (b = .filling ∨ b = .filled)) ∨
    (i = .a2Final ∧ a = .filled ∧ b = .finalized) ∨
    (i = .a2Run ∧ (a = .unconfigured ∨ a = .finalized) ∧ b = .finalized) ∨
    (i = .a2Abort ∧ b = .unconfigured)

/-- The bits of a word its format reserves (R112, R113, R114), for an opcode of the map R117. -/
def reservedBits (w : U32) : Nat :=
  if opcField w = 0x01 ∨ opcField w = 0x05 then w.toNat / 2 ^ 24
  else if opcField w = 0x04 ∨ opcField w = 0x18 then w.toNat / 2 ^ 9
  else w.toNat / 2 ^ 8

/-- The opcodes of the map R117. -/
def opcodes : List Nat :=
  [0x01, 0x02, 0x03, 0x04, 0x05, 0x08, 0x10, 0x11, 0x12, 0x13, 0x14, 0x15, 0x18, 0x20, 0x21, 0x22]

/-- The commands that write registers of the HashState (R160). -/
def writesHash (i : Instr) : Prop :=
  (∃ nn kk, i = .b2bInit nn kk) ∨ i = .b2bUpdate ∨ i = .b2bFinal ∨ ∃ last, i = .b2bCompress last

/-- The HashState `any` with every register that the command does not write taken from `hs` (the "Writes" of
R155..R160).  B2BST, BUFLEN and OUTLEN are one register, B2B_STAT (R45); BUF belongs to BUFLEN (R56, log entry
8). -/
def keptHash (i : Instr) (hs any : HashState) : HashState :=
  match i with
  | .b2bInit _ _ => any
  | .b2bUpdate => any
  | .b2bFinal => any
  | .b2bCompress _ => { h := any.h, t0 := hs.t0, t1 := hs.t1, buf := hs.buf, buflen := hs.buflen,
                        outlen := hs.outlen, st := hs.st }
  | _ => hs

/-- The run registers `any` with every one that the command does not write taken from `r` (the "Writes" of
R206..R211). -/
def keptRun (i : Instr) (r any : RunCtx) : RunCtx :=
  match i with
  | .a2H0 => any
  | .a2Run => any
  | .a2Init => { r with st := any.st }
  | .a2Slice => { r with st := any.st, pass := any.pass, slice := any.slice }
  | .a2Final => { r with st := any.st }
  | _ => r

/-- The offsets of the registers the host can write when idle, whatever the run (R43, R46, R47). -/
def writableOffset (off : Nat) : Prop :=
  off % 4 = 0 ∧ ((0x020 ≤ off ∧ off < 0x060) ∨ (0x100 ≤ off ∧ off < 0x150))

/-- The offsets of the configuration registers (R48). -/
def configOffset (off : Nat) : Prop := off % 4 = 0 ∧ 0x200 ≤ off ∧ off < 0x240

/-- The offsets of the registers whose value is unspecified while a command runs (R52). -/
def unstableOffset (off : Nat) : Prop :=
  off % 4 = 0 ∧ ((0x060 ≤ off ∧ off < 0x070) ∨ off = 0x080 ∨ (0x100 ≤ off ∧ off < 0x150) ∨
    (0x240 ≤ off ∧ off < 0x258) ∨ (0x280 ≤ off ∧ off < 0x2C0))

/-- The offsets of every register of the map R36. -/
def mappedOffset (off : Nat) : Prop :=
  off % 4 = 0 ∧ (off < 0x018 ∨ (0x020 ≤ off ∧ off < 0x070) ∨ off = 0x080 ∨
    (0x100 ≤ off ∧ off < 0x150) ∨ (0x200 ≤ off ∧ off < 0x258) ∨ (0x280 ≤ off ∧ off < 0x2C0))

/-- The offsets of the registers that are read-only (R36). -/
def readOnlyOffset (off : Nat) : Prop :=
  mappedOffset off ∧ off ≠ 0x000 ∧ off ≠ 0x004 ∧ off ≠ 0x008 ∧ ¬writableOffset off ∧ ¬configOffset off

/-- R34: the two halves of a 64-bit register, the low one at the offset itself. -/
def reads64 (s : State) (off : Nat) (x : Word) : Prop := s.readReg (off + 4) ++ s.readReg off = x

/-- R34: a 64-bit register after a write to its low half. -/
def lowWritten (x : Word) (v : U32) : Word := x.extractLsb' 32 32 ++ v

/-- R34: a 64-bit register after a write to its high half. -/
def highWritten (x : Word) (v : U32) : Word := v ++ x.extractLsb' 0 32

/-- R275: the codes of STATUS.ERRCODE. -/
def errorNumber : Option Cause → Nat
  | none => 0
  | some .illegal => 1
  | some .range => 2
  | some .param => 3
  | some .b2bState => 4
  | some .a2State => 5
  | some .alloc => 6

/-- R38: STATUS, field by field. -/
def statusFields (f : Status) (w : U32) : Prop :=
  w.getLsbD 0 = f.busy ∧ w.getLsbD 1 = f.done ∧ w.getLsbD 2 = f.err ∧ w.getLsbD 3 = f.overrun ∧
    w.extractLsb' 4 4 = 0 ∧ w.extractLsb' 8 8 = BitVec.ofNat 8 (errorNumber f.errcode) ∧
    w.extractLsb' 16 16 = 0

/-- R45: B2B_STAT, field by field. -/
def hashFields (hs : HashState) (w : U32) : Prop :=
  w.extractLsb' 0 2 = (match hs.st with | .uninit => 0 | .absorbing => 1 | .finalized => 2) ∧
    w.extractLsb' 2 6 = 0 ∧ (w.extractLsb' 8 8).toNat = hs.buflen ∧
    (w.extractLsb' 16 7).toNat = hs.outlen ∧ w.extractLsb' 23 9 = 0

/-- R49: A2_STAT, field by field. -/
def runFields (st : A2St) (w : U32) : Prop :=
  w.extractLsb' 0 3 =
      (match st with
        | .unconfigured => 0 | .seedDerived => 1 | .initFilled => 2
        | .filling => 3 | .filled => 4 | .finalized => 5) ∧
    w.extractLsb' 3 29 = 0

/-- R37..R42, R48: what the control registers and the configuration registers read as. -/
def controlReads (s : State) : Prop :=
  s.readReg 0x000 = s.cmd ∧ statusFields s.status (s.readReg 0x004) ∧
    (s.readReg 0x008).getLsbD 0 = s.irqEn ∧ (s.readReg 0x008).extractLsb' 1 31 = 0 ∧
    s.readReg 0x00C = s.errcmd ∧ s.readReg 0x010 = 0xB2A20001 ∧
    (s.cfg.wf → (s.readReg 0x014).toNat = s.cfg.dmemSize - 1) ∧
    (∀ n : Fin 8, reads64 s (0x020 + 8 * n.val) s.args[n]) ∧
    s.readReg 0x200 = s.a2.m ∧ s.readReg 0x204 = s.a2.t ∧ s.readReg 0x208 = s.a2.p ∧
    s.readReg 0x20C = s.a2.taglen ∧ s.readReg 0x210 = s.a2.version ∧ s.readReg 0x214 = s.a2.ty ∧
    s.readReg 0x218 = s.a2.pwdAddr ∧ s.readReg 0x21C = s.a2.pwdLen ∧
    s.readReg 0x220 = s.a2.saltAddr ∧ s.readReg 0x224 = s.a2.saltLen ∧
    s.readReg 0x228 = s.a2.secretAddr ∧ s.readReg 0x22C = s.a2.secretLen ∧
    s.readReg 0x230 = s.a2.adAddr ∧ s.readReg 0x234 = s.a2.adLen ∧
    s.readReg 0x238 = s.a2.mbase ∧ s.readReg 0x23C = s.a2.tagAddr

/-- R44..R47, R49, R51: what the state registers read as while no command runs. -/
def stateReads (s : State) : Prop :=
  reads64 s 0x060 s.res0 ∧ reads64 s 0x068 s.res1 ∧
    (hashRange s → hashFields s.hash (s.readReg 0x080)) ∧
    (∀ i : Fin 8, reads64 s (0x100 + 8 * i.val) s.hash.h[i]) ∧
    reads64 s 0x140 s.hash.t0 ∧ reads64 s 0x148 s.hash.t1 ∧
    runFields s.run.st (s.readReg 0x240) ∧ s.readReg 0x244 = s.run.pass ∧
    s.readReg 0x248 = s.run.slice ∧ s.readReg 0x24C = s.run.mprime ∧
    s.readReg 0x250 = s.run.lanelen ∧ s.readReg 0x254 = s.run.seglen ∧
    ∀ k : Fin 16, s.readReg (0x280 + 4 * k.val) = s.run.h0reg[k]

/-- R43, R46, R47, R34: what a write to an operand register or to B2B_H or B2B_T changes when idle: its half
of its register, and nothing else of the machine. -/
def operandWrites (s : State) (v : U32) : Prop :=
  (∀ n : Fin 8,
    s.writeReg (0x020 + 8 * n.val) v = { s with args := s.args.set n (lowWritten s.args[n] v) } ∧
    s.writeReg (0x024 + 8 * n.val) v = { s with args := s.args.set n (highWritten s.args[n] v) }) ∧
  (∀ i : Fin 8,
    s.writeReg (0x100 + 8 * i.val) v =
      { s with hash := { s.hash with h := s.hash.h.set i (lowWritten s.hash.h[i] v) } } ∧
    s.writeReg (0x104 + 8 * i.val) v =
      { s with hash := { s.hash with h := s.hash.h.set i (highWritten s.hash.h[i] v) } }) ∧
  s.writeReg 0x140 v = { s with hash := { s.hash with t0 := lowWritten s.hash.t0 v } } ∧
  s.writeReg 0x144 v = { s with hash := { s.hash with t0 := highWritten s.hash.t0 v } } ∧
  s.writeReg 0x148 v = { s with hash := { s.hash with t1 := lowWritten s.hash.t1 v } } ∧
  s.writeReg 0x14C v = { s with hash := { s.hash with t1 := highWritten s.hash.t1 v } }

/-- R48, R36: what a write to a configuration register changes when idle with no run active: that register,
and nothing else of the machine. -/
def configWrites (s : State) (v : U32) : Prop :=
  s.writeReg 0x200 v = { s with a2 := { s.a2 with m := v } } ∧
  s.writeReg 0x204 v = { s with a2 := { s.a2 with t := v } } ∧
  s.writeReg 0x208 v = { s with a2 := { s.a2 with p := v } } ∧
  s.writeReg 0x20C v = { s with a2 := { s.a2 with taglen := v } } ∧
  s.writeReg 0x210 v = { s with a2 := { s.a2 with version := v } } ∧
  s.writeReg 0x214 v = { s with a2 := { s.a2 with ty := v } } ∧
  s.writeReg 0x218 v = { s with a2 := { s.a2 with pwdAddr := v } } ∧
  s.writeReg 0x21C v = { s with a2 := { s.a2 with pwdLen := v } } ∧
  s.writeReg 0x220 v = { s with a2 := { s.a2 with saltAddr := v } } ∧
  s.writeReg 0x224 v = { s with a2 := { s.a2 with saltLen := v } } ∧
  s.writeReg 0x228 v = { s with a2 := { s.a2 with secretAddr := v } } ∧
  s.writeReg 0x22C v = { s with a2 := { s.a2 with secretLen := v } } ∧
  s.writeReg 0x230 v = { s with a2 := { s.a2 with adAddr := v } } ∧
  s.writeReg 0x234 v = { s with a2 := { s.a2 with adLen := v } } ∧
  s.writeReg 0x238 v = { s with a2 := { s.a2 with mbase := v } } ∧
  s.writeReg 0x23C v = { s with a2 := { s.a2 with tagAddr := v } }

end Sys2Proof.Claims

open Sys2Proof.Claims

/-! ## Encoding -/

/-- R113, R114, R117, R118, R120: the word of a well-formed command decodes to that command, every
immediate at every value its field holds. -/
def Obligations.EncodedCommandDecodesBack : Prop :=
  ∀ i : Instr, i.wf = true → decode (encode i) = .ok i

/-- R117, R118: a word that decodes is the word of the command it decodes to, so a command has one
word and no bit of a word is ignored. -/
def Obligations.DecodedWordEncodesBack : Prop :=
  ∀ (w : U32) (i : Instr), decode w = .ok i → i.wf = true ∧ encode i = w

/-- R118, R119: a reserved opcode is rejected first, then a reserved bit, and every other word is a
command. -/
def Obligations.DecodingIsTotalInOrder : Prop :=
  ∀ w : U32,
    (opcField w ∉ opcodes → decode w = .error .reservedOpcode) ∧
    (opcField w ∈ opcodes → reservedBits w ≠ 0 → decode w = .error .reservedBit) ∧
    (opcField w ∈ opcodes → reservedBits w = 0 → ∃ i, decode w = .ok i)

/-- R112, R113, R114, R117: words written out from the tables. -/
def Obligations.SampleWordsDecode : Prop :=
  decode 0x00004001 = .ok (.b2bInit 64 0) ∧
  decode 0x00402005 = .ok (.b2bHash 32 64) ∧
  decode 0x00000104 = .ok (.b2bCompress true) ∧
  decode 0x00000008 = .ok .b2bLong ∧
  decode 0x00000014 = .ok .a2Run ∧
  decode 0x00000118 = .ok (.a2G true) ∧
  decode 0x00000022 = .ok .a2Index ∧
  decode 0x00000006 = .error .reservedOpcode ∧
  decode 0x00000102 = .error .reservedBit

/-! ## The life of a command -/

/-- R270, R271, R290, R122: when the accepted word decodes and the engine moves, the host polling or not, one
step is the command run to its completion, and so is the step after the host's word was placed; an idle
engine whose host has no access pending, or one that has to wait, stays as it is.  A race on record (R94)
is settled in `RacedCommandLeavesFreeValues`.  These parts are the model's choice (DESIGN CHOICE): which of
the engine and the host moves next, so that the engine moves where the host has no access pending or waits, and
that nothing moves where an idle engine's host does (log entries 6 and 7); the clause on `withFetchWord` (log
entry 11); that execution and completion are one step, which R270 allows (log entry 12). -/
def Obligations.StepRunsTheAcceptedCommand : Prop :=
  (∀ (s : State) (i : Instr), engineNext s → s.raced = false → decode s.cmd = .ok i →
    step s = exec i s) ∧
  (∀ (s : State) (i : Instr) (nbits w : Nat), decodeTableWord nbits w = some i →
    step (s.withFetchWord nbits w) = exec i (s.withFetchWord nbits w)) ∧
  (∀ s : State, nothingMoves s → step s = .next s)

/-- R37, R271: a host write to CMD when idle sets CMD, BUSY = 1, and clears DONE, ERR and ERRCODE, and
nothing else of the engine.  That the host's write is one step, and what the model's own fields inputs, turn,
draws and raced become, is the model's choice (log entries 6, 7 and 8). -/
def Obligations.CmdWriteWhenIdleIsAccepted : Prop :=
  ∀ (s : State) (v : U32) (rest : List HostOp),
    hostNext s (.wr 0x000 v) rest → s.status.busy = false →
    ∃ t, step s = .next t ∧
      t = { s with
        cmd := v
        status := { s.status with busy := true, done := false, err := false, errcode := none }
        raced := false
        inputs := rest, turn := t.turn, draws := s.draws + 1 }

/-- R37, R279: a host write to CMD while BUSY = 1 sets OVERRUN and changes nothing else of the engine.  That
the host may move next, and what the model's own fields inputs, turn and draws become, is the model's choice
(log entries 6 and 7, DESIGN CHOICE). -/
def Obligations.CmdWriteWhileBusyOnlyOverruns : Prop :=
  ∀ (s : State) (v : U32) (rest : List HostOp),
    hostNext s (.wr 0x000 v) rest → s.status.busy = true →
    ∃ t, step s = .next t ∧
      t = { s with
        status := { s.status with overrun := true }
        inputs := rest, turn := t.turn, draws := s.draws + 1 }

/-- R270, R272, R273, R280, R281: every command, in every state, completes in one engine step: BUSY = 0
and DONE = 1, so the interrupt line is high exactly if CTRL.IRQ_EN is set; with ERR = 0, ERRCODE is 0
and ERRCMD is unchanged.  A command is accepted with the line low.  That execution and completion are one step,
which R270 allows, is the model's choice (log entry 12). -/
def Obligations.EveryCommandCompletes : Prop :=
  (∀ (i : Instr) (s : State), ∃ t, exec i s = .next t ∧
    t.status.busy = false ∧ t.status.done = true ∧ t.irq = s.irqEn ∧
    (t.status.err = false → t.status.errcode = none ∧ t.errcmd = s.errcmd)) ∧
  (∀ (s : State) (v : U32), (s.accept v).irq = false)

/-- R274, R278: a command that ends with ERR = 1 has changed nothing but STATUS and ERRCMD, and ERRCMD
holds its word. -/
def Obligations.ErrorsArePrecise : Prop :=
  ∀ (i : Instr) (s t : State), exec i s = .next t → t.status.err = true →
    ∃ e, t.status.errcode = some e ∧ t = failedState s e

/-- R118, R119, R274: an accepted word that does not decode ends with ILLEGAL and no other effect.  When the
engine moves next is the model's choice (log entries 6 and 7). -/
def Obligations.IllegalWordEndsWithIllegal : Prop :=
  ∀ (s : State) (e : Illegal), engineNext s → decode s.cmd = .error e →
    step s = .next (failedState s .illegal)

/-! ## The host's side -/

/-- R301, R36: after reset every register of the map reads as its reset value (ID and DMEM_LAST are
constants, every other register is 0), the hidden buffer is zero, and the interrupt line is low. -/
def Obligations.ResetValuesAreTheSpecs : Prop :=
  ∀ cfg : Config,
    (∀ off, off < 4096 → off % 4 = 0 →
      (State.resetFor cfg).readReg off =
        if off = 0x010 then 0xB2A20001
        else if off = 0x014 then BitVec.ofNat 32 (cfg.dmemSize - 1)
        else 0) ∧
    (State.resetFor cfg).hash.buf = Vector.replicate 128 0 ∧
    (State.resetFor cfg).irq = false

/-- R35, R63: a REG offset with no register reads as zero and ignores writes, and a read-only register
ignores writes. -/
def Obligations.ReservedAndReadOnlyIgnoreWrites : Prop :=
  ∀ (s : State) (off : Nat) (v : U32), off < 4096 → off % 4 = 0 →
    (¬mappedOffset off → s.readReg off = 0 ∧ s.writeReg off v = s) ∧
    (readOnlyOffset off → s.writeReg off v = s)

/-- R53, R54: while BUSY = 1 a write to any register but CMD, STATUS and CTRL is ignored; a write to a
configuration register while a run is active is ignored, busy or not. -/
def Obligations.WritesWhileBusyOrRunningAreIgnored : Prop :=
  ∀ (s : State) (off : Nat) (v : U32), off % 4 = 0 →
    (s.status.busy = true → off ≠ 0x000 → off ≠ 0x004 → off ≠ 0x008 → s.writeReg off v = s) ∧
    (configOffset off → s.run.st.active = true → s.writeReg off v = s)

/-- R63, R34: a write to a writable register when idle stores all 32 bits, and every other register of
the map reads as before; CMD, STATUS and CTRL have their own rules.  R36, R43, R46..R48: which register, and
which half of it, each offset writes.  A host write to any aligned offset of
the window, busy or not, is one step that does what `writeReg` says of that offset and nothing else; the
model's own fields move on (log entries 6 and 7). -/
def Obligations.IdleWriteStoresAllBits : Prop :=
  (∀ (s : State) (off : Nat) (v : U32), s.status.busy = false →
    (writableOffset off ∨ (configOffset off ∧ s.run.st.active = false)) →
    (s.writeReg off v).readReg off = v ∧
      ∀ other, other % 4 = 0 → other ≠ off → (s.writeReg off v).readReg other = s.readReg other) ∧
  (∀ (s : State) (v : U32), s.status.busy = false →
    operandWrites s v ∧ (s.run.st.active = false → configWrites s v)) ∧
  (∀ (s : State) (off : Nat) (v : U32) (rest : List HostOp),
    hostNext s (.wr off v) rest → off % 4 = 0 → off < 4096 →
    ∃ t, step s = .next t ∧
      t = { s.writeReg off v with
        inputs := rest, turn := t.turn, draws := (s.writeReg off v).draws + 1 })

/-- R52: while BUSY = 1 the state registers read as the drawn value, every other register as its
current value.  R36..R51, R34: what each offset of the map reads as, field by field: the control and
configuration registers whether or not a command runs, the state registers when idle.  R88, R93, R122: a host
read of a register or of a byte of DMEM, and the poll or the interrupt that ends a wait, is one step that gives
the host the value and has no side effect; the model's own fields move on (log entries 6 and 7). -/
def Obligations.BusyReadsOfStateRegistersAreDraws : Prop :=
  (∀ (s : State) (off : Nat), s.status.busy = true →
    (unstableOffset off → s.readReg off = Config.anyRegister s.draws) ∧
    (mappedOffset off → ¬unstableOffset off → off ≠ 0x004 →
      s.readReg off = { s with status := { s.status with busy := false } }.readReg off) ∧
    s.readReg 0x004 = s.status.word) ∧
  (∀ s : State, controlReads s ∧ statusFields s.status s.status.word ∧
    (s.status.busy = false → stateReads s)) ∧
  (∀ (s : State) (op : HostOp) (rest : List HostOp) (o : HostObs), hostNext s op rest →
    ((∃ off, op = .rd off ∧ off % 4 = 0 ∧ off < 4096 ∧ o = .reg off (s.readReg off)) ∨
      (∃ a, op = .dr a ∧ a < s.cfg.dmemSize ∧ o = .byte a (s.hostLoad a)) ∨
      (op = .wait ∧ o = .reg 0x004 s.status.word) ∨
      (op = .waitIrq ∧ o = .irq)) →
    ∃ t, step s = .next t ∧
      t = { s with seen := o :: s.seen, inputs := rest, turn := t.turn, draws := s.draws + 1 })

/-- R38: a write to STATUS clears DONE, ERR with ERRCODE, and OVERRUN where it has a 1, busy or not;
nothing else changes. -/
def Obligations.StatusWriteOneToClear : Prop :=
  ∀ (s : State) (v : U32),
    s.writeReg 0x004 v =
      { s with
        status :=
          { busy := s.status.busy
            done := if v.getLsbD 1 then false else s.status.done
            err := if v.getLsbD 2 then false else s.status.err
            overrun := if v.getLsbD 3 then false else s.status.overrun
            errcode := if v.getLsbD 2 then none else s.status.errcode } }

/-- R39, R303: a write to CTRL with bit 1 set gives every register its reset value whatever bit 0 and
whether or not a command runs; DMEM outside the write set of the running command is unchanged.  R39, R281:
with bit 1 clear IRQ_EN takes bit 0, busy or not, nothing else changes, and the interrupt line follows. -/
def Obligations.SoftResetResetsEveryRegister : Prop :=
  (∀ (s : State) (v : U32), v.getLsbD 1 = true → s.dmem.wf →
    (∃ m d, s.writeReg 0x008 v =
      { State.resetFor s.cfg with
        dmem := m, inputs := s.inputs, seen := s.seen, turn := s.turn, draws := d }) ∧
    ∀ a,
      (inRegions s.writing a = true →
        (s.writeReg 0x008 v).dmem.byte a = Config.anyByte s.draws a) ∧
      (inRegions s.writing a = false → (s.writeReg 0x008 v).dmem.byte a = s.dmem.byte a)) ∧
  (∀ (s : State) (v : U32), v.getLsbD 1 = false →
    s.writeReg 0x008 v = { s with irqEn := v.getLsbD 0 } ∧
      (s.writeReg 0x008 v).irq = (v.getLsbD 0 && s.status.done))

/-- R300, R302: a power-on reset gives every register its reset value, and every byte of DMEM the draw
of that power-on.  That a running command is discarded and DMEM drawn anew is DEDUCED (log entry 18); how the
host's list moves on is the model's choice (log entries 6 and 7). -/
def Obligations.PowerOnResetRedrawsDmem : Prop :=
  ∀ (s : State) (rest : List HostOp), hostNext s .powerOn rest →
    ∃ t, step s = .next t ∧
      t = { State.resetFor s.cfg with
        dmem := { epoch := s.dmem.epoch + 1, cells := [] }
        inputs := rest, seen := s.seen, turn := t.turn, draws := t.draws } ∧
      ∀ a, t.dmem.byte a = Config.powerOnByte (s.dmem.epoch + 1) a

/-- R86, R93, R95: a host byte write outside the footprint of a running command stores the byte and
touches no other, and the host reads back what it wrote; the model's own fields move on (log entries 6
and 7).  The footprint of A2.FINAL after a race is the model's choice (log entry 21). -/
def Obligations.HostByteWriteIsReadBack : Prop :=
  ∀ (s : State) (a : Nat) (b : Byte) (rest : List HostOp),
    hostNext s (.dw a b) rest → a < s.cfg.dmemSize → inRegions s.footprint a = false → s.dmem.wf →
    ∃ t, step s = .next t ∧
      t = { s with dmem := t.dmem, inputs := rest, turn := t.turn, draws := s.draws + 1 } ∧
      t.dmem.byte a = b ∧ t.hostLoad a = b ∧ sameBytesOutside s t a 1

/-- R94: a host read of a byte in the running command's write set returns a draw, and one of a byte
outside it the byte; a host write to a byte of the footprint leaves that byte a draw and puts the race
on record.  Such a write is one step, and it touches no other byte and no register; beside the engine only the
model's own fields move on (log entries 6, 7 and 8).  The footprint of A2.FINAL after a race is the model's choice
(log entry 21). -/
def Obligations.HostAccessInFootprintIsARace : Prop :=
  (∀ (s : State) (a : Nat) (b : Byte),
    (inRegions s.writing a = true → s.hostLoad a = Config.anyByte s.draws a) ∧
    (inRegions s.writing a = false → s.hostLoad a = s.dmem.byte a) ∧
    (inRegions s.footprint a = true → s.dmem.wf →
      (s.hostStore a b).raced = true ∧
      (s.hostStore a b).dmem.byte a = Config.anyByte s.draws a ∧
      sameBytesOutside s (s.hostStore a b) a 1)) ∧
  (∀ (s : State) (a : Nat) (b : Byte) (rest : List HostOp),
    hostNext s (.dw a b) rest → a < s.cfg.dmemSize → inRegions s.footprint a = true → s.dmem.wf →
    ∃ t, step s = .next t ∧
      t = { s with dmem := t.dmem, raced := true, inputs := rest, turn := t.turn,
                   draws := s.draws + 1 } ∧
      t.dmem.byte a = Config.anyByte s.draws a ∧ sameBytesOutside s t a 1)

/-- R94: when a raced command completes, every byte of its write set is a draw and no other byte is
touched beyond what the command itself wrote; every register of which R155..R158 and R206..R210 list nothing
under its "Writes" is as the command left it, and nothing is said of the others (B2B_STAT is one register, R45).  That it completes at
all is the model's reading (log entry 8), and when the engine moves next its choice (log entries 6 and 7). -/
def Obligations.RacedCommandLeavesFreeValues : Prop :=
  ∀ (s : State) (i : Instr), engineNext s → s.raced = true → decode s.cmd = .ok i →
    checkOf i s = none → s.dmem.wf →
    ∃ t u, exec i s = .next u ∧ step s = .next t ∧
      t = { u with dmem := t.dmem, hash := t.hash, run := t.run, raced := false,
                   draws := s.draws + 1 } ∧
      t.hash = keptHash i u.hash t.hash ∧ t.run = keptRun i u.run t.run ∧
      (∀ a, inRegions (writeSet i s) a = true → t.dmem.byte a = Config.anyByte s.draws a) ∧
      (∀ a, inRegions (writeSet i s) a = false → t.dmem.byte a = u.dmem.byte a)

/-- R87, R80: a REG access that is not a whole aligned register of the window is refused, and a DMEM
access at an address that does not exist faults.  R87 gives the refusal of a wrong width or alignment;
the stops past the end of the window and of DMEM are the model's choice (log entry 13). -/
def Obligations.AccessesOutsideTheInterfaceStop : Prop :=
  ∀ (s : State) (rest : List HostOp) (off bytes a : Nat) (v : U32) (b : Byte),
    (hostNext s (.wr off v) rest → (off % 4 ≠ 0 ∨ 4096 ≤ off) →
      step s = .refused .regAccessOutsideInterface) ∧
    (hostNext s (.rd off) rest → (off % 4 ≠ 0 ∨ 4096 ≤ off) →
      step s = .refused .regAccessOutsideInterface) ∧
    (hostNext s (.regOdd off bytes) rest → step s = .refused .regAccessOutsideInterface) ∧
    (hostNext s (.dw a b) rest → s.cfg.dmemSize ≤ a → step s = .fault .dmemAddressAbsent) ∧
    (hostNext s (.dr a) rest → s.cfg.dmemSize ≤ a → step s = .fault .dmemAddressAbsent)

/-! ## When a command ends in error -/

/-- R276, R277, R155..R159, R184: the causes of the hash commands, in their order. -/
def Obligations.HashCommandErrors : Prop :=
  ∀ (s : State) (nn kk : Nat) (last : Bool),
    ((nn < 1 ∨ nn > 64 ∨ kk > 64) →
      endsWith (.b2bInit nn kk) s .param ∧ endsWith (.b2bHash nn kk) s .param) ∧
    (¬(nn < 1 ∨ nn > 64 ∨ kk > 64) →
      (¬fits s (s.argLo 0) kk → endsWith (.b2bInit nn kk) s .range) ∧
      (¬(fits s (s.argLo 0) (s.argLo 1) ∧ fits s (s.argLo 3) kk ∧ fits s (s.argLo 2) nn) →
        endsWith (.b2bHash nn kk) s .range)) ∧
    (s.hash.st ≠ .absorbing → endsWith .b2bUpdate s .b2bState ∧ endsWith .b2bFinal s .b2bState) ∧
    (s.hash.st = .absorbing →
      (¬fits s (s.argLo 0) (s.argLo 1) → endsWith .b2bUpdate s .range) ∧
      (¬fits s (s.argLo 2) s.hash.outlen → endsWith .b2bFinal s .range)) ∧
    (¬fits s (s.argLo 0) 128 → endsWith (.b2bCompress last) s .range) ∧
    (s.argLo 3 = 0 → endsWith .b2bLong s .param) ∧
    (s.argLo 3 ≠ 0 → ¬(fits s (s.argLo 0) (s.argLo 1) ∧ fits s (s.argLo 2) (s.argLo 3)) →
      endsWith .b2bLong s .range)

/-- R201, R202, R206, R210, R276, R277: the causes of A2.H0 and A2.RUN, in their order: state, PARAM,
RANGE, ALLOC. -/
def Obligations.RunStartErrors : Prop :=
  ∀ (s : State) (i : Instr), (i = .a2H0 ∨ i = .a2Run) →
    let bad := s.a2.t.toNat < 1 ∨ s.a2.p.toNat < 1 ∨ s.a2.ty.toNat > 2 ∨ s.a2.taglen.toNat < 1 ∨
      s.a2.m.toNat < 8 * s.a2.p.toNat
    let inputs := fits s s.a2.pwdAddr.toNat s.a2.pwdLen.toNat ∧
      fits s s.a2.saltAddr.toNat s.a2.saltLen.toNat ∧
      fits s s.a2.secretAddr.toNat s.a2.secretLen.toNat ∧
      fits s s.a2.adAddr.toNat s.a2.adLen.toNat ∧ fits s s.a2.tagAddr.toNat s.a2.taglen.toNat
    let matrix := fits s s.a2.mbase.toNat
      (s.a2.p.toNat * (4 * (s.a2.m.toNat / (4 * s.a2.p.toNat))) * 1024)
    (s.run.st.active = true → endsWith i s .a2State) ∧
    (s.run.st.active = false →
      (bad → endsWith i s .param) ∧
      (¬bad → ¬inputs → endsWith i s .range) ∧
      (¬bad → inputs → ¬matrix → endsWith i s .alloc))

/-- R207, R208, R209, R212, R252, R253, R254, R276, R277: the causes of A2.INIT, A2.SLICE, A2.FINAL, A2.G
and the addressing commands, in their order.  In FINALIZED the PARAM checks of A2.ADDR and A2.INDEX take A2_T
and A2_P as they are now, which the host may have changed since the run: R253 says so of A2.ADDR's A2_T; for
A2_P, and for A2.INDEX, on which R254 is silent, it is DEDUCED (log entry 17). -/
def Obligations.FillAndAddressingErrors : Prop :=
  ∀ (s : State) (xor : Bool),
    let badAddr := s.argLo 0 ≥ s.a2.t.toNat ∨ s.argLo 1 ≥ s.a2.p.toNat ∨ s.argLo 2 > 3
    let badIndex := s.argLo 1 ≥ s.a2.t.toNat ∨ s.argLo 2 > 3 ∨ s.argLo 3 ≥ s.a2.p.toNat ∨
      s.argLo 4 ≥ s.run.seglen.toNat ∨ (s.argLo 1 = 0 ∧ s.argLo 2 = 0 ∧ s.argLo 4 < 2)
    (s.run.st ≠ .seedDerived → endsWith .a2Init s .a2State) ∧
    (s.run.st ≠ .initFilled → s.run.st ≠ .filling → endsWith .a2Slice s .a2State) ∧
    (s.run.st ≠ .filled → endsWith .a2Final s .a2State) ∧
    (¬(fits s (s.argLo 0) 1024 ∧ fits s (s.argLo 1) 1024 ∧ fits s (s.argLo 2) 1024) →
      endsWith (.a2G xor) s .range) ∧
    ((s.argLo 0 > 2 ∨ s.argLo 2 > 3) → endsWith .a2Mode s .param) ∧
    (s.run.st = .unconfigured → endsWith .a2Addr s .a2State ∧ endsWith .a2Index s .a2State) ∧
    (s.run.st ≠ .unconfigured →
      (badAddr → endsWith .a2Addr s .param) ∧
      (¬badAddr → ¬fits s (s.argLo 4) 1024 → endsWith .a2Addr s .range) ∧
      (badIndex → endsWith .a2Index s .param))

/-! ## What each command does -/

/-- R147, R148, R155: B2B.INIT begins a hash, and changes nothing else. -/
def Obligations.B2bInitBeginsAHash : Prop :=
  ∀ (s : State) (nn kk : Nat), 1 ≤ nn → nn ≤ 64 → kk ≤ 64 → fits s (s.argLo 0) kk →
    ∃ t, exec (.b2bInit nn kk) s = .next t ∧
      t = { s with
        status := doneStatus s.status
        hash := { h := t.hash.h, t0 := 0, t1 := 0, buf := t.hash.buf,
                  buflen := if kk = 0 then 0 else 128, outlen := nn, st := .absorbing } } ∧
      t.hash.h[0] = iv[0] ^^^ 0x01010000 ^^^ (BitVec.ofNat 64 kk <<< 8) ^^^ BitVec.ofNat 64 nn ∧
      (∀ i : Fin 8, i ≠ 0 → t.hash.h[i] = iv[i]) ∧
      (kk ≠ 0 → t.hash.buf.toList = s.dmem.read (s.argLo 0) kk ++ zeros (128 - kk))

/-- R149, R156: B2B.UPDATE absorbs the region byte by byte, and changes nothing but h, t, BUF and
BUFLEN; an empty region changes nothing. -/
def Obligations.B2bUpdateAbsorbsTheRegion : Prop :=
  ∀ s : State, s.hash.st = .absorbing → fits s (s.argLo 0) (s.argLo 1) →
    ∃ t, exec .b2bUpdate s = .next t ∧
      t = { s with
        status := doneStatus s.status
        hash := { s.hash with h := t.hash.h, t0 := t.hash.t0, t1 := t.hash.t1, buf := t.hash.buf,
                              buflen := t.hash.buflen } } ∧
      t.hash = (s.dmem.read (s.argLo 0) (s.argLo 1)).foldl HashState.absorbByte s.hash ∧
      (s.argLo 1 = 0 → t.hash = s.hash)

/-- R149: one byte of Absorb.  With room the byte goes to BUF[BUFLEN] and nothing is compressed; a full
buffer is first counted and compressed, not as the last block.  That the bytes of BUF past BUFLEN, which R56
leaves open, stay is the model's reading (log entry 15). -/
def Obligations.AbsorbingOneByte : Prop :=
  ∀ (hs : HashState) (x : Byte),
    (∀ h : hs.buflen < 128, hs.absorbByte x =
      { hs with buf := hs.buf.set hs.buflen x h, buflen := hs.buflen + 1 }) ∧
    (hs.buflen = 128 →
      (hs.absorbByte x).t = hs.t + 128 ∧
      (hs.absorbByte x).h = compress hs.h hs.buf.toList (hs.t + 128) false ∧
      (hs.absorbByte x).buflen = 1 ∧ (hs.absorbByte x).buf = hs.buf.set 0 x ∧
      (hs.absorbByte x).outlen = hs.outlen ∧ (hs.absorbByte x).st = hs.st)

/-- R151, R157: B2B.FINAL compresses what is buffered, zero-padded and counted, as the last block,
writes the first OUTLEN bytes of the little-endian state at ARG2, and touches no other byte; of the
HashState, BUF and OUTLEN stay; that BUF stays, which R56 leaves open once BUFLEN = 0, is the model's reading
of R157 (log entry 15). -/
def Obligations.B2bFinalWritesTheDigest : Prop :=
  ∀ s : State, s.hash.st = .absorbing → fits s (s.argLo 2) s.hash.outlen → hashRange s → s.dmem.wf →
    ∃ t, exec .b2bFinal s = .next t ∧
      t = { s with
        status := doneStatus s.status
        hash := { s.hash with h := t.hash.h, t0 := t.hash.t0, t1 := t.hash.t1, buflen := 0,
                              st := .finalized }
        dmem := t.dmem } ∧
      t.hash.t = s.hash.t + BitVec.ofNat 128 s.hash.buflen ∧
      t.hash.h = compress s.hash.h
        (s.hash.buf.toList.take s.hash.buflen ++ zeros (128 - s.hash.buflen)) t.hash.t true ∧
      t.dmem.read (s.argLo 2) s.hash.outlen = (t.hash.h.toList.flatMap le64).take s.hash.outlen ∧
      sameBytesOutside s t (s.argLo 2) s.hash.outlen

/-- R158: B2B.COMPRESS applies F to B2B_H with B2B_T and the flag, in every B2BST, and writes B2B_H
only. -/
def Obligations.B2bCompressAppliesF : Prop :=
  ∀ (s : State) (last : Bool), fits s (s.argLo 0) 128 →
    exec (.b2bCompress last) s = .next
      { s with
        status := doneStatus s.status
        hash := { s.hash with
          h := compress s.hash.h (s.dmem.read (s.argLo 0) 128) s.hash.t last } }

/-- R159, R62, R91: B2B.HASH writes the digest of the data under the key, all inputs read first, and
leaves every register but STATUS, the visible HashState among them, and every other byte.  R150: it leaves in
DMEM what B2B.INIT with that key, B2B.UPDATE with that data and B2B.FINAL leave there. -/
def Obligations.B2bHashWritesTheDigest : Prop :=
  ∀ (s : State) (nn kk : Nat), 1 ≤ nn → nn ≤ 64 → kk ≤ 64 → fits s (s.argLo 0) (s.argLo 1) →
    fits s (s.argLo 3) kk → fits s (s.argLo 2) nn → s.dmem.wf →
    ∃ t, exec (.b2bHash nn kk) s = .next t ∧
      t = { s with status := doneStatus s.status, dmem := t.dmem } ∧
      t.dmem.read (s.argLo 2) nn =
        blake2b nn (s.dmem.read (s.argLo 0) (s.argLo 1)) (s.dmem.read (s.argLo 3) kk) ∧
      sameBytesOutside s t (s.argLo 2) nn ∧
      ∃ u v w : State,
        exec (.b2bInit nn kk) { s with args := s.args.set 0 (s.arg 3) } = .next u ∧
        exec .b2bUpdate { u with args := s.args } = .next v ∧ exec .b2bFinal v = .next w ∧
        w.dmem = t.dmem

/-- R181, R184, R62, R91: B2B.LONG writes the T bytes of H' of the data, and leaves every register but
STATUS and every other byte. -/
def Obligations.B2bLongWritesHPrime : Prop :=
  ∀ s : State, s.argLo 3 ≠ 0 → fits s (s.argLo 0) (s.argLo 1) → fits s (s.argLo 2) (s.argLo 3) →
    s.dmem.wf →
    ∃ t, exec .b2bLong s = .next t ∧
      t = { s with status := doneStatus s.status, dmem := t.dmem } ∧
      t.dmem.read (s.argLo 2) (s.argLo 3) =
        hPrime (s.argLo 3) (s.dmem.read (s.argLo 0) (s.argLo 1)) ∧
      sameBytesOutside s t (s.argLo 2) (s.argLo 3)

/-- R192, R193, R206, R51: A2.H0 derives the sizes and the seed, and changes no DMEM and no register
but STATUS and those of the run. -/
def Obligations.A2H0DerivesTheSeed : Prop :=
  ∀ s : State, s.run.st.active = false → configOk s →
    ∃ t, exec .a2H0 s = .next t ∧
      t = { s with status := doneStatus s.status, run := t.run } ∧
      t.run.st = .seedDerived ∧ t.run.pass = 0 ∧ t.run.slice = 0 ∧ sized t ∧
      ∀ k : Fin 16, t.run.h0reg[k] = BitVec.ofNat 32 (ofLE (slice
        (blake2b 64
          (le32 s.a2.p.toNat ++ le32 s.a2.taglen.toNat ++ le32 s.a2.m.toNat ++ le32 s.a2.t.toNat ++
            le32 s.a2.version.toNat ++ le32 s.a2.ty.toNat ++
            le32 s.a2.pwdLen.toNat ++ s.dmem.read s.a2.pwdAddr.toNat s.a2.pwdLen.toNat ++
            le32 s.a2.saltLen.toNat ++ s.dmem.read s.a2.saltAddr.toNat s.a2.saltLen.toNat ++
            le32 s.a2.secretLen.toNat ++ s.dmem.read s.a2.secretAddr.toNat s.a2.secretLen.toNat ++
            le32 s.a2.adLen.toNat ++ s.dmem.read s.a2.adAddr.toNat s.a2.adLen.toNat) [])
        (4 * k.val) 4))

/-- R194, R207, R90: A2.INIT writes columns 0 and 1 of every lane from the seed, and changes no other
byte and no register but STATUS and A2ST. -/
def Obligations.A2InitWritesTheInitialBlocks : Prop :=
  ∀ s : State, s.run.st = .seedDerived → s.dmem.wf → matrixOk s →
    ∃ t, exec .a2Init s = .next t ∧
      t = { s with status := doneStatus s.status, run := { s.run with st := .initFilled },
                   dmem := t.dmem } ∧
      (∀ l c, l < s.a2.p.toNat → c < 2 →
        t.dmem.read (s.a2.mbase.toNat + (l * s.run.lanelen.toNat + c) * 1024) 1024 =
          hPrime 1024 (s.run.h0reg.toList.flatMap (fun w => le32 w.toNat) ++ le32 c ++ le32 l)) ∧
      (∀ x, (∀ l, l < s.a2.p.toNat →
          x < s.a2.mbase.toNat + l * s.run.lanelen.toNat * 1024 ∨
            s.a2.mbase.toNat + (l * s.run.lanelen.toNat + 2) * 1024 ≤ x) →
        t.dmem.byte x = s.dmem.byte x)

/-- R208, R59: A2.SLICE advances the pass and the slice, moves to FILLED exactly when the last slice of
the last pass is done, and changes no byte outside the columns it fills and no other register but STATUS:
those of the slice, without columns 0 and 1 in slice (0, 0), which keep the initial blocks.  The counter of
drawings is the model's own; it moves only where a race has left run registers that name no matrix (log
entry 21). -/
def Obligations.A2SliceAdvancesTheRun : Prop :=
  ∀ s : State, (s.run.st = .initFilled ∨ s.run.st = .filling) → s.dmem.wf →
    ∃ t, exec .a2Slice s = .next t ∧
      t = { s with
        status := doneStatus s.status
        run := { s.run with
          st := if (if s.run.slice = 3 then s.run.pass + 1 else s.run.pass) = s.a2.t then .filled
                else .filling
          pass := if s.run.slice = 3 then s.run.pass + 1 else s.run.pass
          slice := if s.run.slice = 3 then 0 else s.run.slice + 1 }
        dmem := t.dmem
        draws := t.draws } ∧
      (matrixOk s → s.run.slice.toNat ≤ 3 → t.draws = s.draws) ∧
      (let start := if s.run.pass = 0 ∧ s.run.slice = 0 then 2 else 0
       ∀ x, (∀ l, l < s.a2.p.toNat →
          x < blkAddr s.job l (s.run.slice.toNat * s.job.seg + start) ∨
            blkAddr s.job l (s.run.slice.toNat * s.job.seg + s.job.seg) ≤ x) →
        t.dmem.byte x = s.dmem.byte x)

/-- R199, R200, R203, R215, R244..R251: after A2.SLICE every block of the slice is what FillSegment gives
it: G of its predecessor and its reference, XORed into its old content on later passes.  That both may be
read as they stand when the slice is done, with no order of the loops, is an inference (R214, R215). -/
def Obligations.A2SliceMeetsTheFillEquation : Prop :=
  ∀ s : State, (s.run.st = .initFilled ∨ s.run.st = .filling) → s.dmem.wf → matrixOk s →
    s.run.slice.toNat ≤ 3 → 1 ≤ s.cfg.laneWorkers →
    ∃ t, exec .a2Slice s = .next t ∧
      ∀ l i, l < s.a2.p.toNat → i < s.job.seg →
        (s.run.pass.toNat = 0 ∧ s.run.slice.toNat = 0 → 2 ≤ i) →
        let j := s.job
        let r := s.run.pass.toNat
        let c := s.run.slice.toNat * j.seg + i
        let w := selectorWord j t.dmem r s.run.slice.toNat l i
        let rl := refLane j.p r s.run.slice.toNat l (selJ2 w)
        let rc := refCol j.q j.seg r s.run.slice.toNat i (selJ1 w) (rl = l)
        let n := blockG (blk j t.dmem l (prevCol j.q c)) (blk j t.dmem rl rc)
        blk j t.dmem l c = if r = 0 then n else (blk j s.dmem l c).xor n

/-- R204, R209, R100: A2.FINAL writes the tag of the XOR of the last column, and changes no other byte
and no register but STATUS and A2ST. -/
def Obligations.A2FinalWritesTheTag : Prop :=
  ∀ s : State, s.run.st = .filled → s.dmem.wf → matrixOk s →
    fits s s.a2.tagAddr.toNat s.a2.taglen.toNat →
    ∃ (t : State) (col : Block), exec .a2Final s = .next t ∧
      t = { s with status := doneStatus s.status, run := { s.run with st := .finalized },
                   dmem := t.dmem } ∧
      (∀ k : Fin 128, col[k] =
        (List.range s.a2.p.toNat).foldl
          (fun x l => x ^^^ (blk s.job s.dmem l (s.job.q - 1))[k]) 0) ∧
      t.dmem.read s.a2.tagAddr.toNat s.a2.taglen.toNat =
        hPrime s.a2.taglen.toNat col.bytes ∧
      sameBytesOutside s t s.a2.tagAddr.toNat s.a2.taglen.toNat

/-- R190, R210: A2.RUN completes when its checks pass, and its end state is that of the stepwise run
issued from the same start: A2ST = FINALIZED, A2_PASS = t, A2_SLICE = 0. -/
def Obligations.A2RunIsTheStepwiseRun : Prop :=
  ∀ s : State, s.run.st.active = false → configOk s →
    ∃ t, exec .a2Run s = .next t ∧ stepwiseRun s = .next t ∧
      t = { s with status := doneStatus s.status, run := t.run, dmem := t.dmem } ∧
      t.run.st = .finalized ∧ t.run.pass = s.a2.t ∧ t.run.slice = 0 ∧ sized t

/-- R211: A2.ABORT clears the run registers in every A2ST, and changes nothing else but STATUS. -/
def Obligations.A2AbortClearsTheRun : Prop :=
  ∀ s : State, exec .a2Abort s = .next
    { s with
      status := doneStatus s.status
      run := { st := .unconfigured, pass := 0, slice := 0, mprime := 0, lanelen := 0, seglen := 0,
               h0reg := Vector.replicate 16 0 } }

/-- R212, R91: A2.G writes G of the two blocks, XORed into the old destination with XOR = 1, all inputs
read first, and changes no other byte and no register but STATUS. -/
def Obligations.A2GWritesTheCompression : Prop :=
  ∀ (s : State) (xor : Bool), fits s (s.argLo 0) 1024 → fits s (s.argLo 1) 1024 →
    fits s (s.argLo 2) 1024 → s.dmem.wf →
    ∃ t, exec (.a2G xor) s = .next t ∧
      t = { s with status := doneStatus s.status, dmem := t.dmem } ∧
      (let n := blockG (s.dmem.block (s.argLo 0)) (s.dmem.block (s.argLo 1))
       t.dmem.block (s.argLo 2) = if xor then (s.dmem.block (s.argLo 2)).xor n else n) ∧
      sameBytesOutside s t (s.argLo 2) 1024

/-- R241, R252: A2.MODE gives the mode predicate in RES0 and 0 in RES1, and changes nothing else but
STATUS. -/
def Obligations.A2ModeGivesThePredicate : Prop :=
  ∀ s : State, s.argLo 0 ≤ 2 → s.argLo 2 ≤ 3 →
    exec .a2Mode s = .next
      { s with
        status := doneStatus s.status
        res0 := if s.argLo 0 = 1 ∨ (s.argLo 0 = 2 ∧ s.argLo 1 = 0 ∧ s.argLo 2 < 2) then 1 else 0
        res1 := 0 }

/-- R250, R253: A2.ADDR writes G(ZERO, G(ZERO, In)) of the position block, and changes no other byte and
no register but STATUS.  In FINALIZED A2_T and A2_TYPE are those of now, as R253 says; that A2_P is too is
DEDUCED (log entry 17). -/
def Obligations.A2AddrWritesTheAddressBlock : Prop :=
  ∀ s : State, s.run.st ≠ .unconfigured → s.argLo 0 < s.a2.t.toNat → s.argLo 1 < s.a2.p.toNat →
    s.argLo 2 ≤ 3 → fits s (s.argLo 4) 1024 → s.dmem.wf →
    ∃ (t : State) (input : Block), exec .a2Addr s = .next t ∧
      t = { s with status := doneStatus s.status, dmem := t.dmem } ∧
      input[0] = BitVec.ofNat 64 (s.argLo 0) ∧ input[1] = BitVec.ofNat 64 (s.argLo 1) ∧
      input[2] = BitVec.ofNat 64 (s.argLo 2) ∧ input[3] = s.run.mprime.setWidth 64 ∧
      input[4] = s.a2.t.setWidth 64 ∧ input[5] = s.a2.ty.setWidth 64 ∧ input[6] = s.arg 3 ∧
      (∀ k : Fin 128, 7 ≤ k.val → input[k] = 0) ∧
      t.dmem.block (s.argLo 4) = blockG Block.zero (blockG Block.zero input) ∧
      sameBytesOutside s t (s.argLo 4) 1024

/-- R243, R245..R249, R254: A2.INDEX gives the reference lane and column in RES0 and RES1, and changes
nothing else but STATUS.  The column is computed on integers, so nothing is cut off at zero, wherever R246
gives an area and a lane has blocks; only a race leaves other sizes (log entry 14).  In FINALIZED the checks
and the lane take A2_T and A2_P as they are now, which the host may have changed since the run; R254 is silent
on it and this is DEDUCED from R253 (log entry 17). -/
def Obligations.A2IndexGivesTheReference : Prop :=
  ∀ s : State, s.run.st ≠ .unconfigured → s.argLo 1 < s.a2.t.toNat → s.argLo 2 ≤ 3 →
    s.argLo 3 < s.a2.p.toNat → s.argLo 4 < s.run.seglen.toNat →
    ¬(s.argLo 1 = 0 ∧ s.argLo 2 = 0 ∧ s.argLo 4 < 2) →
    ∃ t, exec .a2Index s = .next t ∧
      t = { s with status := doneStatus s.status, res0 := t.res0, res1 := t.res1 } ∧
      (let q : Int := s.run.lanelen.toNat
       let seg : Int := s.run.seglen.toNat
       let r := s.argLo 1
       let sl := s.argLo 2
       let l := s.argLo 3
       let i := s.argLo 4
       let j1 : Int := (s.arg 0).toNat % 2 ^ 32
       let rl := if r = 0 ∧ sl = 0 then l else (s.arg 0).toNat / 2 ^ 32 % s.a2.p.toNat
       let last : Int := if i = 0 then 1 else 0
       let area : Int :=
         if r = 0 then
           if sl = 0 then i - 1
           else if rl = l then sl * seg + i - 1 else sl * seg - last
         else if rl = l then q - seg + i - 1 else q - seg - last
       let start : Int := if r = 0 ∨ sl = 3 then 0 else (sl + 1) * seg
       let rel : Int := area - 1 - area * (j1 * j1 / 2 ^ 32) / 2 ^ 32
       t.res0.toNat = rl ∧
       (0 < area → 0 < q → (t.res1.toNat : Int) = (start + rel) % q))

/-! ## What no command does -/

/-- R160, R62, R44: only B2B.INIT, B2B.UPDATE, B2B.FINAL and B2B.COMPRESS change the visible HashState;
only A2.MODE and A2.INDEX change RES0 and RES1, and only when they complete without error. -/
def Obligations.OnlyTheirCommandsChangeHashAndResults : Prop :=
  ∀ (i : Instr) (s t : State), exec i s = .next t →
    (t.hash ≠ s.hash → writesHash i) ∧
    ((t.res0 ≠ s.res0 ∨ t.res1 ≠ s.res1) → (i = .a2Mode ∨ i = .a2Index) ∧ t.status.err = false)

/-- R43, R48, R52: no command changes an ARG register, a configuration register, CMD, CTRL, OVERRUN or
the parameters. -/
def Obligations.NoCommandChangesItsOperands : Prop :=
  ∀ (i : Instr) (s t : State), exec i s = .next t →
    t.args = s.args ∧ t.a2 = s.a2 ∧ t.cmd = s.cmd ∧ t.irqEn = s.irqEn ∧ t.cfg = s.cfg ∧
      t.status.overrun = s.status.overrun

/-- R59: A2ST changes only as the table of R59 lists. -/
def Obligations.RunStateFollowsItsTable : Prop :=
  ∀ (i : Instr) (s t : State), exec i s = .next t → t.run.st ≠ s.run.st →
    transition i s.run.st t.run.st

/-- R92, R93: a command changes no byte of DMEM outside its write set. -/
def Obligations.CommandWritesOnlyItsWriteSet : Prop :=
  ∀ (i : Instr) (s t : State) (a : Nat), s.dmem.wf → exec i s = .next t →
    inRegions (writeSet i s) a = false → t.dmem.byte a = s.dmem.byte a

/-! ## Invariants -/

/-- R50: every step keeps BUFLEN and OUTLEN within their widths.  R57, R45: every step keeps the limits of the
HashState, unless the command it completes has raced with the host: then R94 leaves any values (log
entry 8). -/
def Obligations.StepKeepsTheHashLimits : Prop :=
  (∀ s t : State, hashRange s → step s = .next t → hashRange t) ∧
  (∀ s t : State, hashOk s → s.raced = false → step s = .next t → hashOk t)

/-- R54, R201, R202: every step keeps the configuration of an active run one that was accepted.  R49, R59,
R192: every step keeps the run registers within what their run state allows, unless the command it completes
has raced with the host: then R94 leaves any values (log entry 8). -/
def Obligations.StepKeepsTheRunLimits : Prop :=
  (∀ s t : State, acceptedConfig s → step s = .next t → acceptedConfig t) ∧
  (∀ s t : State, runOk s → s.raced = false → step s = .next t → runOk t)

/-- R80, R89: every step keeps DMEM canonical (the form is the model's own, log entry 5) and inside its
size, also where a race (R94) has left run registers that name no matrix in DMEM (log entry 21). -/
def Obligations.StepKeepsDmemCanonical : Prop :=
  ∀ s t : State, dmemOk s → step s = .next t → dmemOk t

/-- R38, R64, R94: every step keeps the flags consistent, and a race on record (the model's own field, log
entry 8) belongs to a running command. -/
def Obligations.StepKeepsTheFlagsConsistent : Prop :=
  ∀ s t : State, statusOk s → step s = .next t → statusOk t

/-- The reset state meets every invariant, for every parameters. -/
def Obligations.ResetMeetsTheInvariants : Prop :=
  ∀ cfg : Config, hashOk (State.resetFor cfg) ∧ runOk (State.resetFor cfg) ∧
    dmemOk (State.resetFor cfg) ∧ statusOk (State.resetFor cfg)

/-! ## The algorithms -/

/-- R153: absorbing a region in two B2B.UPDATE commands leaves the HashState that one command over the
whole region leaves. -/
def Obligations.UpdateInChunksIsOneUpdate : Prop :=
  ∀ (s : State) (a n k : Nat), s.hash.st = .absorbing → a + n + k ≤ s.cfg.dmemSize →
    a + n + k < 2 ^ 32 →
    let place (u : State) (x y : Nat) : State :=
      { u with args := (u.args.set 0 (BitVec.ofNat 64 x)).set 1 (BitVec.ofNat 64 y) }
    ∃ t u v, exec .b2bUpdate (place s a n) = .next t ∧
      exec .b2bUpdate (place t (a + n) k) = .next u ∧
      exec .b2bUpdate (place s a (n + k)) = .next v ∧ u.hash = v.hash

/-- R152, R149, R151: from B2B.INIT on, the counter and BUFLEN add up to the bytes absorbed, the padded
key block as 128; the counter moves by whole blocks until Finalize counts the rest. -/
def Obligations.CounterCountsTheBytesAbsorbed : Prop :=
  ∀ (hs : HashState) (nn : Nat) (key data : List Byte),
    let total := (if key.length = 0 then 0 else 128) + data.length
    let ab := (hs.init nn key).absorb data
    total < 2 ^ 128 →
    ab.t.toNat + ab.buflen = total ∧ ab.t.toNat % 128 = 0 ∧ ab.buflen ≤ 128 ∧
      (0 < total → 0 < ab.buflen) ∧ ab.finalize.t.toNat = total

/-- R182, R183: for T > 64, H' is r = ceil(T/32) - 2 chain values cut to 32 bytes and one final call of
T - 32·r bytes, which lies in 33..64; for T ≤ 64 it is one call, with the same prefix.  That its length
is T for every T is DEDUCED from R181 (T = 0 included, which no command asks for). -/
def Obligations.HPrimeChainLength : Prop :=
  ∀ (t : Nat) (a : List Byte),
    (hPrime t a).length = t ∧
    (t ≤ 64 → hPrime t a = blake2b t (le32 t ++ a) []) ∧
    (t > 64 →
      let r := (t + 31) / 32 - 2
      33 ≤ t - 32 * r ∧ t - 32 * r ≤ 64 ∧ 1 ≤ r ∧
      hPrime t a =
        (List.range r).flatMap (fun k => (chainValue t a k).take 32) ++
          blake2b (t - 32 * r) (chainValue t a (r - 1)) [])

/-- R197: G is symmetric, depends on X ⊕ Y only, and G(X, X) = ZERO. -/
def Obligations.CompressionGProperties : Prop :=
  (∀ x y : Block, blockG x y = blockG y x) ∧
  (∀ x y x' y' : Block, x.xor y = x'.xor y' → blockG x y = blockG x' y') ∧
  (∀ x : Block, blockG x x = Block.zero)

/-- R251: FillSegment's generator gives index i the word i mod 128 of the address block with counter
floor(i / 128) + 1, from the first index the segment computes on. -/
def Obligations.AddressGeneratorClosedForm : Prop :=
  ∀ (j : Job) (r s l n : Nat),
    let start := segStart r s
    let g := (List.range' start (n + 1)).foldl (fun g i => addrNext j r l s i g)
      (addrStart j r l s start)
    let i := start + n
    start + n < 2 ^ 32 →
    g.word i =
      (addrBlock j r l s (BitVec.ofNat 64 (i / 128 + 1)))[i % 128]'(Nat.mod_lt i (by decide))

/-- R246, R247, R249, R255 items 1 to 3: for every position FillSegment visits and every selector, the
area is not empty and the reference is a column of the lane; in the same lane it is neither the block
itself nor its predecessor nor a later block of the segment; in another lane it is outside the current
segment; on pass 0 it has been filled. -/
def Obligations.ReferenceIsAlwaysUsable : Prop :=
  ∀ (q seg r s i j1 : Nat) (same : Bool), 2 ≤ seg → q = 4 * seg → s ≤ 3 → i < seg →
    j1 < 2 ^ 32 → (r = 0 ∧ s = 0 → 2 ≤ i ∧ same = true) →
    let c := s * seg + i
    let rc := refCol q seg r s i j1 same
    1 ≤ refArea q seg r s i same ∧ rc < q ∧
      (same = true → rc ≠ prevCol q c ∧ ¬(c ≤ rc ∧ rc < s * seg + seg)) ∧
      (same = false → ¬(s * seg ≤ rc ∧ rc < s * seg + seg)) ∧
      (r = 0 → rc < c ∧ (same = false → rc < s * seg ∧ (i = 0 → rc ≠ s * seg - 1)))

/-- R213, R214, R288: the lanes of a slice may be filled in any order. -/
def Obligations.LaneOrderDoesNotMatter : Prop :=
  ∀ (j : Job) (r s : Nat) (order : List Nat) (m : Memory), geometry j → s ≤ 3 → m.wf →
    order.Perm (List.range j.p) →
    fillSlice j r s order m = fillSlice j r s (List.range j.p) m

/-- R8, R214, R288: no result of A2.SLICE or A2.RUN depends on LANE_WORKERS. -/
def Obligations.WorkersDoNotMatter : Prop :=
  ∀ (i : Instr) (s t : State) (w : Nat), runOk s → s.dmem.wf → 1 ≤ w → 1 ≤ s.cfg.laneWorkers →
    (i = .a2Slice ∨ i = .a2Run) → exec i s = .next t →
    exec i { s with cfg := { s.cfg with laneWorkers := w } } =
      .next { t with cfg := { t.cfg with laneWorkers := w } }
end

