-- ==== Sys2Proof/Laws/Memory.lean ====
section
/-! SUPPORT. What DMEM's operations do: reading after writing, writing elsewhere, the canonical form, and
when two memories are the same. -/

namespace Sys2Proof.Machine

/-- The cells are strictly rising. -/
abbrev Rising (cs : List Host.Cell) : Prop := cs.Pairwise (fun x y => x.1 < y.1)

/-! ## Finding an entry -/

theorem cellsFrom_cellsFrom {a b : Nat} (h : a ≤ b) (cs : List Host.Cell) :
    cellsFrom b (cellsFrom a cs) = cellsFrom b cs := by
  induction cs with
  | nil => rfl
  | cons c cs ih =>
    unfold cellsFrom at *
    by_cases hc : Nat.blt c.1 a
    · have hb : Nat.blt c.1 b := by simp [Nat.blt_eq] at *; omega
      simp [hc, hb, ih]
    · simp [hc]

/-- Reading a region is reading its bytes one by one. -/
theorem readCells_eq (m : Memory) (n : Nat) : ∀ (a : Nat) (cs : List Host.Cell),
    readCells m a n cs = (List.range' a n).map fun x => headByte m x (cellsFrom x cs) := by
  induction n with
  | zero => intro a cs; simp [readCells]
  | succ n ih =>
    intro a cs
    rw [readCells, ih, List.range'_succ, List.map_cons]
    congr 1
    apply List.map_congr_left
    intro x hx
    rw [cellsFrom_cellsFrom]
    simp [List.mem_range'_1] at hx
    omega

theorem Memory.read_eq_map (m : Memory) (a n : Nat) :
    m.read a n = (List.range' a n).map m.byte := readCells_eq m n a m.cells

@[simp] theorem Memory.read_length (m : Memory) (a n : Nat) : (m.read a n).length = n := by
  simp [Memory.read_eq_map]

@[simp] theorem Memory.read_zero (m : Memory) (a : Nat) : m.read a 0 = [] := rfl

theorem Memory.read_append (m : Memory) (a n k : Nat) :
    m.read a (n + k) = m.read a n ++ m.read (a + n) k := by
  simp only [Memory.read_eq_map, ← List.map_append, List.range'_append_1]

theorem Memory.read_getElem (m : Memory) (a n i : Nat) (h : i < n) :
    (m.read a n)[i]'(by simpa using h) = m.byte (a + i) := by
  simp [Memory.read_eq_map]

/-- Two memories that agree on the bytes of a region read the same there. -/
theorem Memory.read_congr {m m' : Memory} {a n : Nat}
    (h : ∀ x, a ≤ x → x < a + n → m.byte x = m'.byte x) : m.read a n = m'.read a n := by
  simp only [Memory.read_eq_map]
  apply List.map_congr_left
  intro x hx
  simp [List.mem_range'_1] at hx
  exact h x hx.1 hx.2

/-- The entry of an address, if it is listed. -/
def cellAt (cs : List Host.Cell) (a : Nat) : Option Byte :=
  (cs.find? fun c => c.1 = a).map (·.2)

theorem headByte_cellsFrom (m : Memory) {cs : List Host.Cell} (h : Rising cs) (a : Nat) :
    headByte m a (cellsFrom a cs) = (cellAt cs a).getD (m.blank a) := by
  induction cs with
  | nil => rfl
  | cons c cs ih =>
    rw [Rising, List.pairwise_cons] at h
    by_cases hlt : c.1 < a
    · have hne : ¬ c.1 = a := by omega
      have hb : Nat.blt c.1 a = true := by simpa [Nat.blt_eq] using hlt
      simpa [cellsFrom, List.dropWhile_cons, hb, cellAt, hne] using ih h.2
    · have hb : Nat.blt c.1 a = false := by
        cases hx : Nat.blt c.1 a with
        | false => rfl
        | true => exact absurd (by simpa [Nat.blt_eq] using hx) hlt
      by_cases he : c.1 = a
      · simp [cellsFrom, cellAt, he, headByte]
      · have hnone : cs.find? (fun c => decide (c.1 = a)) = none := by
          rw [List.find?_eq_none]
          intro x hx
          have := h.1 x hx
          simp; omega
        simp [cellsFrom, hb, cellAt, he, headByte, hnone]

/-- The byte at an address of a canonical memory: its entry, or the power-on draw. -/
theorem Memory.byte_eq_cellAt {m : Memory} (h : m.wf) (a : Nat) :
    m.byte a = (cellAt m.cells a).getD (m.blank a) := headByte_cellsFrom m h a

/-! ## Writing -/

@[simp] theorem Memory.write_epoch (m : Memory) (a : Nat) (bs : List Byte) :
    (m.write a bs).epoch = m.epoch := rfl

@[simp] theorem Memory.blank_write (m : Memory) (a x : Nat) (bs : List Byte) :
    (m.write a bs).blank x = m.blank x := rfl

theorem mem_cellsOf {bs : List Byte} : ∀ {a : Nat} {c : Host.Cell}, c ∈ cellsOf a bs →
    a ≤ c.1 ∧ c.1 < a + bs.length := by
  induction bs with
  | nil => intro a c h; simp [cellsOf] at h
  | cons b bs ih =>
    intro a c h
    simp only [cellsOf, List.mem_cons] at h
    rcases h with rfl | h
    · simp
    · have := ih h
      simp; omega

theorem cellsOf_rising (bs : List Byte) : ∀ a, Rising (cellsOf a bs) := by
  induction bs with
  | nil => intro a; simp [cellsOf]
  | cons b bs ih =>
    intro a
    rw [Rising, cellsOf, List.pairwise_cons]
    refine ⟨fun c hc => ?_, ih _⟩
    have := mem_cellsOf hc
    simp; omega

/-- A write keeps the canonical form. -/
theorem Memory.write_wf {m : Memory} (h : m.wf) (a : Nat) (bs : List Byte) : (m.write a bs).wf := by
  unfold Memory.wf Memory.write cellsBelow
  simp only [List.append_assoc]
  rw [List.pairwise_append, List.pairwise_append]
  refine ⟨List.Pairwise.filter _ h, ⟨cellsOf_rising bs a, List.Pairwise.filter _ h, ?_⟩, ?_⟩
  · intro x hx y hy
    have h1 := mem_cellsOf hx
    simp only [List.mem_filter, Nat.ble_eq] at hy
    omega
  · intro x hx y hy
    simp only [List.mem_filter, Nat.blt_eq] at hx
    simp only [List.mem_append, List.mem_filter, Nat.ble_eq] at hy
    rcases hy with hy | hy
    · have := mem_cellsOf hy; omega
    · omega

theorem cellAt_append (xs ys : List Host.Cell) (a : Nat) :
    cellAt (xs ++ ys) a = (cellAt xs a).or (cellAt ys a) := by
  simp only [cellAt, List.find?_append]
  cases xs.find? (fun c => decide (c.1 = a)) <;> simp

theorem cellAt_filter (p : Host.Cell → Bool) (cs : List Host.Cell) (a : Nat)
    (h : ∀ c : Host.Cell, c.1 = a → p c = true) : cellAt (cs.filter p) a = cellAt cs a := by
  induction cs with
  | nil => rfl
  | cons c cs ih =>
    by_cases hp : p c
    · by_cases he : c.1 = a <;> simp_all [cellAt]
    · by_cases he : c.1 = a
      · exact absurd (h c he) hp
      · simp_all [cellAt]

theorem cellAt_filter_none (p : Host.Cell → Bool) (cs : List Host.Cell) (a : Nat)
    (h : ∀ c : Host.Cell, c.1 = a → p c = false) : cellAt (cs.filter p) a = none := by
  have : (cs.filter p).find? (fun c => decide (c.1 = a)) = none := by
    rw [List.find?_eq_none]
    intro x hx
    simp only [List.mem_filter] at hx
    intro he
    have := h x (by simpa using he)
    simp [this] at hx
  simp [cellAt, this]

theorem cellAt_cellsOf (bs : List Byte) : ∀ (a x : Nat),
    cellAt (cellsOf a bs) x = if a ≤ x then bs[x - a]? else none := by
  induction bs with
  | nil => intro a x; simp [cellsOf, cellAt]
  | cons b bs ih =>
    intro a x
    have ih := ih (a + 1) x
    by_cases he : a = x
    · subst he; simp [cellsOf, cellAt]
    · have : cellAt (cellsOf a (b :: bs)) x = cellAt (cellsOf (a + 1) bs) x := by
        simp [cellsOf, cellAt, he]
      rw [this, ih]
      by_cases hle : a + 1 ≤ x
      · have h1 : a ≤ x := by omega
        have h2 : x - a = (x - (a + 1)) + 1 := by omega
        rw [if_pos hle, if_pos h1, h2, List.getElem?_cons_succ]
      · have h1 : ¬ a ≤ x := by omega
        rw [if_neg hle, if_neg h1]

/-- What is listed after a write. -/
theorem cellAt_write (m : Memory) (a : Nat) (bs : List Byte) (x : Nat) :
    cellAt (m.write a bs).cells x
      = if a ≤ x ∧ x < a + bs.length then bs[x - a]? else cellAt m.cells x := by
  unfold Memory.write cellsBelow
  simp only [cellAt_append, cellAt_cellsOf]
  by_cases h1 : x < a
  · rw [cellAt_filter _ _ _ (fun c hc => by simp [Nat.blt_eq]; omega),
      cellAt_filter_none (fun c => Nat.ble (a + bs.length) c.1) _ _
        (fun c hc => by rw [← Bool.not_eq_true]; simp [Nat.ble_eq]; omega)]
    have h2 : ¬ a ≤ x := by omega
    simp [h2]
  · rw [cellAt_filter_none (fun c => Nat.blt c.1 a) _ _
        (fun c hc => by rw [← Bool.not_eq_true]; simp [Nat.blt_eq]; omega)]
    have h2 : a ≤ x := by omega
    by_cases h3 : x < a + bs.length
    · have h4 : x - a < bs.length := by omega
      simp [h2, h3, List.getElem?_eq_getElem h4]
    · rw [cellAt_filter _ _ _ (fun c hc => by simp [Nat.ble_eq]; omega)]
      have h4 : bs.length ≤ x - a := by omega
      simp [h2, h3, List.getElem?_eq_none h4]

/-- A write leaves every byte outside it as it was. -/
theorem Memory.byte_write_outside {m : Memory} (h : m.wf) {a x : Nat} {bs : List Byte}
    (hx : x < a ∨ a + bs.length ≤ x) : (m.write a bs).byte x = m.byte x := by
  rw [Memory.byte_eq_cellAt (Memory.write_wf h a bs), Memory.byte_eq_cellAt h, cellAt_write,
    if_neg (by omega), Memory.blank_write]

/-- A byte inside a write holds the value written. -/
theorem Memory.byte_write_inside {m : Memory} (h : m.wf) {a i : Nat} {bs : List Byte}
    (hi : i < bs.length) : (m.write a bs).byte (a + i) = bs[i] := by
  rw [Memory.byte_eq_cellAt (Memory.write_wf h a bs), cellAt_write, if_pos (by omega)]
  simp [List.getElem?_eq_getElem hi]

/-- Reading where one has just written gives what was written. -/
theorem Memory.read_write_same {m : Memory} (h : m.wf) (a : Nat) (bs : List Byte) :
    (m.write a bs).read a bs.length = bs := by
  apply List.ext_getElem (by simp)
  intro i h1 h2
  rw [Memory.read_getElem _ _ _ _ h2, Memory.byte_write_inside h h2]

/-- Reading a region that a write does not touch. -/
theorem Memory.read_write_disjoint {m : Memory} (h : m.wf) {a b n : Nat} {bs : List Byte}
    (hd : b + n ≤ a ∨ a + bs.length ≤ b) : (m.write a bs).read b n = m.read b n :=
  Memory.read_congr fun x h1 h2 => Memory.byte_write_outside h (by omega)

/-! ## Addresses that exist -/

/-- Every entry is below `size`. -/
def Memory.below (m : Memory) (size : Nat) : Prop := ∀ c ∈ m.cells, c.1 < size

theorem Memory.write_below {m : Memory} {size a : Nat} {bs : List Byte} (h : m.below size)
    (ha : bs.length = 0 ∨ a + bs.length ≤ size) : (m.write a bs).below size := by
  intro c hc
  simp only [Memory.write, cellsBelow, List.mem_append, List.mem_filter] at hc
  rcases hc with (hc | hc) | hc
  · exact h c hc.1
  · have := mem_cellsOf hc; omega
  · exact h c hc.1

/-! ## When two memories are the same -/

theorem cellAt_of_mem {cs : List Host.Cell} (h : Rising cs) {c : Host.Cell} (hc : c ∈ cs) :
    cellAt cs c.1 = some c.2 := by
  induction cs with
  | nil => simp at hc
  | cons d cs ih =>
    rw [Rising, List.pairwise_cons] at h
    rcases List.mem_cons.mp hc with rfl | hc
    · simp [cellAt]
    · have := h.1 c hc
      have hne : ¬ d.1 = c.1 := by omega
      have := ih h.2 hc
      simpa [cellAt, hne] using this

theorem mem_of_cellAt {cs : List Host.Cell} {a : Nat} {b : Byte} (h : cellAt cs a = some b) :
    (a, b) ∈ cs := by
  simp only [cellAt, Option.map_eq_some_iff] at h
  obtain ⟨c, hc, rfl⟩ := h
  have h1 := List.find?_some hc
  have h2 := List.mem_of_find?_eq_some hc
  simp at h1
  subst h1
  exact h2

/-- A canonical memory is determined by what it lists at each address. -/
theorem Memory.ext_cellAt {m m' : Memory} (h : m.wf) (h' : m'.wf) (he : m.epoch = m'.epoch)
    (hc : ∀ a, cellAt m.cells a = cellAt m'.cells a) : m = m' := by
  have key : m.cells = m'.cells := by
    apply List.Perm.eq_of_pairwise' (r := fun x y : Host.Cell => x.1 < y.1)
    · exact h
    · exact h'
    · rw [List.perm_ext_iff_of_nodup]
      · rintro ⟨a, b⟩
        constructor
        · intro hm
          have := cellAt_of_mem h hm
          rw [hc] at this
          exact mem_of_cellAt this
        · intro hm
          have := cellAt_of_mem h' hm
          rw [← hc] at this
          exact mem_of_cellAt this
      · exact h.imp fun hlt he => by subst he; omega
      · exact h'.imp fun hlt he => by subst he; omega
  cases m; cases m'; simp_all

/-- Writes to disjoint regions can be made in either order. -/
theorem Memory.write_comm {m : Memory} (h : m.wf) {a b : Nat} {xs ys : List Byte}
    (hd : a + xs.length ≤ b ∨ b + ys.length ≤ a) :
    (m.write a xs).write b ys = (m.write b ys).write a xs := by
  refine Memory.ext_cellAt (write_wf (write_wf h a xs) b ys) (write_wf (write_wf h b ys) a xs)
    rfl fun x => ?_
  simp only [cellAt_write]
  by_cases h1 : a ≤ x ∧ x < a + xs.length
  · have h2 : ¬ (b ≤ x ∧ x < b + ys.length) := by omega
    simp [h1, h2]
  · simp [h1]

/-- A write and the write that goes on where it ends are one write. -/
theorem Memory.write_append {m : Memory} (h : m.wf) (a : Nat) (xs ys : List Byte) :
    (m.write a xs).write (a + xs.length) ys = m.write a (xs ++ ys) := by
  refine Memory.ext_cellAt (write_wf (write_wf h a xs) _ ys) (write_wf h a _) rfl fun x => ?_
  simp only [cellAt_write, List.length_append]
  by_cases h1 : a + xs.length ≤ x ∧ x < a + xs.length + ys.length
  · rw [if_pos h1, if_pos (by omega), List.getElem?_append_right (by omega)]
    congr 1; omega
  · rw [if_neg h1]
    by_cases h2 : a ≤ x ∧ x < a + xs.length
    · rw [if_pos h2, if_pos (by omega), List.getElem?_append_left (by omega)]
    · rw [if_neg h2, if_neg (by omega)]

/-- Writing nothing. -/
theorem Memory.write_nil {m : Memory} (h : m.wf) (a : Nat) : m.write a [] = m := by
  refine Memory.ext_cellAt (write_wf h a []) h rfl fun x => ?_
  rw [cellAt_write, if_neg (by simp)]

/-- Writes of the same bytes keep two memories alike where they were. -/
theorem Memory.byte_write_congr {m m' : Memory} (h : m.wf) (h' : m'.wf) (a : Nat) (bs : List Byte)
    {x : Nat} (hx : m.byte x = m'.byte x) : (m.write a bs).byte x = (m'.write a bs).byte x := by
  by_cases h1 : a ≤ x ∧ x < a + bs.length
  · have e : a + (x - a) = x := by omega
    have hi : x - a < bs.length := by omega
    have := (byte_write_inside h (a := a) hi).trans (byte_write_inside h' (a := a) hi).symm
    rwa [e] at this
  · rw [byte_write_outside h (by omega), byte_write_outside h' (by omega), hx]

/-! ## Free values -/

theorem Memory.drawRegion_wf {m : Memory} (h : m.wf) (d : Nat) (r : Region) :
    (m.drawRegion d r).wf := Memory.write_wf h _ _

theorem Memory.drawRegions_wf {m : Memory} (h : m.wf) (d : Nat) (rs : List Region) :
    (m.drawRegions d rs).wf := by
  induction rs generalizing m with
  | nil => exact h
  | cons r rs ih => exact ih (Memory.drawRegion_wf h d r)

@[simp] theorem Memory.drawRegions_epoch (m : Memory) (d : Nat) (rs : List Region) :
    (m.drawRegions d rs).epoch = m.epoch := by
  induction rs generalizing m with
  | nil => rfl
  | cons r rs ih => exact (ih (m.drawRegion d r)).trans rfl

/-- Drawing regions leaves every byte outside them as it was. -/
theorem Memory.byte_drawRegions_outside {m : Memory} (h : m.wf) (d : Nat) (rs : List Region)
    {x : Nat} (hx : inRegions rs x = false) : (m.drawRegions d rs).byte x = m.byte x := by
  induction rs generalizing m with
  | nil => rfl
  | cons r rs ih =>
    simp only [inRegions, List.any_cons, Bool.or_eq_false_iff] at hx
    refine (ih (Memory.drawRegion_wf h d r) hx.2).trans (Memory.byte_write_outside h ?_)
    have := hx.1
    simp only [Region.holds, Bool.and_eq_false_iff, decide_eq_false_iff_not] at this
    simp; omega

/-- Drawing a region gives each of its bytes the draw of its address. -/
theorem Memory.byte_drawRegion_inside {m : Memory} (h : m.wf) (d : Nat) {r : Region} {x : Nat}
    (h1 : r.1 ≤ x) (h2 : x < r.1 + r.2) : (m.drawRegion d r).byte x = Config.anyByte d x := by
  have hi : x - r.1 < ((List.range' r.1 r.2).map (Config.anyByte d)).length := by simp; omega
  have := Memory.byte_write_inside h (a := r.1) hi
  rw [show r.1 + (x - r.1) = x by omega] at this
  rw [drawRegion, this]
  simp; congr 1; omega

/-- Drawing regions gives each of their bytes the draw of its address. -/
theorem Memory.byte_drawRegions_inside {m : Memory} (h : m.wf) (d : Nat) (rs : List Region)
    {x : Nat} (hx : inRegions rs x = true) : (m.drawRegions d rs).byte x = Config.anyByte d x := by
  induction rs generalizing m with
  | nil => simp [inRegions] at hx
  | cons r rs ih =>
    cases ht : inRegions rs x with
    | true => exact ih (Memory.drawRegion_wf h d r) ht
    | false =>
      simp only [inRegions, List.any_cons, Bool.or_eq_true] at hx ht
      rcases hx with hx | hx
      · simp only [Region.holds, Bool.and_eq_true, decide_eq_true_eq] at hx
        exact (Memory.byte_drawRegions_outside (Memory.drawRegion_wf h d r) d rs ht).trans
          (Memory.byte_drawRegion_inside h d hx.1 hx.2)
      · rw [hx] at ht; cases ht

theorem Memory.drawRegions_below {m : Memory} {size : Nat} (h : m.below size) (d : Nat)
    (rs : List Region) (hr : ∀ r ∈ rs, r.2 = 0 ∨ r.1 + r.2 ≤ size) :
    (m.drawRegions d rs).below size := by
  induction rs generalizing m with
  | nil => exact h
  | cons r rs ih =>
    apply ih _ (fun r hr' => hr r (List.mem_cons_of_mem _ hr'))
    apply Memory.write_below h
    simpa using hr r (List.mem_cons_self ..)

end Sys2Proof.Machine
end

