-- ==== Sys2Proof/Laws/Bytes.lean ====
section
/-! SUPPORT. Little-endian byte strings and blocks: lengths, and that a block stored is the block read
back. -/

namespace Sys2Proof.Machine

@[simp] theorem leBytes_length : ∀ (n x : Nat), (leBytes n x).length = n
  | 0, _ => rfl
  | n + 1, x => by simp [leBytes, leBytes_length n]

@[simp] theorem le32_length (x : Nat) : (le32 x).length = 4 := leBytes_length 4 x

@[simp] theorem le64_length (x : Word) : (le64 x).length = 8 := leBytes_length 8 x.toNat

/-- Reading back a little-endian encoding. -/
theorem ofLE_leBytes : ∀ (n x : Nat), ofLE (leBytes n x) = x % 256 ^ n
  | 0, x => by simp [leBytes, ofLE, Nat.mod_one]
  | n + 1, x => by
    have h : x % 256 ^ (n + 1) = x % 256 + 256 * (x / 256 % 256 ^ n) := by
      rw [show 256 ^ (n + 1) = 256 * 256 ^ n by ring, Nat.mod_mul]
    rw [leBytes, ofLE, ofLE_leBytes n, BitVec.toNat_ofNat, h]

theorem ofLE_le64 (x : Word) : ofLE (le64 x) = x.toNat := by
  rw [le64, ofLE_leBytes, Nat.mod_eq_of_lt]
  exact x.isLt

theorem ofLE_le32 {x : Nat} (h : x < 2 ^ 32) : ofLE (le32 x) = x := by
  rw [le32, ofLE_leBytes, Nat.mod_eq_of_lt (by simpa using h)]

/-- Chunk `k` of a list of equally long chunks. -/
theorem slice_flatMap {α : Type} (f : α → List Byte) (n : Nat) (hf : ∀ x, (f x).length = n) :
    ∀ (xs : List α) (k : Nat) (h : k < xs.length),
      slice (xs.flatMap f) (n * k) n = f xs[k] := by
  intro xs
  induction xs with
  | nil => intro k h; simp at h
  | cons x xs ih =>
    intro k h
    cases k with
    | zero => simp [slice, hf]
    | succ k =>
      have hk : n * (k + 1) = (f x).length + n * k := by rw [hf, Nat.mul_succ]; omega
      have hd : (f x ++ xs.flatMap f).drop ((f x).length + n * k) = (xs.flatMap f).drop (n * k) := by
        rw [← List.drop_drop, List.drop_left]
      rw [slice, List.flatMap_cons, hk, hd]
      simpa [slice] using ih k (by simpa using h)

theorem flatMap_length {α : Type} (f : α → List Byte) (n : Nat) (hf : ∀ x, (f x).length = n)
    (xs : List α) : (xs.flatMap f).length = n * xs.length := by
  induction xs with
  | nil => simp
  | cons x xs ih => rw [List.flatMap_cons, List.length_append, hf, ih, List.length_cons]; ring

@[simp] theorem Block.bytes_length (b : Block) : b.bytes.length = 1024 := by
  rw [Block.bytes, flatMap_length le64 8 le64_length]; simp

/-- A block is the block of its bytes. -/
@[simp] theorem Block.ofBytes_bytes (b : Block) : Block.ofBytes b.bytes = b := by
  apply Vector.ext
  intro k hk
  simp only [Block.ofBytes, Vector.getElem_ofFn, word64At, Block.bytes]
  rw [slice_flatMap le64 8 le64_length _ _ (by simpa using hk), ofLE_le64]
  simp

/-- A block stored is the block read back. -/
theorem Memory.block_setBlock_same {m : Memory} (h : m.wf) (a : Nat) (b : Block) :
    (m.setBlock a b).block a = b := by
  have := Memory.read_write_same h a b.bytes
  rw [Block.bytes_length] at this
  rw [Memory.block, Memory.setBlock, this, Block.ofBytes_bytes]

/-- A block stored leaves a block elsewhere as it was. -/
theorem Memory.block_setBlock_disjoint {m : Memory} (h : m.wf) {a c : Nat} (b : Block)
    (hd : c + 1024 ≤ a ∨ a + 1024 ≤ c) : (m.setBlock a b).block c = m.block c := by
  rw [Memory.block, Memory.setBlock, Memory.read_write_disjoint h (by simpa using hd)]; rfl

theorem Memory.setBlock_wf {m : Memory} (h : m.wf) (a : Nat) (b : Block) : (m.setBlock a b).wf :=
  Memory.write_wf h _ _

theorem Memory.setBlock_below {m : Memory} {size a : Nat} (h : m.below size) (b : Block)
    (ha : a + 1024 ≤ size) : (m.setBlock a b).below size :=
  Memory.write_below h (.inr (by simpa using ha))

theorem Memory.byte_setBlock_outside {m : Memory} (h : m.wf) {a x : Nat} (b : Block)
    (hx : x < a ∨ a + 1024 ≤ x) : (m.setBlock a b).byte x = m.byte x :=
  Memory.byte_write_outside h (by simpa using hx)

theorem Memory.block_congr {m m' : Memory} {a : Nat}
    (h : ∀ x, a ≤ x → x < a + 1024 → m.byte x = m'.byte x) : m.block a = m'.block a := by
  rw [Memory.block, Memory.block, Memory.read_congr h]

/-! ## Blocks under XOR -/

@[simp] theorem Block.xor_getElem (x y : Block) (k : Nat) (h : k < 128) :
    (x.xor y)[k] = x[k] ^^^ y[k] := by simp [Block.xor]

theorem Block.xor_comm (x y : Block) : x.xor y = y.xor x := by
  apply Vector.ext; intro k hk; simp [BitVec.xor_comm]

@[simp] theorem Block.xor_self (x : Block) : x.xor x = Block.zero := by
  apply Vector.ext; intro k hk; simp [Block.zero]

@[simp] theorem Block.xor_zero (x : Block) : x.xor Block.zero = x := by
  apply Vector.ext; intro k hk; simp [Block.zero]

@[simp] theorem Block.zero_xor (x : Block) : Block.zero.xor x = x := by
  rw [Block.xor_comm, Block.xor_zero]

end Sys2Proof.Machine
end

