-- ==== Sys2Proof/Laws/State.lean ====
section
/-! SUPPORT. One lemma for each field of State after each shared update, and for each flag after each
update of STATUS, so that no later proof unfolds a record update. -/

namespace Sys2Proof.Machine

/-! ## Success completion -/

@[simp] theorem State.complete_cfg (s : State) : (s.complete).cfg = s.cfg := rfl
@[simp] theorem State.complete_cmd (s : State) : (s.complete).cmd = s.cmd := rfl
@[simp] theorem State.complete_status (s : State) : (s.complete).status = s.status.succeeded := rfl
@[simp] theorem State.complete_irqEn (s : State) : (s.complete).irqEn = s.irqEn := rfl
@[simp] theorem State.complete_errcmd (s : State) : (s.complete).errcmd = s.errcmd := rfl
@[simp] theorem State.complete_args (s : State) : (s.complete).args = s.args := rfl
@[simp] theorem State.complete_res0 (s : State) : (s.complete).res0 = s.res0 := rfl
@[simp] theorem State.complete_res1 (s : State) : (s.complete).res1 = s.res1 := rfl
@[simp] theorem State.complete_hash (s : State) : (s.complete).hash = s.hash := rfl
@[simp] theorem State.complete_a2 (s : State) : (s.complete).a2 = s.a2 := rfl
@[simp] theorem State.complete_run (s : State) : (s.complete).run = s.run := rfl
@[simp] theorem State.complete_dmem (s : State) : (s.complete).dmem = s.dmem := rfl
@[simp] theorem State.complete_inputs (s : State) : (s.complete).inputs = s.inputs := rfl
@[simp] theorem State.complete_seen (s : State) : (s.complete).seen = s.seen := rfl
@[simp] theorem State.complete_turn (s : State) : (s.complete).turn = s.turn := rfl
@[simp] theorem State.complete_raced (s : State) : (s.complete).raced = s.raced := rfl
@[simp] theorem State.complete_draws (s : State) : (s.complete).draws = s.draws := rfl

/-! ## Error completion -/

@[simp] theorem State.raise_cfg (s : State) (e : Cause) : (s.raise e).cfg = s.cfg := rfl
@[simp] theorem State.raise_cmd (s : State) (e : Cause) : (s.raise e).cmd = s.cmd := rfl
@[simp] theorem State.raise_status (s : State) (e : Cause) : (s.raise e).status = s.status.failed e := rfl
@[simp] theorem State.raise_irqEn (s : State) (e : Cause) : (s.raise e).irqEn = s.irqEn := rfl
@[simp] theorem State.raise_errcmd (s : State) (e : Cause) : (s.raise e).errcmd = s.cmd := rfl
@[simp] theorem State.raise_args (s : State) (e : Cause) : (s.raise e).args = s.args := rfl
@[simp] theorem State.raise_res0 (s : State) (e : Cause) : (s.raise e).res0 = s.res0 := rfl
@[simp] theorem State.raise_res1 (s : State) (e : Cause) : (s.raise e).res1 = s.res1 := rfl
@[simp] theorem State.raise_hash (s : State) (e : Cause) : (s.raise e).hash = s.hash := rfl
@[simp] theorem State.raise_a2 (s : State) (e : Cause) : (s.raise e).a2 = s.a2 := rfl
@[simp] theorem State.raise_run (s : State) (e : Cause) : (s.raise e).run = s.run := rfl
@[simp] theorem State.raise_dmem (s : State) (e : Cause) : (s.raise e).dmem = s.dmem := rfl
@[simp] theorem State.raise_inputs (s : State) (e : Cause) : (s.raise e).inputs = s.inputs := rfl
@[simp] theorem State.raise_seen (s : State) (e : Cause) : (s.raise e).seen = s.seen := rfl
@[simp] theorem State.raise_turn (s : State) (e : Cause) : (s.raise e).turn = s.turn := rfl
@[simp] theorem State.raise_raced (s : State) (e : Cause) : (s.raise e).raced = s.raced := rfl
@[simp] theorem State.raise_draws (s : State) (e : Cause) : (s.raise e).draws = s.draws := rfl

/-! ## Acceptance -/

@[simp] theorem State.accept_cfg (s : State) (v : U32) : (s.accept v).cfg = s.cfg := rfl
@[simp] theorem State.accept_cmd (s : State) (v : U32) : (s.accept v).cmd = v := rfl
@[simp] theorem State.accept_status (s : State) (v : U32) : (s.accept v).status = s.status.accepted := rfl
@[simp] theorem State.accept_irqEn (s : State) (v : U32) : (s.accept v).irqEn = s.irqEn := rfl
@[simp] theorem State.accept_errcmd (s : State) (v : U32) : (s.accept v).errcmd = s.errcmd := rfl
@[simp] theorem State.accept_args (s : State) (v : U32) : (s.accept v).args = s.args := rfl
@[simp] theorem State.accept_res0 (s : State) (v : U32) : (s.accept v).res0 = s.res0 := rfl
@[simp] theorem State.accept_res1 (s : State) (v : U32) : (s.accept v).res1 = s.res1 := rfl
@[simp] theorem State.accept_hash (s : State) (v : U32) : (s.accept v).hash = s.hash := rfl
@[simp] theorem State.accept_a2 (s : State) (v : U32) : (s.accept v).a2 = s.a2 := rfl
@[simp] theorem State.accept_run (s : State) (v : U32) : (s.accept v).run = s.run := rfl
@[simp] theorem State.accept_dmem (s : State) (v : U32) : (s.accept v).dmem = s.dmem := rfl
@[simp] theorem State.accept_inputs (s : State) (v : U32) : (s.accept v).inputs = s.inputs := rfl
@[simp] theorem State.accept_seen (s : State) (v : U32) : (s.accept v).seen = s.seen := rfl
@[simp] theorem State.accept_turn (s : State) (v : U32) : (s.accept v).turn = s.turn := rfl
@[simp] theorem State.accept_raced (s : State) (v : U32) : (s.accept v).raced = false := rfl
@[simp] theorem State.accept_draws (s : State) (v : U32) : (s.accept v).draws = s.draws := rfl

/-! ## The drawing of who moves next -/

@[simp] theorem State.redraw_cfg (s : State) : (s.redraw).cfg = s.cfg := rfl
@[simp] theorem State.redraw_cmd (s : State) : (s.redraw).cmd = s.cmd := rfl
@[simp] theorem State.redraw_status (s : State) : (s.redraw).status = s.status := rfl
@[simp] theorem State.redraw_irqEn (s : State) : (s.redraw).irqEn = s.irqEn := rfl
@[simp] theorem State.redraw_errcmd (s : State) : (s.redraw).errcmd = s.errcmd := rfl
@[simp] theorem State.redraw_args (s : State) : (s.redraw).args = s.args := rfl
@[simp] theorem State.redraw_res0 (s : State) : (s.redraw).res0 = s.res0 := rfl
@[simp] theorem State.redraw_res1 (s : State) : (s.redraw).res1 = s.res1 := rfl
@[simp] theorem State.redraw_hash (s : State) : (s.redraw).hash = s.hash := rfl
@[simp] theorem State.redraw_a2 (s : State) : (s.redraw).a2 = s.a2 := rfl
@[simp] theorem State.redraw_run (s : State) : (s.redraw).run = s.run := rfl
@[simp] theorem State.redraw_dmem (s : State) : (s.redraw).dmem = s.dmem := rfl
@[simp] theorem State.redraw_inputs (s : State) : (s.redraw).inputs = s.inputs := rfl
@[simp] theorem State.redraw_seen (s : State) : (s.redraw).seen = s.seen := rfl
@[simp] theorem State.redraw_turn (s : State) : (s.redraw).turn = if Config.engineFirst s.draws then .engine else .host := rfl
@[simp] theorem State.redraw_raced (s : State) : (s.redraw).raced = s.raced := rfl
@[simp] theorem State.redraw_draws (s : State) : (s.redraw).draws = s.draws + 1 := rfl

/-! ## What the host sees -/

@[simp] theorem State.observe_cfg (s : State) (o : HostObs) : (s.observe o).cfg = s.cfg := rfl
@[simp] theorem State.observe_cmd (s : State) (o : HostObs) : (s.observe o).cmd = s.cmd := rfl
@[simp] theorem State.observe_status (s : State) (o : HostObs) : (s.observe o).status = s.status := rfl
@[simp] theorem State.observe_irqEn (s : State) (o : HostObs) : (s.observe o).irqEn = s.irqEn := rfl
@[simp] theorem State.observe_errcmd (s : State) (o : HostObs) : (s.observe o).errcmd = s.errcmd := rfl
@[simp] theorem State.observe_args (s : State) (o : HostObs) : (s.observe o).args = s.args := rfl
@[simp] theorem State.observe_res0 (s : State) (o : HostObs) : (s.observe o).res0 = s.res0 := rfl
@[simp] theorem State.observe_res1 (s : State) (o : HostObs) : (s.observe o).res1 = s.res1 := rfl
@[simp] theorem State.observe_hash (s : State) (o : HostObs) : (s.observe o).hash = s.hash := rfl
@[simp] theorem State.observe_a2 (s : State) (o : HostObs) : (s.observe o).a2 = s.a2 := rfl
@[simp] theorem State.observe_run (s : State) (o : HostObs) : (s.observe o).run = s.run := rfl
@[simp] theorem State.observe_dmem (s : State) (o : HostObs) : (s.observe o).dmem = s.dmem := rfl
@[simp] theorem State.observe_inputs (s : State) (o : HostObs) : (s.observe o).inputs = s.inputs := rfl
@[simp] theorem State.observe_seen (s : State) (o : HostObs) : (s.observe o).seen = o :: s.seen := rfl
@[simp] theorem State.observe_turn (s : State) (o : HostObs) : (s.observe o).turn = s.turn := rfl
@[simp] theorem State.observe_raced (s : State) (o : HostObs) : (s.observe o).raced = s.raced := rfl
@[simp] theorem State.observe_draws (s : State) (o : HostObs) : (s.observe o).draws = s.draws := rfl

/-! ## Reset of the registers -/

@[simp] theorem State.resetRegisters_cfg (s : State) : (s.resetRegisters).cfg = s.cfg := rfl
@[simp] theorem State.resetRegisters_cmd (s : State) : (s.resetRegisters).cmd = 0 := rfl
@[simp] theorem State.resetRegisters_status (s : State) : (s.resetRegisters).status = Status.reset := rfl
@[simp] theorem State.resetRegisters_irqEn (s : State) : (s.resetRegisters).irqEn = false := rfl
@[simp] theorem State.resetRegisters_errcmd (s : State) : (s.resetRegisters).errcmd = 0 := rfl
@[simp] theorem State.resetRegisters_args (s : State) : (s.resetRegisters).args = Vector.replicate 8 0 := rfl
@[simp] theorem State.resetRegisters_res0 (s : State) : (s.resetRegisters).res0 = 0 := rfl
@[simp] theorem State.resetRegisters_res1 (s : State) : (s.resetRegisters).res1 = 0 := rfl
@[simp] theorem State.resetRegisters_hash (s : State) : (s.resetRegisters).hash = HashState.reset := rfl
@[simp] theorem State.resetRegisters_a2 (s : State) : (s.resetRegisters).a2 = A2Config.reset := rfl
@[simp] theorem State.resetRegisters_run (s : State) : (s.resetRegisters).run = RunCtx.reset := rfl
@[simp] theorem State.resetRegisters_dmem (s : State) : (s.resetRegisters).dmem = s.dmem := rfl
@[simp] theorem State.resetRegisters_inputs (s : State) : (s.resetRegisters).inputs = s.inputs := rfl
@[simp] theorem State.resetRegisters_seen (s : State) : (s.resetRegisters).seen = s.seen := rfl
@[simp] theorem State.resetRegisters_turn (s : State) : (s.resetRegisters).turn = s.turn := rfl
@[simp] theorem State.resetRegisters_raced (s : State) : (s.resetRegisters).raced = false := rfl
@[simp] theorem State.resetRegisters_draws (s : State) : (s.resetRegisters).draws = s.draws := rfl

/-! ## Soft reset -/

@[simp] theorem State.softReset_cfg (s : State) : (s.softReset).cfg = s.cfg := rfl
@[simp] theorem State.softReset_cmd (s : State) : (s.softReset).cmd = 0 := rfl
@[simp] theorem State.softReset_status (s : State) : (s.softReset).status = Status.reset := rfl
@[simp] theorem State.softReset_irqEn (s : State) : (s.softReset).irqEn = false := rfl
@[simp] theorem State.softReset_errcmd (s : State) : (s.softReset).errcmd = 0 := rfl
@[simp] theorem State.softReset_args (s : State) : (s.softReset).args = Vector.replicate 8 0 := rfl
@[simp] theorem State.softReset_res0 (s : State) : (s.softReset).res0 = 0 := rfl
@[simp] theorem State.softReset_res1 (s : State) : (s.softReset).res1 = 0 := rfl
@[simp] theorem State.softReset_hash (s : State) : (s.softReset).hash = HashState.reset := rfl
@[simp] theorem State.softReset_a2 (s : State) : (s.softReset).a2 = A2Config.reset := rfl
@[simp] theorem State.softReset_run (s : State) : (s.softReset).run = RunCtx.reset := rfl
@[simp] theorem State.softReset_dmem (s : State) : (s.softReset).dmem = s.dmem.drawRegions s.draws s.writing := rfl
@[simp] theorem State.softReset_inputs (s : State) : (s.softReset).inputs = s.inputs := rfl
@[simp] theorem State.softReset_seen (s : State) : (s.softReset).seen = s.seen := rfl
@[simp] theorem State.softReset_turn (s : State) : (s.softReset).turn = s.turn := rfl
@[simp] theorem State.softReset_raced (s : State) : (s.softReset).raced = false := rfl
@[simp] theorem State.softReset_draws (s : State) : (s.softReset).draws = s.draws + 1 := rfl

/-! ## Power-on reset -/

@[simp] theorem State.powerOnReset_cfg (s : State) : (s.powerOnReset).cfg = s.cfg := rfl
@[simp] theorem State.powerOnReset_cmd (s : State) : (s.powerOnReset).cmd = 0 := rfl
@[simp] theorem State.powerOnReset_status (s : State) : (s.powerOnReset).status = Status.reset := rfl
@[simp] theorem State.powerOnReset_irqEn (s : State) : (s.powerOnReset).irqEn = false := rfl
@[simp] theorem State.powerOnReset_errcmd (s : State) : (s.powerOnReset).errcmd = 0 := rfl
@[simp] theorem State.powerOnReset_args (s : State) : (s.powerOnReset).args = Vector.replicate 8 0 := rfl
@[simp] theorem State.powerOnReset_res0 (s : State) : (s.powerOnReset).res0 = 0 := rfl
@[simp] theorem State.powerOnReset_res1 (s : State) : (s.powerOnReset).res1 = 0 := rfl
@[simp] theorem State.powerOnReset_hash (s : State) : (s.powerOnReset).hash = HashState.reset := rfl
@[simp] theorem State.powerOnReset_a2 (s : State) : (s.powerOnReset).a2 = A2Config.reset := rfl
@[simp] theorem State.powerOnReset_run (s : State) : (s.powerOnReset).run = RunCtx.reset := rfl
@[simp] theorem State.powerOnReset_dmem (s : State) : (s.powerOnReset).dmem = { epoch := s.dmem.epoch + 1, cells := [] } := rfl
@[simp] theorem State.powerOnReset_inputs (s : State) : (s.powerOnReset).inputs = s.inputs := rfl
@[simp] theorem State.powerOnReset_seen (s : State) : (s.powerOnReset).seen = s.seen := rfl
@[simp] theorem State.powerOnReset_turn (s : State) : (s.powerOnReset).turn = s.turn := rfl
@[simp] theorem State.powerOnReset_raced (s : State) : (s.powerOnReset).raced = false := rfl
@[simp] theorem State.powerOnReset_draws (s : State) : (s.powerOnReset).draws = s.draws := rfl

/-! ## The reset state -/

@[simp] theorem State.resetFor_cfg (c : Config) : (State.resetFor c).cfg = c := rfl
@[simp] theorem State.resetFor_cmd (c : Config) : (State.resetFor c).cmd = 0 := rfl
@[simp] theorem State.resetFor_status (c : Config) : (State.resetFor c).status = Status.reset := rfl
@[simp] theorem State.resetFor_irqEn (c : Config) : (State.resetFor c).irqEn = false := rfl
@[simp] theorem State.resetFor_errcmd (c : Config) : (State.resetFor c).errcmd = 0 := rfl
@[simp] theorem State.resetFor_args (c : Config) : (State.resetFor c).args = Vector.replicate 8 0 := rfl
@[simp] theorem State.resetFor_res0 (c : Config) : (State.resetFor c).res0 = 0 := rfl
@[simp] theorem State.resetFor_res1 (c : Config) : (State.resetFor c).res1 = 0 := rfl
@[simp] theorem State.resetFor_hash (c : Config) : (State.resetFor c).hash = HashState.reset := rfl
@[simp] theorem State.resetFor_a2 (c : Config) : (State.resetFor c).a2 = A2Config.reset := rfl
@[simp] theorem State.resetFor_run (c : Config) : (State.resetFor c).run = RunCtx.reset := rfl
@[simp] theorem State.resetFor_dmem (c : Config) : (State.resetFor c).dmem = { epoch := 0, cells := [] } := rfl
@[simp] theorem State.resetFor_inputs (c : Config) : (State.resetFor c).inputs = [] := rfl
@[simp] theorem State.resetFor_seen (c : Config) : (State.resetFor c).seen = [] := rfl
@[simp] theorem State.resetFor_turn (c : Config) : (State.resetFor c).turn = .host := rfl
@[simp] theorem State.resetFor_raced (c : Config) : (State.resetFor c).raced = false := rfl
@[simp] theorem State.resetFor_draws (c : Config) : (State.resetFor c).draws = 0 := rfl

/-! ## STATUS -/

@[simp] theorem Status.accepted_busy (f : Status) : (f.accepted).busy = true := rfl
@[simp] theorem Status.accepted_done (f : Status) : (f.accepted).done = false := rfl
@[simp] theorem Status.accepted_err (f : Status) : (f.accepted).err = false := rfl
@[simp] theorem Status.accepted_overrun (f : Status) : (f.accepted).overrun = f.overrun := rfl
@[simp] theorem Status.accepted_errcode (f : Status) : (f.accepted).errcode = none := rfl

@[simp] theorem Status.succeeded_busy (f : Status) : (f.succeeded).busy = false := rfl
@[simp] theorem Status.succeeded_done (f : Status) : (f.succeeded).done = true := rfl
@[simp] theorem Status.succeeded_err (f : Status) : (f.succeeded).err = false := rfl
@[simp] theorem Status.succeeded_overrun (f : Status) : (f.succeeded).overrun = f.overrun := rfl
@[simp] theorem Status.succeeded_errcode (f : Status) : (f.succeeded).errcode = none := rfl

@[simp] theorem Status.failed_busy (f : Status) (e : Cause) : (f.failed e).busy = false := rfl
@[simp] theorem Status.failed_done (f : Status) (e : Cause) : (f.failed e).done = true := rfl
@[simp] theorem Status.failed_err (f : Status) (e : Cause) : (f.failed e).err = true := rfl
@[simp] theorem Status.failed_overrun (f : Status) (e : Cause) : (f.failed e).overrun = f.overrun := rfl
@[simp] theorem Status.failed_errcode (f : Status) (e : Cause) : (f.failed e).errcode = some e := rfl

@[simp] theorem Status.overran_busy (f : Status) : (f.overran).busy = f.busy := rfl
@[simp] theorem Status.overran_done (f : Status) : (f.overran).done = f.done := rfl
@[simp] theorem Status.overran_err (f : Status) : (f.overran).err = f.err := rfl
@[simp] theorem Status.overran_overrun (f : Status) : (f.overran).overrun = true := rfl
@[simp] theorem Status.overran_errcode (f : Status) : (f.overran).errcode = f.errcode := rfl

@[simp] theorem Status.cleared_busy (f : Status) (v : U32) : (f.cleared v).busy = f.busy := rfl
@[simp] theorem Status.cleared_done (f : Status) (v : U32) : (f.cleared v).done = (f.done && !v.getLsbD 1) := rfl
@[simp] theorem Status.cleared_err (f : Status) (v : U32) : (f.cleared v).err = (f.err && !v.getLsbD 2) := rfl
@[simp] theorem Status.cleared_overrun (f : Status) (v : U32) : (f.cleared v).overrun = (f.overrun && !v.getLsbD 3) := rfl
@[simp] theorem Status.cleared_errcode (f : Status) (v : U32) : (f.cleared v).errcode = (if v.getLsbD 2 then none else f.errcode) := rfl

/-! ## The HashState after its operations -/

@[simp] theorem HashState.addT_h (hs : HashState) (n : Nat) : (hs.addT n).h = hs.h := rfl
@[simp] theorem HashState.addT_buf (hs : HashState) (n : Nat) : (hs.addT n).buf = hs.buf := rfl
@[simp] theorem HashState.addT_buflen (hs : HashState) (n : Nat) :
    (hs.addT n).buflen = hs.buflen := rfl
@[simp] theorem HashState.addT_outlen (hs : HashState) (n : Nat) :
    (hs.addT n).outlen = hs.outlen := rfl
@[simp] theorem HashState.addT_st (hs : HashState) (n : Nat) : (hs.addT n).st = hs.st := rfl
@[simp] theorem HashState.push_outlen (hs : HashState) (x : Byte) :
    (hs.push x).outlen = hs.outlen := rfl
@[simp] theorem HashState.push_st (hs : HashState) (x : Byte) : (hs.push x).st = hs.st := rfl
@[simp] theorem HashState.push_buflen (hs : HashState) (x : Byte) :
    (hs.push x).buflen = hs.buflen + 1 := rfl
@[simp] theorem HashState.finalize_outlen (hs : HashState) : hs.finalize.outlen = hs.outlen := rfl
@[simp] theorem HashState.finalize_st (hs : HashState) : hs.finalize.st = .finalized := rfl
@[simp] theorem HashState.finalize_buflen (hs : HashState) : hs.finalize.buflen = 0 := rfl
@[simp] theorem HashState.init_outlen (hs : HashState) (nn : Nat) (key : List Byte) :
    (hs.init nn key).outlen = nn := rfl
@[simp] theorem HashState.init_st (hs : HashState) (nn : Nat) (key : List Byte) :
    (hs.init nn key).st = .absorbing := rfl

end Sys2Proof.Machine
end

