-- ==== Sys2Proof/Laws/Blake2b.lean ====
section
/-! SUPPORT. Blake2b and Blake2b-Long: lengths, absorbing in chunks, and what absorbing leaves alone. -/

namespace Sys2Proof.Machine

theorem HashState.digest_length (hs : HashState) : hs.digest.length = min hs.outlen 64 := by
  rw [HashState.digest, List.length_take, flatMap_length le64 8 le64_length]
  simp

theorem HashState.absorb_append (hs : HashState) (xs ys : List Byte) :
    hs.absorb (xs ++ ys) = (hs.absorb xs).absorb ys := by simp [HashState.absorb]

@[simp] theorem HashState.absorb_nil (hs : HashState) : hs.absorb [] = hs := rfl

@[simp] theorem HashState.absorb_cons (hs : HashState) (x : Byte) (xs : List Byte) :
    hs.absorb (x :: xs) = (hs.absorbByte x).absorb xs := rfl

@[simp] theorem HashState.makeRoom_outlen (hs : HashState) : hs.makeRoom.outlen = hs.outlen := by
  unfold HashState.makeRoom; split <;> rfl

@[simp] theorem HashState.makeRoom_st (hs : HashState) : hs.makeRoom.st = hs.st := by
  unfold HashState.makeRoom; split <;> rfl

theorem HashState.makeRoom_buflen (hs : HashState) :
    hs.makeRoom.buflen = if hs.buflen = 128 then 0 else hs.buflen := by
  unfold HashState.makeRoom; split <;> rfl

@[simp] theorem HashState.absorb_outlen (hs : HashState) (xs : List Byte) :
    (hs.absorb xs).outlen = hs.outlen := by
  induction xs generalizing hs with
  | nil => rfl
  | cons x xs ih => rw [absorb_cons, ih]; simp [HashState.absorbByte]

@[simp] theorem HashState.absorb_st (hs : HashState) (xs : List Byte) :
    (hs.absorb xs).st = hs.st := by
  induction xs generalizing hs with
  | nil => rfl
  | cons x xs ih => rw [absorb_cons, ih]; simp [HashState.absorbByte]

/-- Absorbing keeps BUFLEN within the buffer. -/
theorem HashState.absorb_buflen_le {hs : HashState} (h : hs.buflen ≤ 128) (xs : List Byte) :
    (hs.absorb xs).buflen ≤ 128 := by
  induction xs generalizing hs with
  | nil => exact h
  | cons x xs ih =>
    rw [absorb_cons]
    apply ih
    rw [HashState.absorbByte, HashState.push_buflen, HashState.makeRoom_buflen]
    split <;> omega

/-- A 128-bit value is its two halves. -/
theorem halves_append (x : U128) : x.extractLsb' 64 64 ++ x.extractLsb' 0 64 = x := by
  apply BitVec.eq_of_getLsbD_eq
  intro i hi
  rw [BitVec.getLsbD_append]
  by_cases h : i < 64
  · simp [h]
  · have h1 : i - 64 < 64 := by omega
    have h2 : 64 + (i - 64) = i := by omega
    simp [h, h1, h2]

/-- Counting is addition modulo 2^128. -/
theorem HashState.addT_t (hs : HashState) (n : Nat) :
    (hs.addT n).t = hs.t + BitVec.ofNat 128 n := halves_append _

theorem blake2b_length (nn : Nat) (data key : List Byte) :
    (blake2b nn data key).length = min nn 64 := by
  rw [blake2b, HashState.digest_length]; simp

/-! ## The bytes of BUF past BUFLEN reach no result -/

/-- Two HashStates that differ at most in the bytes of BUF that R56 calls don't-care. -/
structure HashState.Agree (x y : HashState) : Prop where
  h : x.h = y.h
  t0 : x.t0 = y.t0
  t1 : x.t1 = y.t1
  buflen : x.buflen = y.buflen
  outlen : x.outlen = y.outlen
  valid : x.buf.toList.take x.buflen = y.buf.toList.take y.buflen
  full : x.buflen ≤ 128

theorem HashState.Agree.t {x y : HashState} (a : x.Agree y) : x.t = y.t := by
  rw [HashState.t, HashState.t, a.t0, a.t1]

/-- The valid bytes after one more. -/
theorem HashState.push_valid {hs : HashState} (h : hs.buflen < 128) (x : Byte) :
    (hs.push x).buf.toList.take (hs.push x).buflen = hs.buf.toList.take hs.buflen ++ [x] := by
  have hl : hs.buflen < hs.buf.toList.length := by simpa using h
  show (hs.buf.setIfInBounds hs.buflen x).toList.take (hs.buflen + 1) = _
  rw [Vector.toList_setIfInBounds, List.take_add_one, List.take_set_of_le (Nat.le_refl _),
    List.getElem?_set_self hl]
  rfl

theorem HashState.Agree.push {x y : HashState} (a : x.Agree y) (h : x.buflen < 128) (b : Byte) :
    (x.push b).Agree (y.push b) where
  h := a.h
  t0 := a.t0
  t1 := a.t1
  buflen := congrArg (· + 1) a.buflen
  outlen := a.outlen
  valid := by rw [push_valid h, push_valid (a.buflen ▸ h), a.valid]
  full := h

theorem HashState.Agree.makeRoom {x y : HashState} (a : x.Agree y) :
    x.makeRoom.Agree y.makeRoom ∧ x.makeRoom.buflen < 128 := by
  have hb := a.buflen
  unfold HashState.makeRoom
  by_cases h : x.buflen = 128
  · have hv := a.valid
    rw [List.take_of_length_le (by simp; omega), List.take_of_length_le (by simp; omega)] at hv
    rw [if_pos h, if_pos (hb ▸ h)]
    refine ⟨?_, by show 0 < 128; decide⟩
    have ht : (x.addT 128).t = (y.addT 128).t := by rw [addT_t, addT_t, a.t]
    constructor
    · show compress x.h x.buf.toList (x.addT 128).t false = compress y.h y.buf.toList (y.addT 128).t false
      rw [a.h, hv, ht]
    · show (x.t + _).extractLsb' 0 64 = (y.t + _).extractLsb' 0 64
      rw [a.t]
    · show (x.t + _).extractLsb' 64 64 = (y.t + _).extractLsb' 64 64
      rw [a.t]
    · rfl
    · exact a.outlen
    · rfl
    · exact Nat.zero_le _
  · rw [if_neg h, if_neg (hb ▸ h)]
    exact ⟨a, by have := a.full; omega⟩

theorem HashState.Agree.absorb {x y : HashState} (a : x.Agree y) (data : List Byte) :
    (x.absorb data).Agree (y.absorb data) := by
  induction data generalizing x y with
  | nil => exact a
  | cons b data ih => exact ih (a.makeRoom.1.push a.makeRoom.2 b)

/-- HashStates that agree give the same digest. -/
theorem HashState.Agree.digest {x y : HashState} (a : x.Agree y) :
    x.finalize.digest = y.finalize.digest := by
  have ht : (x.addT x.buflen).t = (y.addT y.buflen).t := by rw [addT_t, addT_t, a.t, a.buflen]
  show (List.flatMap le64 (compress x.h (x.buf.toList.take x.buflen ++ zeros (128 - x.buflen))
      (x.addT x.buflen).t true).toList).take x.outlen =
    (List.flatMap le64 (compress y.h (y.buf.toList.take y.buflen ++ zeros (128 - y.buflen))
      (y.addT y.buflen).t true).toList).take y.outlen
  rw [a.valid, ht, a.h, a.buflen, a.outlen]

/-- What Init leaves does not depend on the hash before it (R148), but for don't-care bytes. -/
theorem HashState.init_agree (x y : HashState) (nn : Nat) {key : List Byte} :
    (x.init nn key).Agree (y.init nn key) := by
  refine ⟨rfl, rfl, rfl, rfl, rfl, ?_, ?_⟩
  · by_cases h : key.length = 0 <;> simp [HashState.init, h]
  · show (if _ then 0 else 128) ≤ 128
    split <;> decide

/-- A hash begun on any HashState gives the digest of R150. -/
theorem HashState.digest_eq_blake2b (hs : HashState) (nn : Nat) (data key : List Byte) :
    ((hs.init nn key).absorb data).finalize.digest = blake2b nn data key :=
  ((HashState.init_agree hs HashState.reset nn).absorb data).digest

end Sys2Proof.Machine
end

