-- ==== Sys2Proof/Laws/Exec.lean ====
section
/-! SUPPORT. What a command can do, said once: it ends in the error completion of its first failing
check, or in its effect and a success completion; and what a step can do. -/

namespace Sys2Proof.Machine

/-- The effect of a command whose checks pass. -/
def effectOf : Instr → State → State
  | .b2bInit nn kk, s => effectB2bInit nn kk s
  | .b2bUpdate, s => effectB2bUpdate s
  | .b2bFinal, s => effectB2bFinal s
  | .b2bCompress last, s => effectB2bCompress last s
  | .b2bHash nn kk, s => effectB2bHash nn kk s
  | .b2bLong, s => effectB2bLong s
  | .a2H0, s => effectA2H0 s
  | .a2Init, s => effectA2Init s
  | .a2Slice, s => effectA2Slice s
  | .a2Final, s => effectA2Final s
  | .a2Run, s => effectA2Run s
  | .a2Abort, s => effectA2Abort s
  | .a2G xor, s => effectA2G xor s
  | .a2Mode, s => effectA2Mode s
  | .a2Addr, s => effectA2Addr s
  | .a2Index, s => effectA2Index s

/-- Every meaning is its checks and its effect. -/
theorem exec_eq_conclude (i : Instr) (s : State) :
    exec i s = s.conclude (checkOf i s) (effectOf i s) := by cases i <;> rfl

theorem exec_of_check_none {i : Instr} {s : State} (h : checkOf i s = none) :
    exec i s = .next (effectOf i s).complete := by rw [exec_eq_conclude, h]; rfl

theorem exec_of_check_some {i : Instr} {s : State} {e : Cause} (h : checkOf i s = some e) :
    exec i s = .next (s.raise e) := by rw [exec_eq_conclude, h]; rfl

/-- What a command can do. -/
theorem exec_cases {i : Instr} {s t : State} (h : exec i s = .next t) :
    (checkOf i s = none ∧ t = (effectOf i s).complete) ∨
      ∃ e, checkOf i s = some e ∧ t = s.raise e := by
  cases hc : checkOf i s with
  | none => rw [exec_of_check_none hc] at h; exact .inl ⟨rfl, by simpa using h.symm⟩
  | some e => rw [exec_of_check_some hc] at h; exact .inr ⟨e, rfl, by simpa using h.symm⟩

/-- A command always answers a next state. -/
theorem exec_next (i : Instr) (s : State) : ∃ t, exec i s = .next t := by
  cases hc : checkOf i s with
  | none => exact ⟨_, exec_of_check_none hc⟩
  | some e => exact ⟨_, exec_of_check_some hc⟩

/-- What the engine's move can do. -/
theorem engineMove_cases {s t : State} (h : engineMove s = .next t) :
    (∃ e, decode s.cmd = .error e ∧ t = s.raise .illegal) ∨
      ∃ i u, decode s.cmd = .ok i ∧ exec i s = .next u ∧
        ((s.raced = false ∨ checkOf i s ≠ none) ∧ t = u ∨
          s.raced = true ∧ checkOf i s = none ∧ t = settleRace i s u) := by
  unfold engineMove at h
  cases hd : decode s.cmd with
  | error e => rw [hd] at h; exact .inl ⟨e, rfl, by simpa using h.symm⟩
  | ok i =>
    rw [hd] at h
    obtain ⟨u, hu⟩ := exec_next i s
    refine .inr ⟨i, u, rfl, hu, ?_⟩
    simp only [hu] at h
    split at h
    · rename_i hr
      simp only [Bool.and_eq_true, Option.isNone_iff_eq_none] at hr
      exact .inr ⟨hr.1, hr.2, by simpa [settle] using h.symm⟩
    · rename_i hr
      refine .inl ⟨?_, by simpa using h.symm⟩
      cases hs : s.raced with
      | false => exact .inl rfl
      | true =>
        right; intro hc
        simp [hs, hc] at hr

/-- What an access of the host can do when it answers a next state. -/
theorem hostMove_cases {op : HostOp} {s t : State} (h : hostMove op s = .next t) :
    (∃ off v, op = .wr off v ∧ regAccessible off = true ∧ t = (s.writeReg off v).redraw) ∨
    (∃ off, op = .rd off ∧ regAccessible off = true ∧
      t = (s.observe (.reg off (s.readReg off))).redraw) ∨
    (∃ a b, op = .dw a b ∧ a < s.cfg.dmemSize ∧ t = (s.hostStore a b).redraw) ∨
    (∃ a, op = .dr a ∧ a < s.cfg.dmemSize ∧ t = (s.observe (.byte a (s.hostLoad a))).redraw) ∨
    (op = .wait ∧ t = (s.observe (.reg 0x004 s.status.word)).redraw) ∨
    (op = .waitIrq ∧ t = (s.observe .irq).redraw) ∨
    (op = .powerOn ∧ t = s.powerOnReset.redraw) := by
  cases op with
  | wr off v => simp only [hostMove] at h; split at h <;> simp_all
  | rd off => simp only [hostMove] at h; split at h <;> simp_all
  | regOdd off n => simp [hostMove] at h
  | dw a b => simp only [hostMove] at h; split at h <;> simp_all
  | dr a => simp only [hostMove] at h; split at h <;> simp_all
  | wait => simp_all [hostMove]
  | waitIrq => simp_all [hostMove]
  | powerOn => simp_all [hostMove]

/-- What a step can do when it answers a next state: stay, an engine's move, or a host's move. -/
theorem step_cases {s t : State} (h : step s = .next t) :
    t = s ∨ (s.status.busy = true ∧ engineMove s = .next t) ∨
      ∃ op rest, s.inputs = op :: rest ∧ op.blocked s = false ∧
        hostMove op { s with inputs := rest } = .next t := by
  unfold step at h
  split at h
  · split at h
    · exact .inr (.inl ⟨by assumption, h⟩)
    · exact .inl (by simpa using h.symm)
  · rename_i op rest hin
    split at h
    · rename_i ht
      refine .inr (.inl ⟨?_, h⟩)
      simp only [engineTurn, Bool.and_eq_true] at ht
      exact ht.1
    · split at h
      · exact .inl (by simpa using h.symm)
      · rename_i hb
        exact .inr (.inr ⟨op, rest, hin, by simpa using hb, h⟩)

end Sys2Proof.Machine
end

