-- ==== Sys2Proof/Laws/HostPort.lean ====
section
/-! SUPPORT. The register map read the other way: where a register stands, and what its reads and writes
are. -/

namespace Sys2Proof.Machine

/-- The offset of a register (R36). -/
def Reg.offset : Reg → Nat
  | .cmd => 0x000
  | .status => 0x004
  | .ctrl => 0x008
  | .errcmd => 0x00C
  | .id => 0x010
  | .dmemLast => 0x014
  | .arg n hi => 0x020 + 8 * n.val + 4 * hi.toNat
  | .res0 hi => 0x060 + 4 * hi.toNat
  | .res1 hi => 0x068 + 4 * hi.toNat
  | .b2bStat => 0x080
  | .b2bH i hi => 0x100 + 8 * i.val + 4 * hi.toNat
  | .b2bT0 hi => 0x140 + 4 * hi.toNat
  | .b2bT1 hi => 0x148 + 4 * hi.toNat
  | .a2cfg k => 0x200 + 4 * k.val
  | .a2Stat => 0x240
  | .a2Pass => 0x244
  | .a2Slice => 0x248
  | .a2Mprime => 0x24C
  | .a2Lanelen => 0x250
  | .a2Seglen => 0x254
  | .a2H0reg k => 0x280 + 4 * k.val

/-- The register at its own offset. -/
theorem regAt_offset (r : Reg) : regAt r.offset = some r := by
  cases r with
  | arg n hi => cases hi <;> revert n <;> decide
  | b2bH n hi => cases hi <;> revert n <;> decide
  | a2cfg k => revert k; decide
  | a2H0reg k => revert k; decide
  | res0 hi => cases hi <;> rfl
  | res1 hi => cases hi <;> rfl
  | b2bT0 hi => cases hi <;> rfl
  | b2bT1 hi => cases hi <;> rfl
  | _ => rfl

theorem isHigh_toNat (off : Nat) : (isHigh off).toNat = off / 4 % 2 := by
  unfold isHigh
  rcases Nat.mod_two_eq_zero_or_one (off / 4) with h | h <;> simp [h]

theorem ite_eq_cases {α : Type} {p : Prop} [Decidable p] {x y r : α}
    (h : (if p then x else y) = r) : p ∧ x = r ∨ ¬p ∧ y = r := by
  by_cases hp : p
  · exact .inl ⟨hp, by rwa [if_pos hp] at h⟩
  · exact .inr ⟨hp, by rwa [if_neg hp] at h⟩

/-- An aligned offset the map gives a register is that register's. -/
theorem offset_of_regAt {off : Nat} {r : Reg} (ha : off % 4 = 0) (h : regAt off = some r) :
    r.offset = off := by
  unfold regAt at h
  iterate 21
    rcases ite_eq_cases h with ⟨c, h | h⟩ | ⟨_, h⟩
    · simp only [Reg.offset, slot, isHigh_toNat, Fin.ofNat]; omega
  cases h

/-- Two registers at different offsets are different, and only then. -/
theorem Reg.offset_injective {r r' : Reg} (h : r.offset = r'.offset) : r = r' := by
  have h1 := regAt_offset r
  rw [h, regAt_offset] at h1
  simpa using h1.symm

theorem State.readReg_of_some {s : State} {off : Nat} {r : Reg} (h : regAt off = some r) :
    s.readReg off =
      if s.status.busy && r.unstable then Config.anyRegister s.draws else s.regValue r := by
  rw [readReg, h]

theorem State.readReg_of_none {s : State} {off : Nat} (h : regAt off = none) :
    s.readReg off = 0 := by rw [readReg, h]

theorem State.writeReg_of_none {s : State} {off : Nat} (h : regAt off = none) (v : U32) :
    s.writeReg off v = s := by rw [writeReg, h]

/-- A write to a register other than CMD, STATUS and CTRL. -/
theorem State.writeReg_of_some {s : State} {off : Nat} {r : Reg} (h : regAt off = some r)
    (h1 : r ≠ .cmd) (h2 : r ≠ .status) (h3 : r ≠ .ctrl) (v : U32) :
    s.writeReg off v = if s.status.busy then s else s.writeIdle r v := by
  rw [writeReg, h]
  cases r <;> first | rfl | exact absurd rfl h1 | exact absurd rfl h2 | exact absurd rfl h3

/-- The low half of two joined halves. -/
theorem append_low (a b : U32) : (a ++ b).extractLsb' 0 32 = b := by
  apply BitVec.eq_of_getLsbD_eq
  intro i h
  rw [BitVec.getLsbD_extractLsb', BitVec.getLsbD_append]
  simp [h]

/-- The high half of two joined halves. -/
theorem append_high (a b : U32) : (a ++ b).extractLsb' 32 32 = a := by
  apply BitVec.eq_of_getLsbD_eq
  intro i h
  rw [BitVec.getLsbD_extractLsb', BitVec.getLsbD_append]
  simp [h]

@[simp] theorem halfOf_withHalf_same (x : Word) (hi : Bool) (v : U32) :
    halfOf (withHalf x hi v) hi = v := by
  cases hi
  · exact append_low _ v
  · exact append_high v _

@[simp] theorem halfOf_withHalf_other (x : Word) (hi : Bool) (v : U32) :
    halfOf (withHalf x hi v) (!hi) = halfOf x (!hi) := by
  cases hi
  · exact append_high _ v
  · exact append_low v _

@[simp] theorem A2Config.get_set_same (c : A2Config) (k : Fin 16) (v : U32) :
    (c.set k v).get k = v := by
  fin_cases k <;> rfl

theorem A2Config.get_set_other (c : A2Config) {k k' : Fin 16} (h : k' ≠ k) (v : U32) :
    (c.set k v).get k' = c.get k' := by
  fin_cases k <;> fin_cases k' <;> first | rfl | exact absurd rfl h

end Sys2Proof.Machine
end

