-- ==== Sys2Proof/Laws/Footprint.lean ====
section
/-! SUPPORT. The footprint of the running command does not depend on DMEM, nor on what belongs to the
host or to the model; and what a race can leave in the registers. -/

namespace Sys2Proof.Machine

/-- The checks of a command read registers only (R276). -/
theorem checkOf_frame (i : Instr) (s : State) (m : Memory) (ins : List HostOp)
    (seen : List HostObs) (turn : Agent) (raced : Bool) (draws : Nat) :
    checkOf i { s with dmem := m, inputs := ins, seen := seen, turn := turn, raced := raced,
                       draws := draws } = checkOf i s := by cases i <;> rfl

theorem writeSet_frame (i : Instr) (s : State) (m : Memory) (ins : List HostOp)
    (seen : List HostObs) (turn : Agent) (raced : Bool) (draws : Nat) :
    writeSet i { s with dmem := m, inputs := ins, seen := seen, turn := turn, raced := raced,
                        draws := draws } = writeSet i s := by cases i <;> rfl

theorem readSet_frame (i : Instr) (s : State) (m : Memory) (ins : List HostOp)
    (seen : List HostObs) (turn : Agent) (raced : Bool) (draws : Nat) :
    readSet i { s with dmem := m, inputs := ins, seen := seen, turn := turn, raced := raced,
                       draws := draws } = readSet i s := by cases i <;> rfl

theorem State.running_frame (s : State) (m : Memory) (ins : List HostOp)
    (seen : List HostObs) (turn : Agent) (raced : Bool) (draws : Nat) :
    State.running { s with dmem := m, inputs := ins, seen := seen, turn := turn, raced := raced,
                           draws := draws } = s.running := by
  simp only [State.running]
  split
  · split
    · rw [checkOf_frame]
    · rfl
  · rfl

theorem State.writing_frame (s : State) (m : Memory) (ins : List HostOp)
    (seen : List HostObs) (turn : Agent) (raced : Bool) (draws : Nat) :
    State.writing { s with dmem := m, inputs := ins, seen := seen, turn := turn, raced := raced,
                           draws := draws } = s.writing := by
  simp only [State.writing, State.running_frame, writeSet_frame]

theorem State.footprint_frame (s : State) (m : Memory) (ins : List HostOp)
    (seen : List HostObs) (turn : Agent) (raced : Bool) (draws : Nat) :
    State.footprint { s with dmem := m, inputs := ins, seen := seen, turn := turn, raced := raced,
                             draws := draws } = s.footprint := by
  simp only [State.footprint, State.running_frame, writeSet_frame, readSet_frame]

/-- The checks do not read STATUS or CTRL. -/
theorem checkOf_status (i : Instr) (s : State) (f : Status) (b : Bool) :
    checkOf i { s with status := f, irqEn := b } = checkOf i s := by cases i <;> rfl

/-- Of STATUS and CTRL, what runs depends on BUSY only. -/
theorem State.running_status {s : State} {f : Status} (b : Bool) (hb : f.busy = s.status.busy) :
    State.running { s with status := f, irqEn := b } = s.running := by
  simp only [State.running, hb]
  cases decode s.cmd with
  | ok i => simp only [checkOf_status]
  | error e => rfl

/-- What the running command is. -/
theorem State.running_eq_some {s : State} {i : Instr} (h : s.running = some i) :
    s.status.busy = true ∧ decode s.cmd = .ok i ∧ checkOf i s = none := by
  unfold State.running at h
  split at h
  · rename_i hb
    split at h
    · rename_i j hd
      split at h
      · rename_i hc
        cases h
        exact ⟨hb, hd, by simpa using hc⟩
      · cases h
    · cases h
  · cases h

/-- A byte of the write set is a byte of the footprint. -/
theorem State.inRegions_footprint_of_writing {s : State} {a : Nat}
    (h : inRegions s.writing a = true) : inRegions s.footprint a = true := by
  simp only [State.footprint, State.writing] at *
  cases hr : s.running with
  | none => rw [hr] at h; simp [inRegions] at h
  | some i => rw [hr] at h; simp [inRegions] at h ⊢; exact .inr h

theorem Region.holds_iff (r : Region) (a : Nat) :
    Region.holds r a = true ↔ r.1 ≤ a ∧ a < r.1 + r.2 := by
  rw [Region.holds, Bool.and_eq_true, decide_eq_true_iff, decide_eq_true_iff]

/-- A byte of the clipped regions is a byte of the regions that exists. -/
theorem inRegions_clipAll (size : Nat) (rs : List Region) (a : Nat) :
    inRegions (clipAll size rs) a = (inRegions rs a && decide (a < size)) := by
  induction rs with
  | nil => rfl
  | cons r rs ih =>
    simp only [inRegions, clipAll] at ih
    simp only [inRegions, clipAll, List.map_cons, List.any_cons, ih, Bool.and_or_distrib_right]
    congr 1
    rw [Bool.eq_iff_iff]
    rw [Region.holds_iff, Bool.and_eq_true, Region.holds_iff, decide_eq_true_iff]
    show _ ≤ _ ∧ _ < r.1 + min r.2 (size - r.1) ↔ _
    simp only [Region.clip]
    omega

/-- The regions of R92 reach as far as the write set. -/
theorem inRegions_writeSet (i : Instr) (s : State) (a : Nat) :
    inRegions (writeSet i s) a = (inRegions (writeRegions i s) a && decide (a < s.cfg.dmemSize)) :=
  inRegions_clipAll ..

/-- Free values in clipped regions are free values of bytes that exist. -/
theorem Memory.drawRegions_clipAll_below {m : Memory} {size : Nat} (h : m.below size) (d : Nat)
    (rs : List Region) : (m.drawRegions d (clipAll size rs)).below size := by
  apply Memory.drawRegions_below h
  intro r hr
  obtain ⟨r0, -, rfl⟩ := List.mem_map.mp hr
  simp only [Region.clip]; omega

theorem State.openBytes_wf {s : State} (h : s.dmem.wf) (rs : List Region) :
    (s.openBytes rs).dmem.wf := Memory.drawRegions_wf h _ _

theorem State.openBytes_below {s : State} (h : s.dmem.below s.cfg.dmemSize) (rs : List Region) :
    (s.openBytes rs).dmem.below s.cfg.dmemSize := Memory.drawRegions_clipAll_below h _ _

/-- Opening bytes leaves every other byte as it was. -/
theorem State.byte_openBytes_outside {s : State} (h : s.dmem.wf) {rs : List Region} {a : Nat}
    (ha : inRegions rs a = false) : (s.openBytes rs).dmem.byte a = s.dmem.byte a :=
  Memory.byte_drawRegions_outside h _ _ (by rw [inRegions_clipAll, ha]; rfl)

/-- A race keeps BUFLEN and OUTLEN within their widths (R50). -/
theorem racedHash_range (i : Instr) {hs : HashState} (d : Nat) (hb : hs.buflen ≤ 128)
    (ho : hs.outlen ≤ 64) :
    (racedHash i hs d).buflen ≤ 128 ∧ (racedHash i hs d).outlen ≤ 64 := by
  have h1 : (anyHash d).buflen ≤ 128 := Nat.le_of_lt_succ (Nat.mod_lt _ (by decide))
  have h2 : (anyHash d).outlen ≤ 64 := Nat.le_of_lt_succ (Nat.mod_lt _ (by decide))
  unfold racedHash
  cases i <;> exact ⟨by assumption, by assumption⟩

end Sys2Proof.Machine
end

