-- ==== Sys2Proof/Laws/Fill.lean ====
section
/-! SUPPORT. The fill engine: where it writes, what it leaves alone, and the sizes it works with. -/

namespace Sys2Proof.Machine

/-! ## Sizes -/

/-- A lane is four whole segments (R192). -/
theorem four_mul_segLen (m p : Nat) : 4 * segLen m p = laneLen m p := by
  simp only [segLen, laneLen]; omega

/-- The matrix is no larger than the memory asked for (R192). -/
theorem mPrime_le (m p : Nat) : mPrime m p ≤ m := by
  simp only [mPrime, laneLen]
  calc p * (4 * (m / (4 * p))) = 4 * p * (m / (4 * p)) := by ring
    _ ≤ m := Nat.mul_div_le m (4 * p)

theorem laneLen_le (m : Nat) {p : Nat} (hp : 1 ≤ p) : laneLen m p ≤ m :=
  (Nat.le_mul_of_pos_left _ hp).trans (mPrime_le m p)

/-- With the memory R201 asks for, a segment holds at least two blocks. -/
theorem two_le_segLen {m p : Nat} (hp : 1 ≤ p) (hm : 8 * p ≤ m) : 2 ≤ segLen m p := by
  have h : 2 ≤ m / (4 * p) := by rw [Nat.le_div_iff_mul_le (by omega)]; omega
  simp only [segLen, laneLen]; omega

theorem toNat_ofNat_of_le {n m : Nat} (h : n ≤ m) (hm : m < 2 ^ 32) :
    (BitVec.ofNat 32 n).toNat = n := by
  rw [BitVec.toNat_ofNat, Nat.mod_eq_of_lt (by omega)]

/-! ## Addresses of blocks -/

theorem blkAddr_add (j : Job) (l c k : Nat) : blkAddr j l (c + k) = blkAddr j l c + k * 1024 := by
  simp only [blkAddr]; ring

/-- The columns of different lanes are apart. -/
theorem blkAddr_lane_lt (j : Job) {l l' : Nat} (h : l < l') {c c' n : Nat} (hc : c + n ≤ j.q) :
    blkAddr j l c + n * 1024 ≤ blkAddr j l' c' := by
  rw [← blkAddr_add]
  have h1 : (l + 1) * j.q ≤ l' * j.q := Nat.mul_le_mul_right _ h
  have h2 : (l + 1) * j.q = l * j.q + j.q := by ring
  simp only [blkAddr]; omega

/-- The columns of a lane lie in the matrix. -/
theorem blkAddr_in_matrix (j : Job) {l c n : Nat} (hl : l < j.p) (hc : c + n ≤ j.q) :
    j.mbase ≤ blkAddr j l c ∧ blkAddr j l c + n * 1024 ≤ j.mbase + j.p * j.q * 1024 := by
  rw [← blkAddr_add]
  have h1 : (l + 1) * j.q ≤ j.p * j.q := Nat.mul_le_mul_right _ hl
  have h2 : (l + 1) * j.q = l * j.q + j.q := by ring
  simp only [blkAddr]; omega

/-! ## The initial blocks -/

@[simp] theorem hPrimeChain_length {fuel rem : Nat} (v : List Byte)
    (h : rem ≤ 64 + 32 * fuel) : (hPrimeChain fuel rem v).length = rem := by
  induction fuel generalizing rem v with
  | zero => rw [hPrimeChain, blake2b_length]; omega
  | succ fuel ih =>
    rw [hPrimeChain]
    split
    · rw [List.length_append, List.length_take, blake2b_length, ih _ (by omega)]; omega
    · rw [blake2b_length]; omega

/-- H' gives as many bytes as asked for (R181). -/
@[simp] theorem hPrime_length (t : Nat) (a : List Byte) : (hPrime t a).length = t := by
  rw [hPrime]
  split
  · rw [blake2b_length]; omega
  · rw [List.length_append, List.length_take, hPrimeFirst, blake2b_length,
      hPrimeChain_length _ (by omega)]; omega

@[simp] theorem initialBlock_length (h0 : List Byte) (l c : Nat) :
    (initialBlock h0 l c).length = 1024 := hPrime_length _ _

theorem initLane_wf {j : Job} {h0 : List Byte} {m : Memory} (h : m.wf) (l : Nat) :
    (initLane j h0 m l).wf := Memory.write_wf (Memory.write_wf h _ _) _ _

theorem blkAddr_one (j : Job) (l : Nat) : blkAddr j l 1 = blkAddr j l 0 + 1024 := by
  rw [show 1 = 0 + 1 from rfl, blkAddr_add]

/-- The initial blocks of a lane are written in its first two columns only. -/
theorem byte_initLane_outside {j : Job} {h0 : List Byte} {m : Memory} (h : m.wf) {l x : Nat}
    (hx : x < blkAddr j l 0 ∨ blkAddr j l 0 + 2048 ≤ x) :
    (initLane j h0 m l).byte x = m.byte x := by
  have h1 := blkAddr_one j l
  rw [initLane, Memory.byte_write_outside (Memory.write_wf h _ _) (by simp; omega),
    Memory.byte_write_outside h (by simp; omega)]

/-! ## A fold of memory updates -/

theorem foldl_wf {α : Type} (f : Memory → α → Memory) (hf : ∀ m a, m.wf → (f m a).wf)
    (xs : List α) {m : Memory} (h : m.wf) : (xs.foldl f m).wf := by
  induction xs generalizing m with
  | nil => exact h
  | cons x xs ih => exact ih (hf m x h)

theorem foldl_byte {α : Type} (f : Memory → α → Memory) (hf : ∀ m a, m.wf → (f m a).wf)
    (x : Nat) (xs : List α) (hb : ∀ a ∈ xs, ∀ m : Memory, m.wf → (f m a).byte x = m.byte x)
    {m : Memory} (h : m.wf) : (xs.foldl f m).byte x = m.byte x := by
  induction xs generalizing m with
  | nil => rfl
  | cons a xs ih =>
    rw [List.foldl_cons, ih (fun b hb' => hb b (List.mem_cons_of_mem _ hb')) (hf m a h),
      hb a (List.mem_cons_self ..) m h]

theorem foldl_below {α : Type} (f : Memory → α → Memory) (size : Nat) (xs : List α)
    (hb : ∀ a ∈ xs, ∀ m : Memory, m.below size → (f m a).below size)
    {m : Memory} (h : m.below size) : (xs.foldl f m).below size := by
  induction xs generalizing m with
  | nil => exact h
  | cons a xs ih =>
    exact ih (fun b hb' => hb b (List.mem_cons_of_mem _ hb')) (hb a (List.mem_cons_self ..) m h)

/-! ## A segment -/

theorem fillStep_wf {j : Job} {r s l i : Nat} {gm : AddrGen × Memory} (h : gm.2.wf) :
    (fillStep j r s l gm i).2.wf := Memory.setBlock_wf h _ _

theorem fillStep_foldl_wf {j : Job} {r s l : Nat} (is : List Nat) {gm : AddrGen × Memory}
    (h : gm.2.wf) : (is.foldl (fillStep j r s l) gm).2.wf := by
  induction is generalizing gm with
  | nil => exact h
  | cons i is ih => exact ih (fillStep_wf h)

theorem fillSegment_wf {j : Job} {r s l : Nat} {m : Memory} (h : m.wf) :
    (fillSegment j r s m l).wf := fillStep_foldl_wf _ h

theorem byte_fillStep_foldl_outside {j : Job} {r s l x : Nat} (is : List Nat)
    {gm : AddrGen × Memory} (h : gm.2.wf)
    (hx : ∀ i ∈ is, x < blkAddr j l (s * j.seg + i) ∨ blkAddr j l (s * j.seg + i) + 1024 ≤ x) :
    (is.foldl (fillStep j r s l) gm).2.byte x = gm.2.byte x := by
  induction is generalizing gm with
  | nil => rfl
  | cons i is ih =>
    rw [List.foldl_cons, ih (fillStep_wf h) (fun k hk => hx k (List.mem_cons_of_mem _ hk)),
      fillStep]
    exact Memory.byte_setBlock_outside h _ (hx i (List.mem_cons_self ..))

/-- A segment is written in its own columns of its own lane only, from its first index on. -/
theorem byte_fillSegment_outside {j : Job} {r s l x : Nat} {m : Memory} (h : m.wf)
    (hx : x < blkAddr j l (s * j.seg + segStart r s) ∨
      blkAddr j l (s * j.seg) + j.seg * 1024 ≤ x) :
    (fillSegment j r s m l).byte x = m.byte x := by
  apply byte_fillStep_foldl_outside _ h
  intro i hi
  rw [List.mem_range'_1] at hi
  rw [blkAddr_add] at hx ⊢
  have h1 := Nat.mul_le_mul_right 1024 hi.1
  have h2 := Nat.mul_le_mul_right 1024 (show i + 1 ≤ j.seg by omega)
  rw [Nat.add_mul] at h2
  exact hx.imp (fun hx => by linarith) (fun hx => by linarith)

theorem fillStep_foldl_below {j : Job} {r s l size : Nat} (is : List Nat) {gm : AddrGen × Memory}
    (h : gm.2.below size) (hx : ∀ i ∈ is, blkAddr j l (s * j.seg + i) + 1024 ≤ size) :
    (is.foldl (fillStep j r s l) gm).2.below size := by
  induction is generalizing gm with
  | nil => exact h
  | cons i is ih =>
    exact ih (Memory.setBlock_below h _ (hx i (List.mem_cons_self ..)))
      (fun k hk => hx k (List.mem_cons_of_mem _ hk))

theorem fillSegment_below {j : Job} {r s l size : Nat} {m : Memory} (h : m.below size)
    (hx : blkAddr j l (s * j.seg) + j.seg * 1024 ≤ size) :
    (fillSegment j r s m l).below size := by
  apply fillStep_foldl_below _ h
  intro i hi
  rw [List.mem_range'_1] at hi
  rw [blkAddr_add]
  omega

/-! ## A slice -/

theorem fillSlice_wf {j : Job} {r s : Nat} (order : List Nat) {m : Memory} (h : m.wf) :
    (fillSlice j r s order m).wf := foldl_wf _ (fun _ _ h => fillSegment_wf h) order h

theorem byte_fillSlice_outside {j : Job} {r s x : Nat} (order : List Nat) {m : Memory} (h : m.wf)
    (hx : ∀ l ∈ order, x < blkAddr j l (s * j.seg + segStart r s) ∨
      blkAddr j l (s * j.seg) + j.seg * 1024 ≤ x) :
    (fillSlice j r s order m).byte x = m.byte x :=
  foldl_byte _ (fun _ _ h => fillSegment_wf h) x order
    (fun l hl _ h => byte_fillSegment_outside h (hx l hl)) h

/-- Every order of the lanes names lanes of the run. -/
theorem mem_laneOrder {w p l : Nat} (h : l ∈ laneOrder w p) : l < p := by
  simp only [laneOrder, List.mem_flatMap, List.mem_range, List.mem_filter] at h
  obtain ⟨_, _, h, _⟩ := h
  exact h

/-- The workers take every lane once. -/
theorem laneOrder_perm {w : Nat} (hw : 1 ≤ w) (p : Nat) :
    (laneOrder w p).Perm (List.range p) := by
  rw [List.perm_ext_iff_of_nodup _ List.nodup_range]
  · intro l
    simp only [laneOrder, List.mem_flatMap, List.mem_range, List.mem_filter]
    constructor
    · rintro ⟨_, _, h, _⟩; exact h
    · intro h
      exact ⟨l % w, Nat.mod_lt _ hw, h, by simp⟩
  · rw [laneOrder, List.nodup_flatMap]
    refine ⟨fun a _ => List.nodup_range.filter _, ?_⟩
    apply List.nodup_range.pairwise_of_forall_ne
    intro a _ b _ hab l h1 h2
    simp only [List.mem_filter, decide_eq_true_eq] at h1 h2
    exact hab (h1.2.symm.trans h2.2)

end Sys2Proof.Machine
end

