-- ==== Sys2Proof/Laws/Addressing.lean ====
section
/-! SUPPORT. The reference a block is drawn from: it is a column of the lane, and never one that the
current segment of another lane holds. -/

namespace Sys2Proof.Machine

theorem selJ1_lt (w : Word) : selJ1 w < 2 ^ 32 := (w.extractLsb' 0 32).isLt

/-- The remap stays inside the area (R247). -/
theorem remapJ1_lt {area : Nat} (h : 1 ≤ area) (j1 : Nat) : remapJ1 area j1 < area := by
  simp only [remapJ1]; omega

theorem refLane_lt {p l : Nat} (hl : l < p) (r s j2 : Nat) : refLane p r s l j2 < p := by
  simp only [refLane]
  split
  · exact hl
  · exact Nat.mod_lt _ (by omega)

/-- RefCol where R249 gives a column. -/
theorem refCol_eq {q seg r s i : Nat} {same : Bool} (ha : 1 ≤ refArea q seg r s i same) (hq : 0 < q)
    (j1 : Nat) : refCol q seg r s i j1 same =
      (areaStart seg r s + remapJ1 (refArea q seg r s i same) j1) % q := by
  rw [refCol, if_neg (by omega)]

theorem refCol_lt {q seg r s i : Nat} {same : Bool} (ha : 1 ≤ refArea q seg r s i same) (hq : 0 < q)
    (j1 : Nat) : refCol q seg r s i j1 same < q := by rw [refCol_eq ha hq]; exact Nat.mod_lt _ hq

/-- Every position FillSegment visits has something to reference (R246). -/
theorem refArea_pos {seg r s i : Nat} {same : Bool} (hseg : 2 ≤ seg)
    (h0 : r = 0 ∧ s = 0 → 2 ≤ i) : 1 ≤ refArea (4 * seg) seg r s i same := by
  have hmul : s ≠ 0 → seg ≤ s * seg := fun h => Nat.le_mul_of_pos_left _ (by omega)
  simp only [refArea]
  by_cases hr : r = 0
  · by_cases hs : s = 0
    · have := h0 ⟨hr, hs⟩
      rw [if_pos hr, if_pos hs]; omega
    · have := hmul hs
      rw [if_pos hr, if_neg hs]; split <;> [skip; split] <;> omega
  · rw [if_neg hr]; split <;> [skip; split] <;> omega

/-- Column numbers do not run more than once around the lane. -/
theorem mod_lane {q y : Nat} (hy : y < 2 * q) :
    y % q = y ∧ y < q ∨ y % q + q = y ∧ q ≤ y := by
  by_cases h : y < q
  · exact .inl ⟨Nat.mod_eq_of_lt h, h⟩
  · refine .inr ⟨?_, by omega⟩
    rw [Nat.mod_eq_sub_mod (by omega), Nat.mod_eq_of_lt (by omega)]; omega

/-- A reference to another lane is outside the current segment (R255). -/
theorem refCol_other_lane {seg r s i : Nat} (j1 : Nat) (hseg : 2 ≤ seg) (hs : s ≤ 3)
    (h0 : ¬(r = 0 ∧ s = 0)) :
    ¬(s * seg ≤ refCol (4 * seg) seg r s i j1 false ∧
      refCol (4 * seg) seg r s i j1 false < s * seg + seg) := by
  have harea : 1 ≤ refArea (4 * seg) seg r s i false := refArea_pos hseg fun h => absurd h h0
  have hz := remapJ1_lt harea j1
  have hrc := refCol_eq harea (by omega) j1
  generalize remapJ1 (refArea (4 * seg) seg r s i false) j1 = z at hz hrc
  rw [hrc]
  clear harea hrc
  have hm := mod_lane (q := 4 * seg) (y := areaStart seg r s + z)
  simp only [refArea, areaStart, Bool.false_eq_true, if_false] at hz hm ⊢
  have hs' : s = 0 ∨ s = 1 ∨ s = 2 ∨ s = 3 := by omega
  rcases hs' with rfl | rfl | rfl | rfl <;> by_cases hr : r = 0 <;> by_cases hi : i = 0 <;>
    simp [hr, hi] at * <;> omega

/-! ## What a segment reads and writes -/

/-- The current segment of a lane, as addresses. -/
def inSegment (j : Job) (s l x : Nat) : Prop :=
  blkAddr j l (s * j.seg) ≤ x ∧ x < blkAddr j l (s * j.seg) + j.seg * 1024

/-- Two memories that are alike but for the current segments of the lanes other than `l`. -/
def sameForLane (j : Job) (s l : Nat) (m m' : Memory) : Prop :=
  ∀ x, (∀ l', l' < j.p → l' ≠ l → ¬inSegment j s l' x) → m.byte x = m'.byte x

theorem segment_fits {j : Job} (hq : j.q = 4 * j.seg) {s : Nat} (hs : s ≤ 3) :
    s * j.seg + j.seg ≤ j.q := by
  have : s * j.seg ≤ 3 * j.seg := Nat.mul_le_mul_right _ hs
  omega

/-- A block of another column or of lane `l` itself is not in another lane's current segment. -/
theorem not_inSegment {j : Job} (hq : j.q = 4 * j.seg) {s l' l'' c x : Nat} (hs : s ≤ 3)
    (hc : c < j.q) (h : l'' ≠ l' ∨ ¬(s * j.seg ≤ c ∧ c < s * j.seg + j.seg))
    (h1 : blkAddr j l'' c ≤ x) (h2 : x < blkAddr j l'' c + 1024) : ¬inSegment j s l' x := by
  have hf := segment_fits hq hs
  rintro ⟨h3, h4⟩
  rcases Nat.lt_trichotomy l'' l' with hl | hl | hl
  · have := blkAddr_lane_lt j hl (c := c) (c' := s * j.seg) (n := 1) (by omega); omega
  · subst hl
    have hc' : ¬(s * j.seg ≤ c ∧ c < s * j.seg + j.seg) := by simpa using h
    simp only [blkAddr] at *; omega
  · have := blkAddr_lane_lt j hl (c := s * j.seg) (c' := c) (n := j.seg) hf; omega

theorem blk_sameForLane {j : Job} (hq : j.q = 4 * j.seg) {s l l'' c : Nat} {m m' : Memory}
    (hm : sameForLane j s l m m') (hs : s ≤ 3) (hc : c < j.q)
    (h : l'' = l ∨ ¬(s * j.seg ≤ c ∧ c < s * j.seg + j.seg)) : blk j m l'' c = blk j m' l'' c := by
  apply Memory.block_congr
  intro x h1 h2
  apply hm
  intro l' _ hne
  apply not_inSegment hq hs hc _ h1 h2
  rcases h with rfl | h
  · exact .inl (Ne.symm hne)
  · exact .inr h

theorem prevCol_lt {q c : Nat} (hc : c < q) : prevCol q c < q := by
  simp only [prevCol]; split <;> omega

/-- One iteration reads nothing from another lane's current segment. -/
theorem newBlock_sameForLane {j : Job} (hseg : 2 ≤ j.seg) (hq : j.q = 4 * j.seg) {r s l i : Nat}
    {m m' : Memory} (hm : sameForLane j s l m m') (hs : s ≤ 3) (hi : i < j.seg)
    (h2i : r = 0 ∧ s = 0 → 2 ≤ i) (w : Word) : newBlock j m r s l i w = newBlock j m' r s l i w := by
  have hf := segment_fits hq hs
  have h1 := blk_sameForLane hq hm hs (prevCol_lt (show s * j.seg + i < j.q by omega)) (.inl rfl)
  have h2 := blk_sameForLane hq hm hs (show s * j.seg + i < j.q by omega) (.inl rfl)
  have h3 : blk j m (refLane j.p r s l (selJ2 w))
        (refCol j.q j.seg r s i (selJ1 w) (refLane j.p r s l (selJ2 w) = l)) =
      blk j m' (refLane j.p r s l (selJ2 w))
        (refCol j.q j.seg r s i (selJ1 w) (refLane j.p r s l (selJ2 w) = l)) := by
    apply blk_sameForLane hq hm hs (refCol_lt (by rw [hq]; exact refArea_pos hseg h2i) (by omega) _)
    by_cases hrl : refLane j.p r s l (selJ2 w) = l
    · exact .inl hrl
    · right
      rw [hq]
      have h0 : ¬(r = 0 ∧ s = 0) := fun h => hrl (by simp only [refLane, if_pos h])
      simpa [hrl] using refCol_other_lane (i := i) (selJ1 w) hseg hs h0
  simp only [newBlock, h1, h2, h3]

theorem selector_sameForLane {j : Job} (hq : j.q = 4 * j.seg) {r s l i : Nat}
    {m m' : Memory} (hm : sameForLane j s l m m') (hs : s ≤ 3) (hi : i < j.seg) (g : AddrGen) :
    selector j m r s l i g = selector j m' r s l i g := by
  have hf := segment_fits hq hs
  have h1 := blk_sameForLane hq hm hs (prevCol_lt (show s * j.seg + i < j.q by omega)) (.inl rfl)
  simp only [selector, h1]

/-- A segment computes the same from two memories that are alike for its lane. -/
theorem fillStep_foldl_sameForLane {j : Job} (hseg : 2 ≤ j.seg) (hq : j.q = 4 * j.seg)
    {r s l : Nat} (hs : s ≤ 3) (is : List Nat)
    (hi : ∀ i ∈ is, i < j.seg ∧ (r = 0 ∧ s = 0 → 2 ≤ i)) (g : AddrGen) {m m' : Memory} (h : m.wf) (h' : m'.wf) (hm : sameForLane j s l m m') :
    sameForLane j s l (is.foldl (fillStep j r s l) (g, m)).2
      (is.foldl (fillStep j r s l) (g, m')).2 := by
  induction is generalizing g m m' with
  | nil => exact hm
  | cons i is ih =>
    obtain ⟨hi0, h2i⟩ := hi i (List.mem_cons_self ..)
    simp only [List.foldl_cons, fillStep, selector_sameForLane hq hm hs hi0,
      newBlock_sameForLane hseg hq hm hs hi0 h2i]
    apply ih (fun k hk => hi k (List.mem_cons_of_mem _ hk)) _ (Memory.setBlock_wf h _ _)
      (Memory.setBlock_wf h' _ _)
    intro x hx
    exact Memory.byte_write_congr h h' _ _ (hm x hx)

/-- A segment is one write: of its blocks, from its first column on. -/
theorem fillStep_foldl_eq_write {j : Job} {r s l : Nat} (start n : Nat) (g : AddrGen) {m : Memory}
    (h : m.wf) : ∃ bs : List Byte, bs.length = n * 1024 ∧
      ((List.range' start n).foldl (fillStep j r s l) (g, m)).2 =
        m.write (blkAddr j l (s * j.seg + start)) bs := by
  induction n with
  | zero => exact ⟨[], rfl, (Memory.write_nil h _).symm⟩
  | succ n ih =>
    obtain ⟨bs, hlen, he⟩ := ih
    rw [List.range'_concat, List.foldl_append]
    simp only [List.foldl_cons, List.foldl_nil, fillStep, Nat.one_mul, he]
    have key : ∀ b : Block, ∃ bs' : List Byte, bs'.length = (n + 1) * 1024 ∧
        (m.write (blkAddr j l (s * j.seg + start)) bs).setBlock
          (blkAddr j l (s * j.seg + (start + n))) b =
            m.write (blkAddr j l (s * j.seg + start)) bs' := by
      intro b
      refine ⟨bs ++ b.bytes, by simp [hlen]; ring, ?_⟩
      rw [Memory.setBlock, ← Memory.write_append h, hlen,
        show s * j.seg + (start + n) = s * j.seg + start + n by omega,
        blkAddr_add j l (s * j.seg + start) n]
    exact key _

end Sys2Proof.Machine
end

