-- ==== Sys2Proof/Laws/Decode.lean ====
section
/-! SUPPORT. The decoder, case by case: a word with no row, a word with a reserved bit, a command. -/

namespace Sys2Proof

theorem decode_of_none {w : U32} (h : opcodeMap w = none) : decode w = .error .reservedOpcode := by
  rw [decode, h]

theorem decode_of_some {w : U32} {fmt : Format} {i : Instr} (h : opcodeMap w = some (fmt, i))
    (hr : w &&& fmt.reserved = 0) : decode w = .ok i := by
  rw [decode, h]; exact if_pos hr

theorem decode_of_reserved {w : U32} {fmt : Format} {i : Instr} (h : opcodeMap w = some (fmt, i))
    (hr : w &&& fmt.reserved ≠ 0) : decode w = .error .reservedBit := by
  rw [decode, h]; exact if_neg hr

/-- What a word that decodes is. -/
theorem decode_ok {w : U32} {i : Instr} (h : decode w = .ok i) :
    ∃ fmt, opcodeMap w = some (fmt, i) ∧ w &&& fmt.reserved = 0 := by
  cases hm : opcodeMap w with
  | none => rw [decode_of_none hm] at h; cases h
  | some p =>
    obtain ⟨fmt, j⟩ := p
    by_cases hr : w &&& fmt.reserved = 0
    · rw [decode_of_some hm hr] at h; cases h; exact ⟨fmt, rfl, hr⟩
    · rw [decode_of_reserved hm hr] at h; cases h

theorem opcField_lt (w : U32) : opcField w < 256 := (w.extractLsb' 0 8).isLt

theorem outlenField_lt (w : U32) : outlenField w < 256 := (w.extractLsb' 8 8).isLt

theorem keylenField_lt (w : U32) : keylenField w < 256 := (w.extractLsb' 16 8).isLt

/-- The bits from `n` on are 0 exactly when the word is below `2 ^ n`. -/
theorem and_high_eq_zero_iff (w : U32) (n : Nat) (hn : n ≤ 32) :
    w &&& (BitVec.allOnes 32 <<< n) = 0 ↔ w.toNat < 2 ^ n := by
  constructor
  · intro h
    apply Nat.lt_pow_two_of_testBit
    intro i hi
    by_cases h32 : i < 32
    · have hb : (w &&& (BitVec.allOnes 32 <<< n)).getLsbD i = false := by rw [h]; simp
      have hw : w.getLsbD i = false := by
        rw [BitVec.getLsbD_and, BitVec.getLsbD_shiftLeft, BitVec.getLsbD_allOnes] at hb
        simpa [h32, show ¬ i < n by omega, show i - n < 32 by omega] using hb
      exact hw
    · exact Nat.testBit_lt_two_pow (Nat.lt_of_lt_of_le w.isLt (Nat.pow_le_pow_right (by decide) (by omega)))
  · intro h
    apply BitVec.eq_of_getLsbD_eq
    intro i hi
    by_cases hin : i < n
    · simp [hin]
    · have : w.getLsbD i = false := by
        rw [BitVec.getLsbD]
        exact Nat.testBit_lt_two_pow (Nat.lt_of_lt_of_le h (Nat.pow_le_pow_right (by decide) (by omega)))
      simp [this]

/-- The reserved bits of a format are 0 exactly when the word is below its first reserved bit. -/
theorem Format.reserved_eq_zero (w : U32) (fmt : Format) :
    w &&& fmt.reserved = 0 ↔ w.toNat < match fmt with | .n => 2 ^ 8 | .k => 2 ^ 24 | .f => 2 ^ 9 := by
  cases fmt
  · exact and_high_eq_zero_iff w 8 (by decide)
  · exact and_high_eq_zero_iff w 24 (by decide)
  · exact and_high_eq_zero_iff w 9 (by decide)

theorem opcField_eq (w : U32) : opcField w = w.toNat % 256 := by
  simp [opcField, BitVec.extractLsb'_toNat]

theorem outlenField_eq (w : U32) : outlenField w = w.toNat / 256 % 256 := by
  simp [outlenField, BitVec.extractLsb'_toNat, Nat.shiftRight_eq_div_pow]

theorem keylenField_eq (w : U32) : keylenField w = w.toNat / 65536 % 256 := by
  simp [keylenField, BitVec.extractLsb'_toNat, Nat.shiftRight_eq_div_pow]

theorem flagField_eq (w : U32) : (flagField w).toNat = w.toNat / 256 % 2 := by
  simp [flagField, BitVec.getLsbD, Nat.testBit, Nat.shiftRight_eq_div_pow, Nat.and_comm 1, Nat.and_one_is_mod]
  cases h : (w.toNat / 256 % 2 == 1) <;> simp_all

theorem or_shiftLeft_eq {a b n : Nat} (h : b < 2 ^ n) : b ||| a <<< n = a * 2 ^ n + b := by
  rw [Nat.or_comm, Nat.shiftLeft_eq, Nat.mul_comm, ← Nat.two_pow_add_eq_or_of_lt h]

/-- A format K word as a number. -/
theorem encodeK_eq {opc o k : Nat} (h : opc < 256) (ho : o < 256) (hk : k < 256) :
    encodeK opc o k = BitVec.ofNat 32 (opc + 256 * o + 65536 * k) := by
  apply BitVec.eq_of_toNat_eq
  simp only [encodeK, BitVec.toNat_or, BitVec.toNat_shiftLeft, BitVec.toNat_ofNat]
  rw [Nat.mod_eq_of_lt (show opc < 2 ^ 32 by omega), Nat.mod_eq_of_lt (show o < 2 ^ 32 by omega),
    Nat.mod_eq_of_lt (show k < 2 ^ 32 by omega),
    Nat.mod_eq_of_lt (show o <<< 8 < 2 ^ 32 by rw [Nat.shiftLeft_eq]; omega),
    Nat.mod_eq_of_lt (show k <<< 16 < 2 ^ 32 by rw [Nat.shiftLeft_eq]; omega),
    or_shiftLeft_eq (n := 8) (by omega), or_shiftLeft_eq (n := 16) (by omega)]
  omega

/-- A format F word as a number. -/
theorem encodeF_eq {opc : Nat} (h : opc < 256) (b : Bool) :
    encodeF opc b = BitVec.ofNat 32 (opc + 256 * b.toNat) := by
  apply BitVec.eq_of_toNat_eq
  simp only [encodeF, BitVec.toNat_or, BitVec.toNat_shiftLeft, BitVec.toNat_ofNat]
  have hb : b.toNat < 2 := b.toNat_lt
  rw [Nat.mod_eq_of_lt (show opc < 2 ^ 32 by omega), Nat.mod_eq_of_lt (show b.toNat < 2 ^ 32 by omega),
    Nat.mod_eq_of_lt (show b.toNat <<< 8 < 2 ^ 32 by rw [Nat.shiftLeft_eq]; omega),
    or_shiftLeft_eq (n := 8) (by omega)]
  omega

end Sys2Proof
end

