-- ==== Sys2Proof/Laws/Run.lean ====
section
/-! SUPPORT. A whole run: what its slices change, how they count, and that every command keeps DMEM
canonical. -/

namespace Sys2Proof.Machine

/-! ## The three parts of a run change DMEM and the drawing only -/

theorem fillInit_fixed (s : State) :
    fillInit s = { s with dmem := (fillInit s).dmem, draws := (fillInit s).draws } := by
  unfold fillInit; split <;> rfl

theorem fillCurrentSlice_fixed (s : State) :
    fillCurrentSlice s =
      { s with dmem := (fillCurrentSlice s).dmem, draws := (fillCurrentSlice s).draws } := by
  unfold fillCurrentSlice; split <;> rfl

theorem writeTag_fixed (s : State) :
    writeTag s = { s with dmem := (writeTag s).dmem, draws := (writeTag s).draws } := by
  unfold writeTag; split <;> rfl

/-- A slice changes DMEM, the drawing and the progress of the run, nothing else. -/
theorem effectA2Slice_fixed (s : State) :
    effectA2Slice s =
      { s with
        dmem := (effectA2Slice s).dmem
        draws := (effectA2Slice s).draws
        run := { s.run with
          st := (effectA2Slice s).run.st
          pass := (effectA2Slice s).run.pass
          slice := (effectA2Slice s).run.slice } } := by
  rw [effectA2Slice, fillCurrentSlice_fixed]
  simp only [RunCtx.afterSlice, RunCtx.advance]
  split <;> rfl

/-- Slices change DMEM, the drawing and the progress of the run, nothing else. -/
theorem fillSlices_fixed (n : Nat) (s : State) :
    fillSlices n s =
      { s with
        dmem := (fillSlices n s).dmem
        draws := (fillSlices n s).draws
        run := { s.run with
          st := (fillSlices n s).run.st
          pass := (fillSlices n s).run.pass
          slice := (fillSlices n s).run.slice } } := by
  induction n generalizing s with
  | zero => rfl
  | succ n ih =>
    rw [fillSlices, ih]
    generalize fillSlices n (effectA2Slice s) = v
    rw [effectA2Slice_fixed]

theorem effectA2Init_fixed (s : State) :
    effectA2Init s =
      { s with
        dmem := (effectA2Init s).dmem
        draws := (effectA2Init s).draws
        run := { s.run with st := .initFilled } } := by
  rw [effectA2Init, fillInit_fixed]

theorem effectA2Final_fixed (s : State) :
    effectA2Final s =
      { s with
        dmem := (effectA2Final s).dmem
        draws := (effectA2Final s).draws
        run := { s.run with st := .finalized } } := by
  rw [effectA2Final, writeTag_fixed]

/-- A whole run changes DMEM, the drawing and the run context, nothing else. -/
theorem effectA2Run_fixed (s : State) :
    effectA2Run s =
      { s with
        dmem := (effectA2Run s).dmem
        draws := (effectA2Run s).draws
        run := (effectA2Run s).run } := by
  rw [effectA2Run, effectA2Final_fixed, fillSlices_fixed, effectA2Init_fixed, effectA2H0]

/-! ## They do not read STATUS -/

theorem effectA2Init_complete (s : State) : effectA2Init s.complete = (effectA2Init s).complete := by
  have h : s.complete.initDefined = s.initDefined := rfl
  unfold effectA2Init fillInit
  rw [h]
  split <;> rfl

theorem effectA2Slice_complete (s : State) :
    effectA2Slice s.complete = (effectA2Slice s).complete := by
  have h : s.complete.sliceDefined = s.sliceDefined := rfl
  unfold effectA2Slice fillCurrentSlice
  rw [h]
  split <;> rfl

theorem effectA2Final_complete (s : State) :
    effectA2Final s.complete = (effectA2Final s).complete := by
  have h : s.complete.finalDefined = s.finalDefined := rfl
  unfold effectA2Final writeTag
  rw [h]
  split <;> rfl

/-! ## Where the registers name a matrix, nothing is open -/

theorem fillInit_defined {s : State} (h : s.initDefined = true) :
    fillInit s =
      { s with dmem := (List.range s.job.p).foldl (initLane s.job s.run.h0Bytes) s.dmem } := by
  rw [fillInit, if_pos h]

theorem fillCurrentSlice_defined {s : State} (h : s.sliceDefined = true) :
    fillCurrentSlice s =
      { s with
        dmem := fillSlice s.job s.run.pass.toNat s.run.slice.toNat
          (laneOrder s.cfg.laneWorkers s.job.p) s.dmem } := by
  rw [fillCurrentSlice, if_pos h]

theorem writeTag_defined {s : State} (h : s.finalDefined = true) :
    writeTag s =
      { s with
        dmem := s.dmem.write s.a2.tagAddr.toNat
          (hPrime s.a2.taglen.toNat (lastColumn s.job s.dmem).bytes) } := by
  rw [writeTag, if_pos h]

/-! ## The slices of a run -/

theorem RunCtx.afterSlice_pass (r : RunCtx) (t : U32) :
    (r.afterSlice t).pass = if r.slice = 3 then r.pass + 1 else r.pass := by
  simp only [afterSlice, advance]; split <;> rfl

theorem RunCtx.afterSlice_slice (r : RunCtx) (t : U32) :
    (r.afterSlice t).slice = if r.slice = 3 then 0 else r.slice + 1 := by
  simp only [afterSlice, advance]; split <;> rfl

theorem RunCtx.afterSlice_st (r : RunCtx) (t : U32) :
    (r.afterSlice t).st =
      if (if r.slice = 3 then r.pass + 1 else r.pass) = t then .filled else .filling := by
  simp only [afterSlice, advance]; split <;> rfl

/-- The pass and the slice count the slices done, four to a pass (R208). -/
theorem RunCtx.afterSlice_count {r : RunCtx} {t : U32} {k : Nat} (hp : r.pass.toNat = k / 4)
    (hs : r.slice.toNat = k % 4) (hk : k < 4 * t.toNat) :
    (r.afterSlice t).pass.toNat = (k + 1) / 4 ∧ (r.afterSlice t).slice.toNat = (k + 1) % 4 ∧
      (r.afterSlice t).st = if k + 1 = 4 * t.toNat then .filled else .filling := by
  have ht := t.isLt
  have h3 : r.slice = 3 ↔ k % 4 = 3 := by
    rw [← hs, ← BitVec.toNat_inj]; rfl
  have hp1 : (r.pass + 1).toNat = k / 4 + 1 := by
    rw [BitVec.toNat_add, hp]; simp; omega
  have hs1 : (r.slice + 1).toNat = k % 4 + 1 := by
    rw [BitVec.toNat_add, hs]; simp; omega
  rw [afterSlice_pass, afterSlice_slice, afterSlice_st]
  by_cases h : r.slice = 3
  · have hk3 := h3.mp h
    rw [if_pos h, if_pos h, hp1]
    refine ⟨by omega, by simp; omega, ?_⟩
    have : r.pass + 1 = t ↔ k + 1 = 4 * t.toNat := by
      rw [← BitVec.toNat_inj, hp1]; omega
    simp only [this]
  · have hk3 : k % 4 ≠ 3 := fun e => h (h3.mpr e)
    rw [if_neg h, if_neg h, hp, hs1]
    refine ⟨by omega, by omega, ?_⟩
    have h1 : r.pass ≠ t := by rw [ne_eq, ← BitVec.toNat_inj, hp]; omega
    rw [if_neg h1, if_neg (by omega)]

/-- `n` slices after `k` make `k + n`. -/
theorem fillSlices_count {n k : Nat} {s : State} (hp : s.run.pass.toNat = k / 4)
    (hs : s.run.slice.toNat = k % 4) (hn : k + n ≤ 4 * s.a2.t.toNat) :
    (fillSlices n s).run.pass.toNat = (k + n) / 4 ∧
      (fillSlices n s).run.slice.toNat = (k + n) % 4 ∧
      (1 ≤ n → (fillSlices n s).run.st =
        if k + n = 4 * s.a2.t.toNat then .filled else .filling) := by
  induction n generalizing s k with
  | zero => exact ⟨hp, hs, fun h => absurd h (by omega)⟩
  | succ n ih =>
    obtain ⟨h1, h2, h3⟩ := RunCtx.afterSlice_count (t := s.a2.t) hp hs (by omega)
    have ha : (effectA2Slice s).a2 = s.a2 := by rw [effectA2Slice_fixed]
    have := ih (s := effectA2Slice s) (k := k + 1) h1 h2 (by rw [ha]; omega)
    rw [ha] at this
    rw [fillSlices, show k + (n + 1) = k + 1 + n by omega]
    refine ⟨this.1, this.2.1, fun _ => ?_⟩
    rcases Nat.eq_zero_or_pos n with rfl | hpos
    · exact h3
    · exact this.2.2 hpos

/-- The invariant of the slices of a run: what holds of the machine before a slice and is kept by each
slice holds after all of them. -/
theorem fillSlices_induction {P : State → Prop} (hP : ∀ s, P s → P (effectA2Slice s)) {n : Nat}
    {s : State} (h : P s) : P (fillSlices n s) := by
  induction n generalizing s with
  | zero => exact h
  | succ n ih => exact ih (hP s h)

/-! ## A run whose checks pass leaves nothing open -/

/-- The run registers name a matrix of R192 that lies in DMEM. -/
def State.namesMatrix (s : State) : Prop :=
  2 ≤ s.job.seg ∧ s.job.q = 4 * s.job.seg ∧ s.matrixInside = true

theorem State.namesMatrix.initDefined {s : State} (h : s.namesMatrix) : s.initDefined = true := by
  rw [State.initDefined, h.2.2, Bool.and_true, decide_eq_true_iff, h.2.1]
  have := h.1; omega

theorem State.namesMatrix.sliceDefined {s : State} (h : s.namesMatrix) (hs : s.run.slice.toNat ≤ 3) :
    s.sliceDefined = true := by simp [State.sliceDefined, h.1, h.2.1, h.2.2, hs]

theorem State.namesMatrix.finalDefined {s : State} (h : s.namesMatrix)
    (ht : s.valid (tagRegion s.a2).1 (tagRegion s.a2).2 = true) : s.finalDefined = true := by
  rw [State.finalDefined, h.2.2, ht, Bool.and_true, Bool.and_true, decide_eq_true_iff, h.2.1]
  have := h.1; omega

/-- What the checks of A2.H0 and A2.RUN establish (R201, R202). -/
theorem checkParams_none {s : State} (h : checkParams s = none) :
    badParams s.a2 = false ∧
      (∀ r ∈ inputRegions s.a2 ++ [tagRegion s.a2], s.valid r.1 r.2 = true) ∧
      s.valid (matrixRegion s.a2).1 (matrixRegion s.a2).2 = true := by
  unfold checkParams at h
  split at h
  · cases h
  · rename_i hb
    split at h
    · rename_i hr
      split at h
      · exact ⟨by rwa [Bool.not_eq_true] at hb, List.all_eq_true.mp hr, by assumption⟩
      · cases h
    · cases h

/-- A2.H0 names a matrix (R192, R206). -/
theorem effectA2H0_namesMatrix {s : State} (h : checkParams s = none) :
    (effectA2H0 s).namesMatrix := by
  obtain ⟨hb, -, hm⟩ := checkParams_none h
  have hb' : 1 ≤ s.a2.p.toNat ∧ 8 * s.a2.p.toNat ≤ s.a2.m.toNat := by
    simp [badParams] at hb; omega
  have hlt := s.a2.m.isLt
  have h2 := laneLen_le s.a2.m.toNat hb'.1
  have h3 := four_mul_segLen s.a2.m.toNat s.a2.p.toNat
  have eq : (effectA2H0 s).job.q = laneLen s.a2.m.toNat s.a2.p.toNat := toNat_ofNat_of_le h2 hlt
  have es : (effectA2H0 s).job.seg = segLen s.a2.m.toNat s.a2.p.toNat :=
    toNat_ofNat_of_le (m := s.a2.m.toNat) (by omega) hlt
  refine ⟨by rw [es]; exact two_le_segLen hb'.1 hb'.2, by rw [eq, es, h3], ?_⟩
  rw [State.matrixInside, eq]
  exact hm

theorem effectA2Init_namesMatrix {s : State} (h : s.namesMatrix) : (effectA2Init s).namesMatrix := by
  rw [effectA2Init_fixed]; exact h

theorem effectA2Slice_namesMatrix {s : State} (h : s.namesMatrix) :
    (effectA2Slice s).namesMatrix := by
  rw [effectA2Slice_fixed]; exact h

theorem effectA2Slice_slice_le {s : State} (h : s.run.slice.toNat ≤ 3) :
    (effectA2Slice s).run.slice.toNat ≤ 3 := by
  show (s.run.afterSlice s.a2.t).slice.toNat ≤ 3
  rw [RunCtx.afterSlice_slice]
  split
  · decide
  · have h3 : s.run.slice.toNat ≠ 3 := fun e => ‹¬_› (BitVec.eq_of_toNat_eq e)
    rw [BitVec.toNat_add]
    simp; omega

/-- The slices of a run leave nothing open, and still name the matrix. -/
theorem fillSlices_defined (n : Nat) {s : State} (h : s.namesMatrix) (hs : s.run.slice.toNat ≤ 3) :
    (fillSlices n s).namesMatrix ∧ (fillSlices n s).run.slice.toNat ≤ 3 ∧
      (fillSlices n s).draws = s.draws := by
  induction n generalizing s with
  | zero => exact ⟨h, hs, rfl⟩
  | succ n ih =>
    obtain ⟨h1, h2, h3⟩ := ih (effectA2Slice_namesMatrix h) (effectA2Slice_slice_le hs)
    refine ⟨h1, h2, h3.trans ?_⟩
    show (fillCurrentSlice s).draws = s.draws
    rw [fillCurrentSlice_defined (h.sliceDefined hs)]

/-- A whole run whose checks pass leaves nothing open. -/
theorem effectA2Run_defined {s : State} (h : checkParams s = none) :
    (fillSlices (4 * s.a2.t.toNat) (effectA2Init (effectA2H0 s))).finalDefined = true ∧
      (effectA2Run s).draws = s.draws := by
  have h0 := effectA2H0_namesMatrix h
  obtain ⟨h1, -, h2⟩ := fillSlices_defined (4 * s.a2.t.toNat) (effectA2Init_namesMatrix h0)
    (by rw [effectA2Init_fixed]; show (0 : U32).toNat ≤ 3; decide)
  have hf : (fillSlices (4 * s.a2.t.toNat) (effectA2Init (effectA2H0 s))).finalDefined = true := by
    apply h1.finalDefined
    have ht := (checkParams_none h).2.1 (tagRegion s.a2) (by simp)
    rw [fillSlices_fixed, effectA2Init_fixed]
    exact ht
  refine ⟨hf, ?_⟩
  show (writeTag _).draws = _
  rw [writeTag_defined hf]
  refine h2.trans ?_
  show (fillInit (effectA2H0 s)).draws = s.draws
  rw [fillInit_defined h0.initDefined]
  rfl

/-! ## DMEM stays canonical -/

theorem effectA2Slice_wf {s : State} (h : s.dmem.wf) : (effectA2Slice s).dmem.wf := by
  show (fillCurrentSlice s).dmem.wf
  unfold fillCurrentSlice
  split
  · exact fillSlice_wf _ h
  · exact State.openBytes_wf h _

theorem effectA2Init_wf {s : State} (h : s.dmem.wf) : (effectA2Init s).dmem.wf := by
  show (fillInit s).dmem.wf
  unfold fillInit
  split
  · exact foldl_wf _ (fun _ a h => initLane_wf h a) _ h
  · exact State.openBytes_wf h _

theorem effectA2Final_wf {s : State} (h : s.dmem.wf) : (effectA2Final s).dmem.wf := by
  show (writeTag s).dmem.wf
  unfold writeTag
  split
  · exact Memory.write_wf h _ _
  · exact State.openBytes_wf h _

/-- Every command keeps DMEM canonical. -/
theorem effectOf_wf (i : Instr) {s : State} (h : s.dmem.wf) : (effectOf i s).dmem.wf := by
  cases i with
  | b2bFinal => exact Memory.write_wf h _ _
  | b2bHash nn kk => exact Memory.write_wf h _ _
  | b2bLong => exact Memory.write_wf h _ _
  | a2Init => exact effectA2Init_wf h
  | a2Slice => exact effectA2Slice_wf h
  | a2Final => exact effectA2Final_wf h
  | a2Run =>
    have h1 : (effectA2Init (effectA2H0 s)).dmem.wf := effectA2Init_wf (s := effectA2H0 s) h
    have h2 := fillSlices_induction (P := fun s => s.dmem.wf) (fun _ h => effectA2Slice_wf h)
      (n := 4 * s.a2.t.toNat) h1
    exact effectA2Final_wf h2
  | a2G xor => exact Memory.write_wf h _ _
  | a2Addr => exact Memory.write_wf h _ _
  | _ => exact h

theorem exec_wf {i : Instr} {s t : State} (h : s.dmem.wf) (ht : exec i s = .next t) :
    t.dmem.wf := by
  rcases exec_cases ht with ⟨_, rfl⟩ | ⟨e, _, rfl⟩
  · exact effectOf_wf i h
  · exact h

/-! ## The registers a command leaves alone -/

/-- No command's effect changes a register that only the host, acceptance or completion writes. -/
theorem effectOf_fixed (i : Instr) (s : State) :
    effectOf i s =
      { s with
        res0 := (effectOf i s).res0
        res1 := (effectOf i s).res1
        hash := (effectOf i s).hash
        run := (effectOf i s).run
        dmem := (effectOf i s).dmem
        draws := (effectOf i s).draws } := by
  cases i with
  | a2Run =>
    have h := effectA2Run_fixed s
    have h0 : (effectA2Run s).res0 = s.res0 := by rw [h]
    have h1 : (effectA2Run s).res1 = s.res1 := by rw [h]
    have h2 : (effectA2Run s).hash = s.hash := by rw [h]
    simp only [effectOf, h0, h1, h2]
    exact h
  | a2Init => rw [effectOf, effectA2Init_fixed]
  | a2Slice => rw [effectOf, effectA2Slice_fixed]
  | a2Final => rw [effectOf, effectA2Final_fixed]
  | _ => rfl

end Sys2Proof.Machine
end

