-- ==== Sys2Proof/Tests/Slice0.lean ====
section
/-! SUPPORT. Tests of the model and witnesses for the statements.  Expected values are those of
95_test_vectors.md (its section is named at each test) or are written out from the encoding tables of
30_encoding.md. -/

namespace Sys2Proof.Tests

-- One theorem at a time: the kernel's evaluations below are long, and side by side they use up memory.
set_option Elab.async false

open Sys2Proof Sys2Proof.Machine Sys2Proof.Claims

/-! ## Small states -/

/-- What `f` sees after one step on the word `w`. -/
def after {α : Type} (w : Nat) (s : State) (f : State → α) : Option α :=
  match step (s.withFetchWord 32 w) with
  | .next t => some (f t)
  | .fault _ => none
  | .refused _ => none

/-- STATUS after one step on the word `w`. -/
def statusAfter (w : Nat) (s : State) : Option Nat := after w s (fun t => t.status.word.toNat)

/-- A state with one ARG register set. -/
def withArg (n : Fin 8) (v : Word) (s : State) : State := { s with args := s.args.set n v }

/-- A state with bytes placed in DMEM. -/
def withBytes (a : Nat) (bs : List Byte) (s : State) : State := { s with dmem := s.dmem.write a bs }

/-- "abc" at address 0. -/
def abcState : State := withBytes 0 [0x61, 0x62, 0x63] (withArg 1 3 State.reset)

/-- The HashState after B2B.INIT outlen=64, keylen=0. -/
def freshHash : HashState := HashState.reset.init 64 []

/-- A hash of 64 bytes in progress. -/
def absorbing : State := { abcState with hash := freshHash }

/-- The configuration of Program 3 (L3): m = 8, t = 1, p = 1, T = 4, y = 0. -/
def smallConfig : A2Config :=
  { A2Config.reset with
    m := 8, t := 1, p := 1, taglen := 4, version := 0x13, pwdLen := 2, saltAddr := 0x10, saltLen := 8,
    mbase := 0x1000, tagAddr := 0x40 }

/-- A run in a state of its life, with the sizes of `smallConfig`. -/
def runIn (st : A2St) (pass slice : U32) : State :=
  { State.reset with
    a2 := smallConfig
    run := { RunCtx.reset with
      st := st, pass := pass, slice := slice, mprime := 8, lanelen := 8, seglen := 2 } }

/-- The configuration of L1.5 (Argon2i): m = 32, t = 3, p = 4, T = 32, y = 1. -/
def rfcConfig : A2Config :=
  { A2Config.reset with
    m := 32, t := 3, p := 4, taglen := 32, version := 0x13, ty := 1, pwdLen := 32, saltAddr := 0x20,
    saltLen := 16, secretAddr := 0x30, secretLen := 8, adAddr := 0x38, adLen := 12,
    mbase := 0x1000, tagAddr := 0x80 }

/-- The run context of L1.5. -/
def rfcRun : State :=
  { State.reset with
    a2 := rfcConfig
    run := { RunCtx.reset with st := .filling, pass := 1, mprime := 32, lanelen := 8, seglen := 2 } }

/-- The inputs of L1.5 in DMEM. -/
def rfcStart : State :=
  withBytes 0x38 (List.replicate 12 4) (withBytes 0x30 (List.replicate 8 3)
    (withBytes 0x20 (List.replicate 16 2) (withBytes 0 (List.replicate 32 1)
      { State.reset with a2 := rfcConfig })))

/-- An engine that runs the word `w`, and the host about to make the access `op`. -/
def busyWith (w : U32) (op : HostOp) (s : State) : State :=
  { s.accept w with inputs := [op] }

/-! ## Well-formedness -/

theorem test_wf_refuses_long_outlen : (Instr.b2bInit 256 0).wf = false := by decide

theorem test_wf_refuses_long_keylen : (Instr.b2bInit 0 256).wf = false := by decide

theorem test_wf_refuses_long_hash_outlen : (Instr.b2bHash 256 0).wf = false := by decide

theorem test_wf_refuses_long_hash_keylen : (Instr.b2bHash 0 256).wf = false := by decide

theorem test_wf_accepts_byte_fields : (Instr.b2bHash 255 255).wf = true := by decide

/-! ## Decoding (R112, R113, R114, R117) -/

theorem test_decode_b2b : decode 0x00404001 = .ok (.b2bInit 64 64) ∧
    decode 0x00000002 = .ok .b2bUpdate ∧ decode 0x00000003 = .ok .b2bFinal ∧
    decode 0x00000004 = .ok (.b2bCompress false) ∧ decode 0x00000104 = .ok (.b2bCompress true) ∧
    decode 0x00402005 = .ok (.b2bHash 32 64) ∧ decode 0x00000008 = .ok .b2bLong := by decide

theorem test_decode_a2_fill : decode 0x00000010 = .ok .a2H0 ∧ decode 0x00000011 = .ok .a2Init ∧
    decode 0x00000012 = .ok .a2Slice ∧ decode 0x00000013 = .ok .a2Final ∧
    decode 0x00000014 = .ok .a2Run ∧ decode 0x00000015 = .ok .a2Abort ∧
    decode 0x00000018 = .ok (.a2G false) ∧ decode 0x00000118 = .ok (.a2G true) := by decide

theorem test_decode_a2_addressing : decode 0x00000020 = .ok .a2Mode ∧
    decode 0x00000021 = .ok .a2Addr ∧ decode 0x00000022 = .ok .a2Index := by decide

theorem test_decode_reserved_opcodes :
    ∀ opc ∈ [0x00, 0x06, 0x07, 0x09, 0x0F, 0x16, 0x17, 0x19, 0x1F, 0x23, 0xFF],
      decode (BitVec.ofNat 32 opc) = .error .reservedOpcode := by decide

theorem test_decode_reserved_bits : decode 0x01004001 = .error .reservedBit ∧
    decode 0x00000102 = .error .reservedBit ∧ decode 0x00000204 = .error .reservedBit ∧
    decode 0x00010008 = .error .reservedBit ∧ decode 0x00008015 = .error .reservedBit ∧
    decode 0x80000022 = .error .reservedBit := by decide

theorem test_table_word : decodeTableWord 32 0x00402005 = some (.b2bHash 32 64) ∧
    decodeTableWord 8 0x12 = some .a2Slice ∧ decodeTableWord 32 6 = none := by decide

theorem test_assembler :
    Instr.ofAsm "B2B.INIT outlen=64, keylen=0" = some (.b2bInit 64 0) ∧
    Instr.ofAsm "b2b.hash keylen=64" = some (.b2bHash 0 64) ∧
    Instr.ofAsm "A2.G xor=1" = some (.a2G true) ∧ Instr.ofAsm "A2.SLICE" = some .a2Slice ∧
    Instr.ofAsm "A2.SLICE xor=1" = none ∧ Instr.ofAsm "B2B.COMPRESS last=2" = none ∧
    Instr.ofAsm (Instr.b2bHash 32 64).asm = some (.b2bHash 32 64) := by decide +kernel

/-! ## Blake2b (L1, L2.1) -/

theorem test_ror64 : ror64 0xEFCDAB8967452301 32 = 0x67452301EFCDAB89 ∧
    ror64 0xEFCDAB8967452301 24 = 0x452301EFCDAB8967 ∧
    ror64 0xEFCDAB8967452301 16 = 0x2301EFCDAB896745 ∧
    ror64 0xEFCDAB8967452301 63 = 0xDF9B5712CE8A4603 := by decide

theorem test_init_state :
    after 0x00004001 State.reset
      (fun t => (t.hash.h[0], t.hash.h[1], t.hash.statWord, t.status.word)) =
        some (0x6A09E667F2BDC948, 0xBB67AE8584CAA73B, 0x00400001, 0x00000002) ∧
    after 0x00404001 State.reset (fun t => t.hash.statWord) = some 0x00408001 ∧
    after 0x00012001 State.reset (fun t => t.hash.statWord) = some 0x00208001 := by decide +kernel

theorem test_init_errors :
    statusAfter 0x00000001 State.reset = some 0x306 ∧
    statusAfter 0x00004101 State.reset = some 0x306 ∧
    statusAfter 0x00414001 State.reset = some 0x306 ∧
    statusAfter 0x00404001 (withArg 0 (0x10000 - 63) State.reset) = some 0x206 ∧
    statusAfter 0x00404001 (withArg 0 (0x10000 - 64) State.reset) = some 0x002 ∧
    statusAfter 0x01004001 State.reset = some 0x106 := by decide +kernel

theorem test_update_abc : after 0x00000002 absorbing (fun t => (t.hash.statWord, t.hash.t)) =
    some (0x00400301, 0) := by decide +kernel

theorem test_update_errors :
    statusAfter 0x00000002 State.reset = some 0x406 ∧
    statusAfter 0x00000102 State.reset = some 0x106 ∧
    statusAfter 0x00000002 (withArg 0 0xFFFFFFFF (withArg 1 0 absorbing)) = some 0x002 ∧
    statusAfter 0x00000002 (withArg 1 0x10001 absorbing) = some 0x206 := by decide +kernel

/-- L1.2, L3 Program 1: the digest of "abc" is written, the counter is 3. -/
theorem test_final_abc :
    after 0x00000003 (withArg 2 0x100
        { abcState with hash := freshHash.absorb [0x61, 0x62, 0x63] })
      (fun t => (t.dmem.read 0x100 8, t.hash.statWord, t.hash.t, t.hash.h[7])) =
    some ([0xba, 0x80, 0xa5, 0x3f, 0x98, 0x1c, 0x4d, 0x0d], 0x00400002, 3, 0x239900D4ED8623B9) := by
  decide +kernel

theorem test_final_errors :
    statusAfter 0x00000003 State.reset = some 0x406 ∧
    statusAfter 0x00000003 (withArg 2 0x10000 absorbing) = some 0x206 := by decide +kernel

/-- The last row of the COMPRESS table: t = 2^64, block of zeros. -/
theorem test_compress_counter_high :
    after 0x00000004 (withBytes 0 (zeros 128)
        { State.reset with hash := { freshHash with t1 := 1, st := .uninit } })
      (fun t => (t.hash.h[0], t.hash.t1)) =
    some (0xF96013FC926706C6, 1) := by decide +kernel

theorem test_compress_range_and_reserved :
    statusAfter 0x00000104 (withArg 0 0xFF81 State.reset) = some 0x206 ∧
    statusAfter 0x00000204 State.reset = some 0x106 := by decide +kernel

/-- L1.3, the keyed entry n = 0. -/
theorem test_hash_keyed_empty :
    after 0x00404005 (withArg 2 0x100 (withBytes 0 ((List.range 64).map (BitVec.ofNat 8)) State.reset))
      (fun t => (t.dmem.read 0x100 8, t.hash.statWord)) =
    some ([0x10, 0xeb, 0xb6, 0x77, 0x00, 0xb1, 0x86, 0x8e], 0) := by decide +kernel

theorem test_hash_errors :
    statusAfter 0x00000005 State.reset = some 0x306 ∧
    statusAfter 0x00004005 (withArg 2 0xFFC1 State.reset) = some 0x206 := by decide +kernel

/-! ## Blake2b-Long (L2.2) -/

theorem test_long_four : after 0x00000008 (withArg 3 4 (withArg 2 0x200 abcState))
    (fun t => t.dmem.read 0x200 4) = some [0x3e, 0x6c, 0x02, 0xac] := by decide +kernel

theorem test_long_errors :
    statusAfter 0x00000008 abcState = some 0x306 ∧
    statusAfter 0x00000008 (withArg 3 100 (withArg 2 (0x10000 - 99) abcState)) = some 0x206 ∧
    statusAfter 0x00010008 abcState = some 0x106 := by decide +kernel

/-! ## Argon2 fill (L1.5, L2.3) -/

theorem test_sizes : (laneLen 9 1, segLen 9 1, mPrime 9 1) = (8, 2, 8) ∧
    (laneLen 35 2, segLen 35 2, mPrime 35 2) = (16, 4, 32) ∧
    (laneLen 65536 4, segLen 65536 4, mPrime 65536 4) = (16384, 4096, 65536) := by decide

/-- L1.5: the seed and the sizes. -/
theorem test_h0_rfc : after 0x00000010 rfcStart
    (fun t => (t.run.h0reg[0], t.run.h0reg[15], t.run.mprime, t.run.lanelen, t.run.seglen, t.run.st)) =
      some (0x816560C4, 0xA9DAFD64, 32, 8, 2, .seedDerived) := by decide +kernel

theorem test_h0_errors :
    statusAfter 0x00000010 State.reset = some 0x306 ∧
    statusAfter 0x00000010 { State.reset with a2 := { smallConfig with ty := 3 } } = some 0x306 ∧
    statusAfter 0x00000010 { State.reset with a2 := { smallConfig with taglen := 0 } } = some 0x306 ∧
    statusAfter 0x00000010 { State.reset with a2 := { smallConfig with t := 0, saltLen := 0x10001 } } =
      some 0x306 ∧
    statusAfter 0x00000010 { State.reset with a2 := { smallConfig with saltLen := 0xFFF1 } } =
      some 0x206 ∧
    statusAfter 0x00000010 { State.reset with a2 := { smallConfig with mbase := 0xE001 } } =
      some 0x606 ∧
    statusAfter 0x00000010 { State.reset with a2 := { smallConfig with mbase := 0xE000 } } =
      some 0x002 ∧
    statusAfter 0x00000010 (runIn .filling 0 1) = some 0x506 := by decide +kernel

/-- L1.5: the first bytes of Blk(0, 0), little-endian of 0xF8F9E84545DB08F6. -/
theorem test_initial_block :
    (initialBlock
        [0xc4, 0x60, 0x65, 0x81, 0x52, 0x76, 0xa0, 0xb3, 0xe7, 0x31, 0x73, 0x1c, 0x90, 0x2f, 0x1f, 0xd8,
         0x0c, 0xf7, 0x76, 0x90, 0x7f, 0xbb, 0x7b, 0x6a, 0x5c, 0xa7, 0x2e, 0x7b, 0x56, 0x01, 0x1f, 0xee,
         0xca, 0x44, 0x6c, 0x86, 0xdd, 0x75, 0xb9, 0x46, 0x9a, 0x5e, 0x68, 0x79, 0xde, 0xc4, 0xb7, 0x2d,
         0x08, 0x63, 0xfb, 0x93, 0x9b, 0x98, 0x2e, 0x5f, 0x39, 0x7c, 0xc7, 0xd1, 0x64, 0xfd, 0xda, 0xa9]
        0 0).take 8 = [0xf6, 0x08, 0xdb, 0x45, 0x45, 0xe8, 0xf9, 0xf8] := by decide +kernel

theorem test_init_needs_a_seed :
    statusAfter 0x00000011 State.reset = some 0x506 ∧
    statusAfter 0x00000011 (runIn .initFilled 0 0) = some 0x506 := by decide +kernel

/-- L3 Program 3: slice (0, 0) has nothing to fill; the run goes on to slice 1. -/
theorem test_slice_progress : after 0x00000012 (runIn .initFilled 0 0)
    (fun t => (t.run.st, t.run.pass, t.run.slice)) = some (.filling, 0, 1) ∧
    (runIn .filling 0 3).run.afterSlice 1 = { (runIn .filled 1 0).run with st := .filled } := by
  decide +kernel

theorem test_slice_errors :
    statusAfter 0x00000012 (runIn .seedDerived 0 0) = some 0x506 ∧
    statusAfter 0x00000012 (runIn .filled 1 0) = some 0x506 := by decide +kernel

theorem test_final_needs_filled :
    statusAfter 0x00000013 (runIn .filling 0 3) = some 0x506 ∧
    after 0x00000013 (runIn .filled 1 0) (fun t => (t.run.st, t.run.pass, t.status.word)) =
      some (.finalized, 1, 2) := by decide +kernel

theorem test_run_errors :
    statusAfter 0x00000014 { State.reset with a2 := { smallConfig with m := 15, p := 2 } } =
      some 0x306 ∧
    statusAfter 0x00000014 (runIn .seedDerived 0 0) = some 0x506 := by decide +kernel

theorem test_abort : after 0x00000015 (runIn .filling 0 2)
    (fun t => (t.run, t.status.word)) = some (RunCtx.reset, 2) ∧
    statusAfter 0x00008015 (runIn .filling 0 2) = some 0x106 := by decide +kernel

/-- GB on four words of an otherwise zero vector. -/
def gbOn (a b c d : Word) : Word × Word × Word × Word :=
  let v := gb (((((Vector.replicate 16 0).set 0 a).set 4 b).set 8 c).set 12 d) 0 4 8 12
  (v[0], v[4], v[8], v[12])

theorem test_gb :
    gbOn 1 2 3 4 = (0x0000010000002D07, 0x5A0E02060E2A0606, 0x2D07000307150003, 0x2D07000001030000) ∧
    gbOn 0xFFFFFFFFFFFFFFFF 0xFFFFFFFFFFFFFFFF 0 0 =
      (0x000003FBFFFFFF00, 0x11E407FE37BA01F8, 0x08F20000E422FFFC, 0x00FC000003FB0000) := by
  decide +kernel

/-- G(X, ZERO) with X.w[k] = k. -/
theorem test_g_counting_block :
    let g := blockG (Vector.ofFn fun k => BitVec.ofNat 64 k.val) Block.zero
    (g[0], g[1], g[127]) = (0xC1B5682006CAB594, 0xEAF582377F3B0190, 0x364D79FA588ABF87) := by
  decide +kernel

theorem test_g_range : statusAfter 0x00000018 (withArg 2 (0x10000 - 1023) State.reset) = some 0x206 ∧
    statusAfter 0x00000218 State.reset = some 0x106 := by decide +kernel

/-! ## Argon2 addressing (L2.4) -/

theorem test_mode : after 0x00000020 (withArg 0 2 (withArg 2 1 State.reset)) (fun t => t.res0) =
    some 1 ∧ after 0x00000020 (withArg 0 2 (withArg 2 2 State.reset)) (fun t => t.res0) = some 0 ∧
    after 0x00000020 (withArg 0 1 (withArg 1 0xFFFFFFFF State.reset)) (fun t => t.res0) = some 1 := by
  decide +kernel

theorem test_mode_errors : statusAfter 0x00000020 (withArg 0 3 State.reset) = some 0x306 ∧
    statusAfter 0x00000020 (withArg 2 4 State.reset) = some 0x306 := by decide +kernel

/-- Words 0 and 2 of the address block of the L1.5 run at r = l = s = 0, counter 1. -/
theorem test_addr_block : after 0x00000021 (withArg 3 1 (withArg 4 0x9000 rfcRun))
    (fun t => (word64At (t.dmem.read 0x9000 8) 0, word64At (t.dmem.read 0x9010 8) 0)) =
      some (0xD66F57259D654B1B, 0x61C8E2257A13CB42) := by decide +kernel

theorem test_addr_errors : statusAfter 0x00000021 State.reset = some 0x506 ∧
    statusAfter 0x00000021 (withArg 0 3 rfcRun) = some 0x306 ∧
    statusAfter 0x00000021 (withArg 4 0xFC01 rfcRun) = some 0x206 := by decide +kernel

/-- One row of the A2.INDEX table. -/
def indexRow (w : Word) (r s l i : Word) : Option (Word × Word) :=
  after 0x00000022 (withArg 0 w (withArg 1 r (withArg 2 s (withArg 3 l (withArg 4 i rfcRun)))))
    (fun t => (t.res0, t.res1))

theorem test_index_rows :
    indexRow 0x0F8BA8FD15D17118 0 1 0 0 = some (1, 0) ∧
    indexRow 0x0000000280000000 0 2 1 1 = some (2, 2) ∧
    indexRow 0x0000000000000000 1 0 0 0 = some (0, 6) ∧
    indexRow 0x00000000FFFFFFFF 1 0 0 0 = some (0, 2) ∧
    indexRow 0x0000000000000000 1 0 0 1 = some (0, 7) ∧
    indexRow 0x00000000FFFFFFFF 1 3 0 1 = some (0, 0) ∧
    indexRow 0x0000000500000000 1 3 1 0 = some (1, 4) ∧
    indexRow 0x00000007FFFFFFFF 1 2 3 1 = some (3, 6) := by decide +kernel

theorem test_index_errors : statusAfter 0x00000022 State.reset = some 0x506 ∧
    statusAfter 0x00000022 (withArg 4 1 rfcRun) = some 0x306 ∧
    statusAfter 0x00000022 (withArg 1 1 (withArg 4 2 rfcRun)) = some 0x306 := by decide +kernel

/-! ## STATUS, CMD, reset (L2.5) -/

/-- STATUS of an engine whose last command ended with B2B_STATE: 0x406. -/
def failedOnce : State :=
  { State.reset with
    status := { busy := false, done := true, err := true, overrun := false, errcode := some .b2bState } }

theorem test_status_write_one_to_clear :
    failedOnce.status.word = 0x406 ∧ (failedOnce.writeReg 4 4).status.word = 0x2 ∧
    (failedOnce.writeReg 4 6).status.word = 0 ∧
    ({ failedOnce.writeReg 4 4 with status.overrun := true }.writeReg 4 8).status.word = 0x2 := by
  decide +kernel

theorem test_acceptance_and_overrun :
    (failedOnce.writeReg 0 8).status.word = 1 ∧ (failedOnce.writeReg 0 8).cmd = 8 ∧
    ((failedOnce.writeReg 0 8).writeReg 0 0x15).status.word = 9 ∧
    ((failedOnce.writeReg 0 8).writeReg 0 0x15).cmd = 8 := by decide +kernel

theorem test_error_records_the_word :
    after 6 State.reset (fun t => (t.status.word, t.errcmd)) = some (0x106, 6) := by decide +kernel

theorem test_argument_halves :
    (withArg 0 0x750E0D91618DC383 State.reset).readReg 0x020 = 0x618DC383 ∧
    (withArg 0 0x750E0D91618DC383 State.reset).readReg 0x024 = 0x750E0D91 ∧
    ((State.reset.writeReg 0x05C 7).arg 7) = 0x0000000700000000 := by decide +kernel

theorem test_host_step : step { State.reset with inputs := [.wr 0x008 1] } =
    .next { State.reset with
      irqEn := true
      turn := if Config.engineFirst 0 then .engine else .host
      draws := 1 } := rfl

/-! ## Witnesses

For each statement with hypotheses, states and operands that meet them together, clause by clause, at
the ends of their ranges. -/

/-- An engine running B2B.HASH outlen=32 of "abc" with the digest at 0x100, the host to move. -/
def hashing (op : HostOp) : State := busyWith 0x00002005 op (withArg 2 0x100 abcState)

/-- The same with the engine to move. -/
def hashingNext : State := { hashing (.rd 4) with turn := .engine }

/-- An idle engine with one access of the host pending. -/
def idleWith (op : HostOp) : State := { abcState with inputs := [op] }

/-- A configured engine with no run. -/
def configured : State := { State.reset with a2 := smallConfig }

theorem witness_EncodedCommandDecodesBack : (Instr.b2bInit 255 255).wf = true := rfl

theorem witness_DecodedWordEncodesBack : decode 0x00FFFF01 = .ok (.b2bInit 255 255) := by decide

theorem witness_DecodingIsTotalInOrder :
    opcField 0x01000023 ∉ opcodes ∧
    (opcField 0x01000001 ∈ opcodes ∧ reservedBits 0x01000001 ≠ 0) ∧
    (opcField 0x00000204 ∈ opcodes ∧ reservedBits 0x00000204 ≠ 0) ∧
    (opcField 0x00000102 ∈ opcodes ∧ reservedBits 0x00000102 ≠ 0) ∧
    (opcField 0x00FFFF05 ∈ opcodes ∧ reservedBits 0x00FFFF05 = 0) ∧
    (opcField 0x00000118 ∈ opcodes ∧ reservedBits 0x00000118 = 0) := by
  unfold opcodes reservedBits
  decide +kernel

theorem witness_StepRunsTheAcceptedCommand :
    (engineNext hashingNext ∧ hashingNext.raced = false ∧
      decode hashingNext.cmd = .ok (.b2bHash 32 0)) ∧
    engineNext { hashingNext with inputs := [], turn := .host } ∧
    ((hashing .wait).turn = .host ∧ engineNext (hashing .wait) ∧ engineNext (hashing .waitIrq)) ∧
    decodeTableWord 32 0x00002005 = some (.b2bHash 32 0) ∧
    nothingMoves State.reset ∧ nothingMoves (idleWith .waitIrq) := by
  unfold engineNext nothingMoves hostWaits
  decide +kernel

theorem witness_CmdWriteWhenIdleIsAccepted :
    hostNext (idleWith (.wr 0x000 8)) (.wr 0x000 8) [] ∧
      (idleWith (.wr 0x000 8)).status.busy = false := by
  unfold hostNext
  decide +kernel

theorem witness_CmdWriteWhileBusyOnlyOverruns :
    hostNext (hashing (.wr 0x000 8)) (.wr 0x000 8) [] ∧
      (hashing (.wr 0x000 8)).status.busy = true := by
  unfold hostNext
  decide +kernel

theorem witness_EveryCommandCompletes :
    (State.reset.complete).status.err = false := rfl

theorem witness_ErrorsArePrecise :
    exec .a2Init State.reset = .next (State.reset.raise .a2State) ∧
      (State.reset.raise .a2State).status.err = true := ⟨rfl, rfl⟩

theorem witness_IllegalWordEndsWithIllegal :
    (engineNext { State.reset.accept 6 with turn := .engine } ∧
      decode (State.reset.accept 6).cmd = .error .reservedOpcode) ∧
    (engineNext (busyWith 0x00000102 .wait State.reset) ∧
      decode (busyWith 0x00000102 .wait State.reset).cmd = .error .reservedBit) := by
  unfold engineNext hostWaits
  decide +kernel

theorem witness_ResetValuesAreTheSpecs : 0xFFC < 4096 ∧ 0xFFC % 4 = 0 := by decide

theorem witness_ReservedAndReadOnlyIgnoreWrites :
    (∀ off ∈ [0x018, 0x01C, 0x070, 0x084, 0x0FC, 0x150, 0x1FC, 0x258, 0x27C, 0x2C0, 0xFFC],
      off < 4096 ∧ off % 4 = 0 ∧ ¬mappedOffset off) ∧
    (∀ off ∈ [0x00C, 0x010, 0x014, 0x060, 0x06C, 0x080, 0x240, 0x254, 0x280, 0x2BC],
      off < 4096 ∧ off % 4 = 0 ∧ readOnlyOffset off) := by
  unfold readOnlyOffset mappedOffset writableOffset configOffset
  decide

theorem witness_WritesWhileBusyOrRunningAreIgnored :
    (hashing (.rd 4)).status.busy = true ∧
    (∀ off ∈ [0x00C, 0x020, 0x05C, 0x23C, 0xFFC],
      off % 4 = 0 ∧ off ≠ 0x000 ∧ off ≠ 0x004 ∧ off ≠ 0x008) ∧
    (∀ off ∈ [0x200, 0x23C], off % 4 = 0 ∧ configOffset off) ∧
    (runIn .seedDerived 0 0).run.st.active = true := by
  unfold configOffset
  decide +kernel

theorem witness_IdleWriteStoresAllBits :
    State.reset.status.busy = false ∧
    (∀ off ∈ [0x020, 0x05C, 0x100, 0x13C, 0x140, 0x14C], writableOffset off) ∧
    (∀ off ∈ [0x200, 0x23C], configOffset off ∧ State.reset.run.st.active = false) ∧
    (0x024 % 4 = 0 ∧ 0x024 ≠ 0x020) ∧
    (hostNext (hashing (.wr 8 1)) (.wr 8 1) [] ∧ 8 % 4 = 0 ∧ 8 < 4096) ∧
    (hostNext (idleWith (.wr 0xFFC 1)) (.wr 0xFFC 1) [] ∧ 0xFFC % 4 = 0 ∧ 0xFFC < 4096) := by
  unfold writableOffset configOffset hostNext
  decide +kernel

theorem witness_BusyReadsOfStateRegistersAreDraws :
    (hashing (.rd 4)).status.busy = true ∧
    (∀ off ∈ [0x060, 0x06C, 0x080, 0x100, 0x14C, 0x240, 0x254, 0x280, 0x2BC], unstableOffset off) ∧
    (∀ off ∈ [0x000, 0x008, 0x014, 0x020, 0x05C, 0x200, 0x23C],
      mappedOffset off ∧ ¬unstableOffset off ∧ off ≠ 0x004) ∧
    (hostNext (hashing (.rd 0xFFC)) (.rd 0xFFC) [] ∧ 0xFFC % 4 = 0 ∧ 0xFFC < 4096) ∧
    (hostNext (idleWith (.dr 0xFFFF)) (.dr 0xFFFF) [] ∧
      0xFFFF < (idleWith (.dr 0xFFFF)).cfg.dmemSize) ∧
    hostNext (idleWith .wait) .wait [] ∧
    hostNext { failedOnce with irqEn := true, inputs := [.waitIrq] } .waitIrq [] := by
  unfold unstableOffset mappedOffset hostNext
  decide +kernel

/-- The clause on what each offset reads as, at the limits of BUFLEN and OUTLEN too. -/
theorem witness_BusyReadsOfStateRegistersAreDraws_map :
    let full : State := { absorbing with hash := { absorbing.hash with buflen := 128, outlen := 64 } }
    (State.reset.status.busy = false ∧ State.reset.cfg.wf ∧ hashRange State.reset) ∧
    (full.status.busy = false ∧ full.cfg.wf ∧ hashRange full) := by
  unfold hashRange Config.wf
  decide +kernel

theorem witness_SoftResetResetsEveryRegister :
    (2 : U32).getLsbD 1 = true ∧ (3 : U32).getLsbD 1 = true ∧ (hashing (.wr 8 3)).dmem.wf ∧
    inRegions (hashing (.wr 8 3)).writing 0x100 = true ∧
    inRegions (hashing (.wr 8 3)).writing 0x11F = true ∧
    inRegions (hashing (.wr 8 3)).writing 0x120 = false ∧
    inRegions State.reset.writing 0x100 = false ∧
    (0 : U32).getLsbD 1 = false ∧ (0xFFFFFFFD : U32).getLsbD 1 = false := by decide +kernel

theorem witness_PowerOnResetRedrawsDmem :
    hostNext (hashing .powerOn) .powerOn [] ∧ hostNext (idleWith .powerOn) .powerOn [] := by
  unfold hostNext
  decide +kernel

theorem witness_HostByteWriteIsReadBack :
    (hostNext (idleWith (.dw 0xFFFF 7)) (.dw 0xFFFF 7) [] ∧
      0xFFFF < (idleWith (.dw 0xFFFF 7)).cfg.dmemSize ∧
      inRegions (idleWith (.dw 0xFFFF 7)).footprint 0xFFFF = false ∧
      (idleWith (.dw 0xFFFF 7)).dmem.wf) ∧
    (hostNext (hashing (.dw 3 7)) (.dw 3 7) [] ∧ 3 < (hashing (.dw 3 7)).cfg.dmemSize ∧
      inRegions (hashing (.dw 3 7)).footprint 3 = false ∧ (hashing (.dw 3 7)).dmem.wf) := by
  unfold hostNext
  decide +kernel

theorem witness_HostAccessInFootprintIsARace :
    inRegions (hashing (.dr 0x100)).writing 0x100 = true ∧
    inRegions (hashing (.dr 0x100)).writing 0 = false ∧
    (inRegions (hashing (.dw 2 7)).footprint 2 = true ∧ (hashing (.dw 2 7)).dmem.wf) ∧
    hostNext (hashing (.dw 2 7)) (.dw 2 7) [] ∧ 2 < (hashing (.dw 2 7)).cfg.dmemSize ∧
    (hostNext (hashing (.dw 0x11F 7)) (.dw 0x11F 7) [] ∧
      inRegions (hashing (.dw 0x11F 7)).footprint 0x11F = true) := by
  unfold hostNext
  decide +kernel

/-- The same command after a host write to its data. -/
def racedHashing : State := { hashingNext with raced := true }

/-- A command running with a race on record, the host waiting for it. -/
def racedWith (w : U32) (s : State) : State := { busyWith w .wait s with raced := true }

/-- What `RacedCommandLeavesFreeValues` asks of a command and a state. -/
def raced (i : Instr) (s : State) : Prop :=
  engineNext s ∧ s.raced = true ∧ decode s.cmd = .ok i ∧ checkOf i s = none ∧ s.dmem.wf

theorem witness_RacedCommandLeavesFreeValues :
    raced (.b2bHash 32 0) racedHashing ∧
    inRegions (writeSet (.b2bHash 32 0) racedHashing) 0x11F = true ∧
    inRegions (writeSet (.b2bHash 32 0) racedHashing) 0xFF = false ∧
    raced .b2bUpdate (racedWith 0x00000002 absorbing) ∧
    raced (.b2bCompress true) (racedWith 0x00000104 absorbing) ∧
    raced .a2H0 (racedWith 0x00000010 configured) ∧
    raced .a2Init (racedWith 0x00000011 (runIn .seedDerived 0 0)) ∧
    raced .a2Slice (racedWith 0x00000012 (runIn .filling 0 3)) := by
  unfold raced engineNext hostWaits
  decide +kernel

theorem witness_AccessesOutsideTheInterfaceStop :
    (hostNext (idleWith (.wr 0x1000 1)) (.wr 0x1000 1) [] ∧ 4096 ≤ 0x1000) ∧
    (hostNext (hashing (.wr 2 1)) (.wr 2 1) [] ∧ 2 % 4 ≠ 0) ∧
    (hostNext (idleWith (.rd 0xFFD)) (.rd 0xFFD) [] ∧ 0xFFD % 4 ≠ 0) ∧
    hostNext (idleWith (.regOdd 0 2)) (.regOdd 0 2) [] ∧
    (hostNext (idleWith (.dw 0x10000 7)) (.dw 0x10000 7) [] ∧
      (idleWith (.dw 0x10000 7)).cfg.dmemSize ≤ 0x10000) ∧
    (hostNext (idleWith (.dr 0x10000)) (.dr 0x10000) [] ∧
      (idleWith (.dr 0x10000)).cfg.dmemSize ≤ 0x10000) := by
  unfold hostNext
  decide +kernel

theorem witness_HashCommandErrors :
    ¬(64 < 1 ∨ 64 > 64 ∨ 64 > 64) ∧ ¬fits (withArg 0 0xFFC1 State.reset) 0xFFC1 64 ∧
    (withArg 0 0xFFC1 State.reset).argLo 0 = 0xFFC1 ∧
    State.reset.hash.st ≠ .absorbing ∧ absorbing.hash.st = .absorbing ∧
    (withArg 1 0x10001 absorbing).hash.st = .absorbing ∧
    ¬fits (withArg 1 0x10001 absorbing) 0 ((withArg 1 0x10001 absorbing).argLo 1) ∧
    ¬fits (withArg 2 0xFFC1 absorbing) ((withArg 2 0xFFC1 absorbing).argLo 2) absorbing.hash.outlen ∧
    ¬fits (withArg 0 0xFF81 State.reset) ((withArg 0 0xFF81 State.reset).argLo 0) 128 ∧
    State.reset.argLo 3 = 0 ∧
    ((withArg 3 1 (withArg 2 0x10000 State.reset)).argLo 3 ≠ 0 ∧
      ¬fits (withArg 3 1 (withArg 2 0x10000 State.reset)) 0x10000 1) := by
  unfold fits
  decide +kernel

theorem witness_RunStartErrors :
    (runIn .filled 1 0).run.st.active = true ∧ configured.run.st.active = false ∧
    ({ smallConfig with m := 7 }).m.toNat < 8 * ({ smallConfig with m := 7 }).p.toNat ∧
    configOk configured ∧
    (¬fits { configured with a2 := { smallConfig with saltLen := 0xFFF1 } } 0x10 0xFFF1) ∧
    (¬fits { configured with a2 := { smallConfig with mbase := 0xE001 } } 0xE001 (8 * 1024)) := by
  unfold configOk fits
  decide +kernel

theorem witness_FillAndAddressingErrors :
    State.reset.run.st ≠ .seedDerived ∧
    (State.reset.run.st ≠ .initFilled ∧ State.reset.run.st ≠ .filling) ∧
    State.reset.run.st ≠ .filled ∧
    ¬fits (withArg 2 0xFC01 State.reset) ((withArg 2 0xFC01 State.reset).argLo 2) 1024 ∧
    ((withArg 0 3 State.reset).argLo 0 > 2 ∧ (withArg 2 4 State.reset).argLo 2 > 3) ∧
    State.reset.run.st = .unconfigured ∧ rfcRun.run.st ≠ .unconfigured ∧
    (withArg 0 3 rfcRun).argLo 0 ≥ rfcRun.a2.t.toNat ∧
    (¬(rfcRun.argLo 0 ≥ rfcRun.a2.t.toNat ∨ rfcRun.argLo 1 ≥ rfcRun.a2.p.toNat ∨ rfcRun.argLo 2 > 3) ∧
      ¬fits (withArg 4 0xFC01 rfcRun) ((withArg 4 0xFC01 rfcRun).argLo 4) 1024) ∧
    (rfcRun.argLo 1 = 0 ∧ rfcRun.argLo 2 = 0 ∧ (withArg 4 1 rfcRun).argLo 4 < 2) := by
  unfold fits
  decide +kernel

theorem witness_B2bInitBeginsAHash :
    1 ≤ 64 ∧ 64 ≤ 64 ∧ fits (withArg 0 0xFFC0 State.reset) ((withArg 0 0xFFC0 State.reset).argLo 0) 64 ∧
    fits (withArg 0 0xFFFFFFFF State.reset) ((withArg 0 0xFFFFFFFF State.reset).argLo 0) 0 := by
  unfold fits
  decide +kernel

theorem witness_B2bUpdateAbsorbsTheRegion :
    absorbing.hash.st = .absorbing ∧ fits absorbing (absorbing.argLo 0) (absorbing.argLo 1) ∧
    (withArg 1 0 absorbing).argLo 1 = 0 := by
  unfold fits
  decide +kernel

theorem witness_AbsorbingOneByte :
    ({ freshHash with buflen := 127 } : HashState).buflen < 128 ∧
    ({ freshHash with buflen := 128 } : HashState).buflen = 128 := by decide

theorem witness_B2bFinalWritesTheDigest :
    absorbing.hash.st = .absorbing ∧
    fits (withArg 2 0xFFC0 absorbing) ((withArg 2 0xFFC0 absorbing).argLo 2) absorbing.hash.outlen ∧
    hashRange (withArg 2 0xFFC0 absorbing) ∧ (withArg 2 0xFFC0 absorbing).dmem.wf := by
  unfold hashRange fits
  decide +kernel

theorem witness_B2bCompressAppliesF :
    fits (withArg 0 0xFF80 State.reset) ((withArg 0 0xFF80 State.reset).argLo 0) 128 := by
  unfold fits
  decide +kernel

theorem witness_B2bHashWritesTheDigest :
    fits abcState (abcState.argLo 0) (abcState.argLo 1) ∧ fits abcState (abcState.argLo 3) 64 ∧
    fits abcState (abcState.argLo 2) 64 ∧ abcState.dmem.wf := by
  unfold fits
  decide +kernel

theorem witness_B2bLongWritesHPrime :
    (withArg 3 100 abcState).argLo 3 ≠ 0 ∧ fits (withArg 3 100 abcState) (abcState.argLo 0) 3 ∧
    fits (withArg 3 100 abcState) (abcState.argLo 2) 100 ∧ (withArg 3 100 abcState).dmem.wf := by
  unfold fits
  decide +kernel

theorem witness_A2H0DerivesTheSeed :
    (configured.run.st.active = false ∧ configOk configured) ∧
    ((runIn .finalized 1 0).run.st.active = false ∧ configOk (runIn .finalized 1 0)) := by
  unfold configOk fits
  decide +kernel

theorem witness_A2InitWritesTheInitialBlocks :
    ((runIn .seedDerived 0 0).run.st = .seedDerived ∧ (runIn .seedDerived 0 0).dmem.wf ∧
      matrixOk (runIn .seedDerived 0 0)) ∧
    0 < (runIn .seedDerived 0 0).a2.p.toNat ∧
    (∀ l, l < (runIn .seedDerived 0 0).a2.p.toNat → 0xFFF < 0x1000 + l * 8 * 1024) := by
  unfold matrixOk geometry fits
  decide +kernel

theorem witness_A2SliceAdvancesTheRun :
    ((runIn .initFilled 0 0).run.st = .initFilled ∧ (runIn .filling 0 3).run.st = .filling) ∧
    ((runIn .initFilled 0 0).dmem.wf ∧ (runIn .filling 0 3).dmem.wf) ∧
    (matrixOk (runIn .filling 0 3) ∧ (runIn .filling 0 3).run.slice.toNat ≤ 3) ∧
    (∀ l, l < (runIn .initFilled 0 0).a2.p.toNat →
      0x17FF < blkAddr (runIn .initFilled 0 0).job l (0 * (runIn .initFilled 0 0).job.seg + 2)) ∧
    (∀ l, l < (runIn .filling 0 3).a2.p.toNat →
      0x27FF < blkAddr (runIn .filling 0 3).job l (3 * (runIn .filling 0 3).job.seg + 0)) := by
  unfold matrixOk geometry fits
  decide +kernel

theorem witness_A2SliceMeetsTheFillEquation :
    (rfcRun.run.st = .filling ∧ rfcRun.dmem.wf ∧ matrixOk rfcRun ∧ rfcRun.run.slice.toNat ≤ 3 ∧
      1 ≤ rfcRun.cfg.laneWorkers) ∧
    (3 < rfcRun.a2.p.toNat ∧ 1 < rfcRun.job.seg ∧
      (rfcRun.run.pass.toNat = 0 ∧ rfcRun.run.slice.toNat = 0 → 2 ≤ 0)) := by
  unfold matrixOk geometry fits
  decide +kernel

theorem witness_A2FinalWritesTheTag :
    (runIn .filled 1 0).run.st = .filled ∧ (runIn .filled 1 0).dmem.wf ∧ matrixOk (runIn .filled 1 0) ∧
      fits (runIn .filled 1 0) (runIn .filled 1 0).a2.tagAddr.toNat (runIn .filled 1 0).a2.taglen.toNat := by
  unfold matrixOk geometry fits
  decide +kernel

theorem witness_A2RunIsTheStepwiseRun :
    configured.run.st.active = false ∧ configOk configured := by
  unfold configOk fits
  decide +kernel

theorem witness_A2GWritesTheCompression :
    fits (withArg 2 0xFC00 State.reset) (State.reset.argLo 0) 1024 ∧
    fits (withArg 2 0xFC00 State.reset) ((withArg 2 0xFC00 State.reset).argLo 2) 1024 ∧
    (withArg 2 0xFC00 State.reset).dmem.wf := by
  unfold fits
  decide +kernel

theorem witness_A2ModeGivesThePredicate :
    (withArg 0 2 (withArg 2 3 State.reset)).argLo 0 ≤ 2 ∧
    (withArg 0 2 (withArg 2 3 State.reset)).argLo 2 ≤ 3 := by decide +kernel

/-- Position r = 2, l = 3, s = 3 of the L1.5 run, the block to go to 0x9000. -/
def addrCase : State := withArg 0 2 (withArg 1 3 (withArg 2 3 (withArg 4 0x9000 rfcRun)))

theorem witness_A2AddrWritesTheAddressBlock :
    addrCase.run.st ≠ .unconfigured ∧ addrCase.argLo 0 < addrCase.a2.t.toNat ∧
    addrCase.argLo 1 < addrCase.a2.p.toNat ∧ addrCase.argLo 2 ≤ 3 ∧
    fits addrCase (addrCase.argLo 4) 1024 ∧ addrCase.dmem.wf := by
  unfold fits
  decide +kernel

/-- Position r = 2, s = 3, l = 3, i = 1 of the L1.5 run. -/
def indexCase : State := withArg 1 2 (withArg 2 3 (withArg 3 3 (withArg 4 1 rfcRun)))

theorem witness_A2IndexGivesTheReference :
    indexCase.run.st ≠ .unconfigured ∧ indexCase.argLo 1 < indexCase.a2.t.toNat ∧
    indexCase.argLo 2 ≤ 3 ∧ indexCase.argLo 3 < indexCase.a2.p.toNat ∧
    indexCase.argLo 4 < indexCase.run.seglen.toNat ∧
    ¬(indexCase.argLo 1 = 0 ∧ indexCase.argLo 2 = 0 ∧ indexCase.argLo 4 < 2) ∧
    (0 < (indexCase.run.lanelen.toNat : Int) - indexCase.run.seglen.toNat + 1 - 1 ∧
      0 < (indexCase.run.lanelen.toNat : Int)) := by decide +kernel

/-- A2.MODE at y = 1 after reset: RES0 becomes 1. -/
def modeCase : State := withArg 0 1 State.reset

theorem witness_OnlyTheirCommandsChangeHashAndResults :
    (exec .a2Mode modeCase = .next (effectA2Mode modeCase).complete ∧
      (effectA2Mode modeCase).complete.res0 ≠ modeCase.res0) ∧
    (exec (.b2bInit 64 0) State.reset = .next (effectB2bInit 64 0 State.reset).complete ∧
      (effectB2bInit 64 0 State.reset).complete.hash ≠ State.reset.hash) := by
  refine ⟨⟨rfl, by decide +kernel⟩, ⟨rfl, by decide +kernel⟩⟩

theorem witness_NoCommandChangesItsOperands :
    exec .a2Mode modeCase = .next (effectA2Mode modeCase).complete := rfl

theorem witness_RunStateFollowsItsTable :
    exec .a2Abort (runIn .filling 0 2) = .next (effectA2Abort (runIn .filling 0 2)).complete ∧
    (effectA2Abort (runIn .filling 0 2)).complete.run.st ≠ (runIn .filling 0 2).run.st :=
  ⟨rfl, by decide⟩

theorem witness_CommandWritesOnlyItsWriteSet :
    hashingNext.dmem.wf ∧
    exec (.b2bHash 32 0) hashingNext = .next (effectB2bHash 32 0 hashingNext).complete ∧
    inRegions (writeSet (.b2bHash 32 0) hashingNext) 0xFF = false ∧
    inRegions (writeSet (.b2bHash 32 0) hashingNext) 0x120 = false := by
  refine ⟨by decide +kernel, rfl, by decide +kernel, by decide +kernel⟩

/-- A hash in progress, B2B.INIT accepted. -/
def hashStepCase : State := { absorbing.accept 0x00004001 with turn := .engine }

theorem witness_StepKeepsTheHashLimits :
    (hashRange { hashStepCase with raced := true } ∧
      ∃ t, step { hashStepCase with raced := true } = .next t) ∧
    (hashOk hashStepCase ∧ hashStepCase.raced = false ∧
      step hashStepCase = .next (effectB2bInit 64 0 hashStepCase).complete) := by
  refine ⟨⟨?_, _, rfl⟩, ?_, rfl, rfl⟩
  · unfold hashRange
    decide +kernel
  · unfold hashOk
    decide +kernel

/-- The last slice of a run, accepted. -/
def runStepCase : State := { (runIn .filling 0 3).accept 0x00000012 with turn := .engine }

theorem runStepCase_ok : runOk runStepCase := by
  have h : runStepCase.run.st = .filling := rfl
  unfold runOk configOk sized fits
  simp only [h]
  decide +kernel

theorem witness_StepKeepsTheRunLimits :
    (acceptedConfig { runStepCase with raced := true } ∧
      ∃ t, step { runStepCase with raced := true } = .next t) ∧
    (runOk runStepCase ∧ runStepCase.raced = false ∧
      step runStepCase = .next (effectA2Slice runStepCase).complete) :=
  ⟨⟨fun h => (runStepCase_ok.1 h).1, _, rfl⟩, runStepCase_ok, rfl, rfl⟩

theorem witness_StepKeepsDmemCanonical :
    dmemOk { runStepCase with dmem := abcState.dmem } ∧
      step { runStepCase with dmem := abcState.dmem } =
        .next (effectA2Slice { runStepCase with dmem := abcState.dmem }).complete := by
  refine ⟨?_, rfl⟩
  unfold dmemOk
  decide +kernel

theorem witness_StepKeepsTheFlagsConsistent :
    statusOk hashStepCase ∧
      step hashStepCase = .next (effectB2bInit 64 0 hashStepCase).complete := by
  refine ⟨?_, rfl⟩
  unfold statusOk
  decide +kernel

theorem witness_UpdateInChunksIsOneUpdate :
    absorbing.hash.st = .absorbing ∧ 0 + 0xFFFF + 1 ≤ absorbing.cfg.dmemSize ∧
      0 + 0xFFFF + 1 < 2 ^ 32 := by decide +kernel

theorem witness_CounterCountsTheBytesAbsorbed :
    (if ([1] : List Byte).length = 0 then 0 else 128) + ([2, 3] : List Byte).length < 2 ^ 128 ∧
    0 < (if ([1] : List Byte).length = 0 then 0 else 128) + ([] : List Byte).length := by decide

theorem witness_HPrimeChainLength : 65 > 64 := by decide

theorem witness_CompressionGProperties :
    Block.xor (Block.zero.set 0 1) (Block.zero.set 0 3) =
      Block.xor (Block.zero.set 0 2) Block.zero := by
  decide +kernel

theorem witness_AddressGeneratorClosedForm : segStart 0 0 + 126 < 2 ^ 32 := by decide

theorem witness_ReferenceIsAlwaysUsable :
    (2 ≤ 2 ∧ 8 = 4 * 2 ∧ 3 ≤ 3 ∧ 1 < 2 ∧ 2 ^ 32 - 1 < 2 ^ 32 ∧
      (1 = 0 ∧ 3 = 0 → 2 ≤ 1 ∧ false = true)) ∧
    (2 ≤ 3 ∧ 12 = 4 * 3 ∧ 0 ≤ 3 ∧ 2 < 3 ∧ (0 = 0 ∧ 0 = 0 → 2 ≤ 2 ∧ true = true)) := by decide

theorem witness_LaneOrderDoesNotMatter :
    geometry rfcRun.job ∧ 3 ≤ 3 ∧ rfcStart.dmem.wf ∧
      ([3, 1, 0, 2] : List Nat).Perm (List.range rfcRun.job.p) := by
  unfold geometry
  decide +kernel

theorem configured_ok : runOk configured := by
  have h : configured.run.st = .unconfigured := rfl
  unfold runOk configOk sized fits
  simp only [h]
  decide +kernel

theorem witness_WorkersDoNotMatter :
    (runOk runStepCase ∧ runStepCase.dmem.wf ∧ 1 ≤ 4 ∧ 1 ≤ runStepCase.cfg.laneWorkers ∧
      exec .a2Slice runStepCase = .next (effectA2Slice runStepCase).complete) ∧
    (runOk configured ∧ configured.dmem.wf ∧ 1 ≤ 4 ∧ 1 ≤ configured.cfg.laneWorkers ∧
      exec .a2Run configured = .next (effectA2Run configured).complete) :=
  ⟨⟨runStepCase_ok, by decide, by decide, by decide, rfl⟩,
    configured_ok, by decide, by decide, by decide, rfl⟩

end Sys2Proof.Tests
end

section
/-! SUPPORT. Filling the lanes of a slice in another order gives the same DMEM: a segment is one write into
its own lane, and its bytes do not depend on what the segments of the other lanes hold.  So the parameter
`LANE_WORKERS`, which picks the order, reaches no result. -/

namespace Sys2Proof.Machine
open Sys2Proof.Claims

/-! ## Segments of different lanes commute -/

/-- Columns of two lanes are apart, whichever lane comes first. -/
theorem blkAddr_lanes_apart (j : Job) {l l' c c' n n' : Nat} (hl : l ≠ l') (hc : c + n ≤ j.q)
    (hc' : c' + n' ≤ j.q) :
    blkAddr j l c + n * 1024 ≤ blkAddr j l' c' ∨ blkAddr j l' c' + n' * 1024 ≤ blkAddr j l c :=
  (Nat.lt_or_gt_of_ne hl).imp (fun h => blkAddr_lane_lt j h hc) (fun h => blkAddr_lane_lt j h hc')

theorem segStart_le_two (r s : Nat) : segStart r s ≤ 2 := by
  unfold segStart; split <;> decide

/-- The address of the first block FillSegment writes. -/
def segmentAddr (j : Job) (r s l : Nat) : Nat := blkAddr j l (s * j.seg + segStart r s)

/-- The number of blocks FillSegment writes. -/
def segmentBlocks (j : Job) (r s : Nat) : Nat := j.seg - segStart r s

/-- The bytes FillSegment leaves in the blocks it writes. -/
def segmentBytes (j : Job) (r s : Nat) (m : Memory) (l : Nat) : List Byte :=
  (fillSegment j r s m l).read (segmentAddr j r s l) (segmentBlocks j r s * 1024)

/-- The blocks FillSegment writes lie in the lane. -/
theorem segmentBlocks_fit {j : Job} (hj : geometry j) {r s : Nat} (hs : s ≤ 3) :
    s * j.seg + segStart r s + segmentBlocks j r s ≤ j.q := by
  obtain ⟨hseg, hq⟩ := hj
  have hfit := segment_fits hq hs
  have hstart := segStart_le_two r s
  unfold segmentBlocks
  omega

/-- FillSegment is one write. -/
theorem fillSegment_eq_write (j : Job) (r s : Nat) {m : Memory} (h : m.wf) (l : Nat) :
    fillSegment j r s m l = m.write (segmentAddr j r s l) (segmentBytes j r s m l) := by
  obtain ⟨bs, hlen, hw⟩ := fillStep_foldl_eq_write (r := r) (s := s) (l := l) (segStart r s)
    (segmentBlocks j r s) (addrStart j r l s (segStart r s)) h
  change fillSegment j r s m l = m.write (segmentAddr j r s l) bs at hw
  rw [segmentBytes, hw, ← hlen, Memory.read_write_same h]

/-- What FillSegment writes depends only on what `sameForLane` compares. -/
theorem segmentBytes_sameForLane {j : Job} (hj : geometry j) {r s l : Nat} (hs : s ≤ 3)
    {m m' : Memory} (h : m.wf) (h' : m'.wf) (hm : sameForLane j s l m m') :
    segmentBytes j r s m l = segmentBytes j r s m' l := by
  have hfill : sameForLane j s l (fillSegment j r s m l) (fillSegment j r s m' l) := by
    refine fillStep_foldl_sameForLane hj.1 hj.2 hs _ (fun i hi => ?_) _ h h' hm
    have hstart := segStart_le_two r s
    have hseg := hj.1
    rw [List.mem_range'_1] at hi
    exact ⟨by omega, fun h0 => by rw [segStart, if_pos h0] at hi; exact hi.1⟩
  refine Memory.read_congr fun x hlo hhi => hfill x fun l' _ hne hin => ?_
  obtain ⟨hlo', hhi'⟩ := hin
  rcases blkAddr_lanes_apart j hne (segment_fits hj.2 hs) (segmentBlocks_fit hj (r := r) hs)
    with hd | hd <;> simp only [segmentAddr] at hlo hhi <;> omega

/-- A segment changes nothing that another lane's segment reads. -/
theorem fillSegment_sameForLane {j : Job} {r s l l' : Nat} {m : Memory} (h : m.wf)
    (hl' : l' < j.p) (hne : l' ≠ l) : sameForLane j s l (fillSegment j r s m l') m := by
  intro x hx
  have hout := hx l' hl' hne
  apply byte_fillSegment_outside h
  rw [blkAddr_add]
  unfold inSegment at hout
  omega

/-- The segments of two lanes may be filled in either order (R213, R214). -/
theorem fillSegment_comm {j : Job} (hj : geometry j) {r s l l' : Nat} (hs : s ≤ 3) {m : Memory}
    (h : m.wf) (hl : l < j.p) (hl' : l' < j.p) :
    fillSegment j r s (fillSegment j r s m l) l' = fillSegment j r s (fillSegment j r s m l') l := by
  by_cases hne : l = l'
  · rw [hne]
  have hbytes' : segmentBytes j r s (fillSegment j r s m l) l' = segmentBytes j r s m l' :=
    segmentBytes_sameForLane hj hs (fillSegment_wf h) h (fillSegment_sameForLane h hl hne)
  have hbytes : segmentBytes j r s (fillSegment j r s m l') l = segmentBytes j r s m l :=
    segmentBytes_sameForLane hj hs (fillSegment_wf h) h (fillSegment_sameForLane h hl' (Ne.symm hne))
  have hfit := segmentBlocks_fit hj (r := r) hs
  rw [fillSegment_eq_write j r s (fillSegment_wf h) l', hbytes', fillSegment_eq_write j r s h l,
    fillSegment_eq_write j r s (fillSegment_wf h) l, hbytes, fillSegment_eq_write j r s h l']
  apply Memory.write_comm h
  simp only [segmentBytes, Memory.read_length]
  exact blkAddr_lanes_apart j hne hfit hfit

theorem fillSlice_cons (j : Job) (r s l : Nat) (order : List Nat) (m : Memory) :
    fillSlice j r s (l :: order) m = fillSlice j r s order (fillSegment j r s m l) := rfl

/-- A slice does not depend on the order of its lanes (R213, R214, R288). -/
theorem fillSlice_perm {j : Job} (hj : geometry j) {r s : Nat} (hs : s ≤ 3)
    {order order' : List Nat} (hp : order.Perm order') (hl : ∀ l ∈ order, l < j.p) {m : Memory}
    (h : m.wf) : fillSlice j r s order m = fillSlice j r s order' m := by
  induction hp generalizing m with
  | nil => rfl
  | cons l _ ih =>
    rw [fillSlice_cons, fillSlice_cons]
    exact ih (fun k hk => hl k (List.mem_cons_of_mem _ hk)) (fillSegment_wf h)
  | swap l l' rest =>
    rw [fillSlice_cons, fillSlice_cons, fillSlice_cons, fillSlice_cons,
      fillSegment_comm hj hs h (hl l' (by simp)) (hl l (by simp))]
  | trans hp₁ _ ih₁ ih₂ =>
    exact (ih₁ hl h).trans (ih₂ (fun k hk => hl k (hp₁.mem_iff.mpr hk)) h)

/-- Any two numbers of workers fill a slice alike (R8, R288). -/
theorem fillSlice_laneOrder {j : Job} (hj : geometry j) {r s w w' : Nat} (hs : s ≤ 3) (hw : 1 ≤ w)
    (hw' : 1 ≤ w') {m : Memory} (h : m.wf) :
    fillSlice j r s (laneOrder w j.p) m = fillSlice j r s (laneOrder w' j.p) m :=
  fillSlice_perm hj hs ((laneOrder_perm hw j.p).trans (laneOrder_perm hw' j.p).symm)
    (fun _ hl => mem_laneOrder hl) h

/-! ## The engine with another number of workers -/

/-- The machine with `w` lane workers. -/
def State.withWorkers (s : State) (w : Nat) : State :=
  { s with cfg := { s.cfg with laneWorkers := w } }

theorem checkOf_withWorkers (i : Instr) (s : State) (w : Nat) :
    checkOf i (s.withWorkers w) = checkOf i s := by cases i <;> rfl

theorem fillInit_withWorkers (s : State) (w : Nat) :
    fillInit (s.withWorkers w) = (fillInit s).withWorkers w := by
  have hdef : (s.withWorkers w).initDefined = s.initDefined := rfl
  unfold fillInit
  rw [hdef]
  split <;> rfl

theorem writeTag_withWorkers (s : State) (w : Nat) :
    writeTag (s.withWorkers w) = (writeTag s).withWorkers w := by
  have hdef : (s.withWorkers w).finalDefined = s.finalDefined := rfl
  unfold writeTag
  rw [hdef]
  split <;> rfl

theorem State.geometry_of_sliceDefined {s : State} (h : s.sliceDefined = true) :
    geometry s.job ∧ s.run.slice.toNat ≤ 3 := by
  simp only [State.sliceDefined, Bool.and_eq_true, decide_eq_true_iff] at h
  obtain ⟨⟨⟨hseg, hq⟩, hslice⟩, -⟩ := h
  exact ⟨⟨hseg, hq⟩, hslice⟩

theorem fillCurrentSlice_withWorkers {s : State} {w : Nat} (h : s.dmem.wf)
    (hs : 1 ≤ s.cfg.laneWorkers) (hw : 1 ≤ w) :
    fillCurrentSlice (s.withWorkers w) = (fillCurrentSlice s).withWorkers w := by
  cases hdef : s.sliceDefined with
  | true =>
    obtain ⟨hj, hslice⟩ := State.geometry_of_sliceDefined hdef
    have horder := fillSlice_laneOrder hj (r := s.run.pass.toNat) hslice hw hs h
    rw [fillCurrentSlice_defined hdef, fillCurrentSlice_defined (s := s.withWorkers w) hdef]
    exact congrArg (fun m => { s.withWorkers w with dmem := m }) horder
  | false =>
    have hdef' : (s.withWorkers w).sliceDefined = false := hdef
    simp only [fillCurrentSlice, hdef, hdef', Bool.false_eq_true, if_false]
    rfl

theorem effectA2Slice_withWorkers {s : State} {w : Nat} (h : s.dmem.wf)
    (hs : 1 ≤ s.cfg.laneWorkers) (hw : 1 ≤ w) :
    effectA2Slice (s.withWorkers w) = (effectA2Slice s).withWorkers w := by
  rw [effectA2Slice, fillCurrentSlice_withWorkers h hs hw]; rfl

theorem fillSlices_withWorkers (n : Nat) {s : State} {w : Nat} (h : s.dmem.wf)
    (hs : 1 ≤ s.cfg.laneWorkers) (hw : 1 ≤ w) :
    fillSlices n (s.withWorkers w) = (fillSlices n s).withWorkers w := by
  induction n generalizing s with
  | zero => rfl
  | succ n ih =>
    have hcfg : (effectA2Slice s).cfg = s.cfg := by rw [effectA2Slice_fixed]
    rw [fillSlices, effectA2Slice_withWorkers h hs hw, ih (effectA2Slice_wf h) (hcfg ▸ hs)]
    rfl

theorem effectA2Init_withWorkers (s : State) (w : Nat) :
    effectA2Init (s.withWorkers w) = (effectA2Init s).withWorkers w := by
  rw [effectA2Init, fillInit_withWorkers]; rfl

theorem effectA2Final_withWorkers (s : State) (w : Nat) :
    effectA2Final (s.withWorkers w) = (effectA2Final s).withWorkers w := by
  rw [effectA2Final, writeTag_withWorkers]; rfl

theorem effectA2Run_withWorkers {s : State} {w : Nat} (h : s.dmem.wf)
    (hs : 1 ≤ s.cfg.laneWorkers) (hw : 1 ≤ w) :
    effectA2Run (s.withWorkers w) = (effectA2Run s).withWorkers w := by
  have hstart : effectA2Init (effectA2H0 (s.withWorkers w)) =
      (effectA2Init (effectA2H0 s)).withWorkers w := effectA2Init_withWorkers (effectA2H0 s) w
  have hcfg : (effectA2Init (effectA2H0 s)).cfg = s.cfg := by rw [effectA2Init_fixed]; rfl
  have hslices := fillSlices_withWorkers (4 * s.a2.t.toNat)
    (effectA2Init_wf (s := effectA2H0 s) h) (hcfg ▸ hs) hw
  calc effectA2Run (s.withWorkers w)
    _ = effectA2Final (fillSlices (4 * s.a2.t.toNat)
          ((effectA2Init (effectA2H0 s)).withWorkers w)) := by rw [← hstart]; rfl
    _ = (effectA2Run s).withWorkers w := by rw [hslices, effectA2Final_withWorkers]; rfl

/-- A command whose effect commutes with the choice of the number of workers answers alike, but for that
parameter. -/
theorem exec_withWorkers {i : Instr} {s t : State} {w : Nat}
    (heff : effectOf i (s.withWorkers w) = (effectOf i s).withWorkers w)
    (hexec : exec i s = .next t) : exec i (s.withWorkers w) = .next (t.withWorkers w) := by
  rcases exec_cases hexec with ⟨hc, rfl⟩ | ⟨e, hc, rfl⟩
  · rw [exec_of_check_none ((checkOf_withWorkers i s w).trans hc), heff]; rfl
  · rw [exec_of_check_some ((checkOf_withWorkers i s w).trans hc)]; rfl

/-- Settles O60: the segments of a slice commute, so the order the workers give the lanes changes nothing.
The limits `runOk` puts on the run registers are not needed: where the registers name no matrix, the open
bytes do not depend on the workers either. -/
theorem workersDoNotMatter : Obligations.WorkersDoNotMatter := by
  intro i s t w _ hwf hw hworkers hi hexec
  refine exec_withWorkers ?_ hexec
  rcases hi with rfl | rfl
  · exact effectA2Slice_withWorkers hwf hworkers hw
  · exact effectA2Run_withWorkers hwf hworkers hw

end Sys2Proof.Machine
end

section
/-! SUPPORT. The host's side of a step: the host's move as a step, what a register write can do, said once,
and what a move of the host leaves of the registers that have limits. -/

namespace Sys2Proof.Machine
open Sys2Proof.Claims

/-! ## The host's move is the step -/

/-- When the host moves next, the step is its access (R30, R270). -/
theorem step_of_hostNext {s : State} {op : HostOp} {rest : List HostOp} (h : hostNext s op rest) :
    step s = hostMove op { s with inputs := rest } := by
  obtain ⟨hin, hturn, hblocked⟩ := h
  have hengine : engineTurn s op = false := by
    rcases hturn with h | h <;> simp [engineTurn, h, hblocked]
  simp [step, hin, hengine, hblocked]

theorem State.softReset_withInputs (s : State) (rest : List HostOp) :
    State.softReset { s with inputs := rest } = { s.softReset with inputs := rest } := by
  have hw := State.writing_frame s s.dmem rest s.seen s.turn s.raced s.draws
  simp only [State.softReset, hw]
  rfl

theorem State.writeIdle_withInputs (s : State) (rest : List HostOp) (r : Reg) (v : U32) :
    State.writeIdle { s with inputs := rest } r v = { s.writeIdle r v with inputs := rest } := by
  cases r with
  | a2cfg k => simp only [State.writeIdle]; split <;> rfl
  | _ => rfl

/-- A register write does not look at the accesses still to come. -/
theorem State.writeReg_withInputs (s : State) (rest : List HostOp) (off : Nat) (v : U32) :
    State.writeReg { s with inputs := rest } off v = { s.writeReg off v with inputs := rest } := by
  unfold State.writeReg
  split
  · rfl
  · simp only [State.writeCmd]; split <;> rfl
  · rfl
  · simp only [State.writeCtrl, State.softReset_withInputs]; split <;> rfl
  · simp only [State.writeIdle_withInputs]; split <;> rfl

theorem State.readReg_withInputs (s : State) (rest : List HostOp) (off : Nat) :
    State.readReg { s with inputs := rest } off = s.readReg off := by
  cases hr : regAt off with
  | none => rw [State.readReg_of_none hr, State.readReg_of_none hr]
  | some r => rw [State.readReg_of_some hr, State.readReg_of_some hr]; cases r <;> rfl

theorem State.hostLoad_withInputs (s : State) (rest : List HostOp) (a : Nat) :
    State.hostLoad { s with inputs := rest } a = s.hostLoad a := by
  have hw := State.writing_frame s s.dmem rest s.seen s.turn s.raced s.draws
  simp only [State.hostLoad, hw]

theorem regAccessible_of {off : Nat} (ha : off % 4 = 0) (hw : off < 4096) :
    regAccessible off = true := by simp [regAccessible, ha, hw]

/-- A host write to a register is one step: the write, and the model's own fields move on. -/
theorem step_write {s : State} {off : Nat} {v : U32} {rest : List HostOp}
    (h : hostNext s (.wr off v) rest) (ha : off % 4 = 0) (hw : off < 4096) :
    step s = .next (State.redraw { s.writeReg off v with inputs := rest }) := by
  rw [step_of_hostNext h, hostMove, if_pos (regAccessible_of ha hw), State.writeReg_withInputs]

/-! ## What a register write can do -/

@[simp] theorem State.writeReg_cmd (s : State) (v : U32) : s.writeReg 0x000 v = s.writeCmd v := rfl

@[simp] theorem State.writeReg_status (s : State) (v : U32) :
    s.writeReg 0x004 v = { s with status := s.status.cleared v } := rfl

@[simp] theorem State.writeReg_ctrl (s : State) (v : U32) : s.writeReg 0x008 v = s.writeCtrl v := rfl

/-- What a register write of the host can leave of a machine `s`; every invariant of the host's side is a
case analysis of it. -/
inductive RegWrite (s : State) : State → Prop where
  /-- a reserved offset, a read-only register, or a register that takes no write now (R35, R53, R54, R63) -/
  | ignored : RegWrite s s
  /-- CMD when idle (R271) -/
  | accepted (v : U32) (hidle : s.status.busy = false) : RegWrite s (s.accept v)
  /-- CMD while busy (R279) -/
  | overran : RegWrite s { s with status := s.status.overran }
  /-- STATUS (R38) -/
  | cleared (v : U32) : RegWrite s { s with status := s.status.cleared v }
  /-- CTRL with bit 1 set (R39, R303) -/
  | softReset : RegWrite s s.softReset
  /-- CTRL with bit 1 clear (R39) -/
  | irqEn (b : Bool) : RegWrite s { s with irqEn := b }
  /-- an ARG register, or a word of the HashState (R43, R46, R47) -/
  | operands (args h : Vector Word 8) (t0 t1 : Word) (hidle : s.status.busy = false) :
    RegWrite s { s with args := args, hash := { s.hash with h := h, t0 := t0, t1 := t1 } }
  /-- a configuration register that no run uses (R48, R54) -/
  | config (a2 : A2Config) (hidle : s.status.busy = false) (hrun : s.run.st.active = false) :
    RegWrite s { s with a2 := a2 }

theorem State.writeIdle_regWrite {s : State} (hidle : s.status.busy = false) (r : Reg) (v : U32) :
    RegWrite s (s.writeIdle r v) := by
  cases r with
  | arg n hi => exact .operands _ s.hash.h s.hash.t0 s.hash.t1 hidle
  | b2bH i hi => exact .operands s.args _ s.hash.t0 s.hash.t1 hidle
  | b2bT0 hi => exact .operands s.args s.hash.h _ s.hash.t1 hidle
  | b2bT1 hi => exact .operands s.args s.hash.h s.hash.t0 _ hidle
  | a2cfg k =>
    cases hrun : s.run.st.active with
    | true => simpa [State.writeIdle, hrun] using .ignored
    | false => simpa [State.writeIdle, hrun] using .config _ hidle hrun
  | _ => exact .ignored

theorem State.writeReg_regWrite (s : State) (off : Nat) (v : U32) :
    RegWrite s (s.writeReg off v) := by
  unfold State.writeReg
  split
  · exact .ignored
  · cases hb : s.status.busy with
    | true => simpa [State.writeCmd, hb] using .overran
    | false => simpa [State.writeCmd, hb] using .accepted v hb
  · exact .cleared v
  · simp only [State.writeCtrl]
    split
    · exact .softReset
    · exact .irqEn _
  · cases hb : s.status.busy with
    | true => simpa using .ignored
    | false => simpa using State.writeIdle_regWrite hb _ v

/-! ## What a move of the host does to the registers that have limits -/

/-- The registers of which R57 and R59 state limits are as before, and so is the configuration of an active
run (R54). -/
structure SameLimits (s t : State) : Prop where
  buflen : t.hash.buflen = s.hash.buflen
  outlen : t.hash.outlen = s.hash.outlen
  hashSt : t.hash.st = s.hash.st
  cfg : t.cfg = s.cfg
  run : t.run = s.run
  a2 : s.run.st.active = true → t.a2 = s.a2

theorem RegWrite.limits {s t : State} (h : RegWrite s t) :
    (t.hash = HashState.reset ∧ t.run = RunCtx.reset) ∨ SameLimits s t := by
  cases h with
  | softReset => exact .inl ⟨rfl, rfl⟩
  | config a2 _ hrun => exact .inr ⟨rfl, rfl, rfl, rfl, rfl, fun h => by simp [hrun] at h⟩
  | _ => exact .inr ⟨rfl, rfl, rfl, rfl, rfl, fun _ => rfl⟩

theorem State.hostStore_sameLimits (s : State) (a : Nat) (b : Byte) : SameLimits s (s.hostStore a b) := by
  unfold State.hostStore
  split <;> exact ⟨rfl, rfl, rfl, rfl, rfl, fun _ => rfl⟩

/-- A move of the host resets the HashState and the run context, or keeps all that has limits. -/
theorem hostMove_limits {op : HostOp} {s t : State} (h : hostMove op s = .next t) :
    (t.hash = HashState.reset ∧ t.run = RunCtx.reset) ∨ SameLimits s t := by
  have hredraw {u : State} (hu : SameLimits s u) : SameLimits s u.redraw :=
    ⟨hu.buflen, hu.outlen, hu.hashSt, hu.cfg, hu.run, hu.a2⟩
  have hseen (o : HostObs) : SameLimits s (s.observe o).redraw :=
    ⟨rfl, rfl, rfl, rfl, rfl, fun _ => rfl⟩
  rcases hostMove_cases h with ⟨off, v, -, -, rfl⟩ | ⟨off, -, -, rfl⟩ | ⟨a, b, -, -, rfl⟩ |
    ⟨a, -, -, rfl⟩ | ⟨-, rfl⟩ | ⟨-, rfl⟩ | ⟨-, rfl⟩
  · exact (s.writeReg_regWrite off v).limits.imp id hredraw
  · exact .inr (hseen _)
  · exact .inr (hredraw (s.hostStore_sameLimits a b))
  · exact .inr (hseen _)
  · exact .inr (hseen _)
  · exact .inr (hseen _)
  · exact .inl ⟨rfl, rfl⟩

end Sys2Proof.Machine
end

section
/-! SUPPORT. What every step keeps of the registers: the limits of the HashState (R50, R57), the run registers
and the configuration of an active run (R54, R59), and the flags (R38, R64). -/

namespace Sys2Proof.Machine
open Sys2Proof.Claims

/-! ## The engine's move by its outcome -/

theorem State.running_of_decode_error {s : State} {e : Illegal} (h : decode s.cmd = .error e) :
    s.running = none := by
  unfold State.running
  split
  · rw [h]
  · rfl

theorem State.running_of_check {s : State} {i : Instr} (hd : decode s.cmd = .ok i)
    (hc : checkOf i s ≠ none) : s.running = none := by
  cases hr : s.running with
  | none => rfl
  | some j =>
    obtain ⟨-, hdj, hcj⟩ := State.running_eq_some hr
    rw [hd] at hdj
    cases hdj
    exact absurd hcj hc

theorem State.running_of_idle {s : State} (h : s.status.busy = false) : s.running = none := by
  simp [State.running, h]

/-- The engine's move is an error completion, of a machine in which no command has a footprint; a command's
effect and its completion; or these with a race settled (R94, R270). -/
theorem engineMove_outcome {s t : State} (h : engineMove s = .next t) :
    (s.running = none ∧ ∃ e, t = s.raise e) ∨
      ∃ i, checkOf i s = none ∧
        (s.raced = false ∧ t = (effectOf i s).complete ∨
          s.raced = true ∧ t = settleRace i s (effectOf i s).complete) := by
  rcases engineMove_cases h with ⟨e, hd, rfl⟩ | ⟨i, u, hd, hu, hrace⟩
  · exact .inl ⟨State.running_of_decode_error hd, _, rfl⟩
  · rcases exec_cases hu with ⟨hc, rfl⟩ | ⟨e, hc, rfl⟩
    · refine .inr ⟨i, hc, ?_⟩
      rcases hrace with ⟨hr | hr, rfl⟩ | ⟨hr, -, rfl⟩
      · exact .inl ⟨hr, rfl⟩
      · exact absurd hc hr
      · exact .inr ⟨hr, rfl⟩
    · have hne : checkOf i s ≠ none := by simp [hc]
      rcases hrace with ⟨-, rfl⟩ | ⟨-, hnone, -⟩
      · exact .inl ⟨State.running_of_check hd hne, e, rfl⟩
      · exact absurd hnone hne

/-! ## The HashState -/

/-- A command that does not write the HashState leaves it (R160). -/
theorem effectOf_hash_of_not_writesHash {i : Instr} (h : ¬writesHash i) (s : State) :
    (effectOf i s).hash = s.hash := by
  cases i with
  | b2bInit nn kk => exact absurd (.inl ⟨nn, kk, rfl⟩) h
  | b2bUpdate => exact absurd (.inr (.inl rfl)) h
  | b2bFinal => exact absurd (.inr (.inr (.inl rfl))) h
  | b2bCompress last => exact absurd (.inr (.inr (.inr ⟨last, rfl⟩))) h
  | a2Init => rw [effectOf, effectA2Init_fixed]
  | a2Slice => rw [effectOf, effectA2Slice_fixed]
  | a2Final => rw [effectOf, effectA2Final_fixed]
  | a2Run => rw [effectOf, effectA2Run_fixed]
  | _ => rfl

theorem checkB2bInit_none {nn kk : Nat} {s : State} (h : checkB2bInit nn kk s = none) :
    1 ≤ nn ∧ nn ≤ 64 := by
  unfold checkB2bInit at h
  split at h
  · cases h
  · rename_i hlen
    simp only [badHashLengths, Bool.or_eq_true, decide_eq_true_eq] at hlen
    omega

theorem checkB2bUpdate_none {s : State} (h : checkB2bUpdate s = none) : s.hash.st = .absorbing := by
  by_contra hst
  simp [checkB2bUpdate, hst] at h

theorem HashState.init_buflen_le (hs : HashState) (nn : Nat) (key : List Byte) :
    (hs.init nn key).buflen ≤ 128 := by
  simp only [HashState.init]
  split <;> omega

/-- A command keeps BUFLEN and OUTLEN within their widths (R50). -/
theorem effectOf_hashRange {i : Instr} {s : State} (hc : checkOf i s = none) (h : hashRange s) :
    hashRange (effectOf i s) := by
  by_cases hw : writesHash i
  · rcases hw with ⟨nn, kk, rfl⟩ | rfl | rfl | ⟨last, rfl⟩
    · exact ⟨HashState.init_buflen_le .., (checkB2bInit_none hc).2⟩
    · exact ⟨HashState.absorb_buflen_le h.1 _, by simpa [effectOf, effectB2bUpdate] using h.2⟩
    · exact ⟨Nat.zero_le _, h.2⟩
    · exact h
  · unfold hashRange
    rwa [effectOf_hash_of_not_writesHash hw]

/-- A command keeps the limits of the HashState (R57). -/
theorem effectOf_hashOk {i : Instr} {s : State} (hc : checkOf i s = none) (h : hashOk s) :
    hashOk (effectOf i s) := by
  have ⟨hbuf, hout, hlimits⟩ := h
  have ⟨habs, _, _⟩ := hlimits
  by_cases hw : writesHash i
  · obtain ⟨hbuf', hout'⟩ := effectOf_hashRange hc ⟨hbuf, hout⟩
    refine ⟨hbuf', hout', ?_⟩
    rcases hw with ⟨nn, kk, rfl⟩ | rfl | rfl | ⟨last, rfl⟩
    · exact ⟨fun _ => (checkB2bInit_none hc).1, nofun, nofun⟩
    · have hst : (effectOf .b2bUpdate s).hash.st = .absorbing :=
        (HashState.absorb_st ..).trans (checkB2bUpdate_none hc)
      have hlen : (effectOf .b2bUpdate s).hash.outlen = s.hash.outlen := HashState.absorb_outlen ..
      exact ⟨fun _ => hlen ▸ habs (checkB2bUpdate_none hc), by simp [hst], by simp [hst]⟩
    · exact ⟨nofun, nofun, fun _ => rfl⟩
    · exact hlimits
  · unfold hashOk
    rwa [effectOf_hash_of_not_writesHash hw]

theorem SameLimits.hashRange {s t : State} (h : SameLimits s t) (hs : hashRange s) : hashRange t := by
  unfold Claims.hashRange
  rwa [h.buflen, h.outlen]

theorem SameLimits.hashOk {s t : State} (h : SameLimits s t) (hs : hashOk s) : hashOk t := by
  unfold Claims.hashOk
  rwa [h.buflen, h.outlen, h.hashSt]

theorem hashOk_of_reset {s : State} (h : s.hash = HashState.reset) : hashOk s := by
  unfold hashOk
  rw [h]
  exact ⟨Nat.zero_le _, Nat.zero_le _, nofun, fun _ => ⟨rfl, rfl⟩, nofun⟩

/-- Settles O48: a command's effect and, for the widths, a settled race keep the limits; the host writes no
register they speak of, or resets them all. -/
theorem stepKeepsTheHashLimits : Obligations.StepKeepsTheHashLimits := by
  refine ⟨fun s t hs hstep => ?_, fun s t hs hraced hstep => ?_⟩
  · rcases step_cases hstep with rfl | ⟨-, hmove⟩ | ⟨op, rest, -, -, hmove⟩
    · exact hs
    · rcases engineMove_outcome hmove with ⟨-, e, rfl⟩ | ⟨i, hc, ⟨-, rfl⟩ | ⟨-, rfl⟩⟩
      · exact hs
      · exact effectOf_hashRange hc hs
      · obtain ⟨hbuf, hout⟩ := effectOf_hashRange hc hs
        exact racedHash_range i s.draws hbuf hout
    · rcases hostMove_limits hmove with ⟨hreset, -⟩ | hsame
      · obtain ⟨hbuf, hout, -⟩ := hashOk_of_reset hreset
        exact ⟨hbuf, hout⟩
      · exact hsame.hashRange hs
  · rcases step_cases hstep with rfl | ⟨-, hmove⟩ | ⟨op, rest, -, -, hmove⟩
    · exact hs
    · rcases engineMove_outcome hmove with ⟨-, e, rfl⟩ | ⟨i, hc, ⟨-, rfl⟩ | ⟨hr, -⟩⟩
      · exact hs
      · exact effectOf_hashOk hc hs
      · simp [hraced] at hr
    · rcases hostMove_limits hmove with ⟨hreset, -⟩ | hsame
      · exact hashOk_of_reset hreset
      · exact hsame.hashOk hs

/-! ## The run registers -/

/-- The commands that write run registers (the "Writes" of R206..R211). -/
def writesRun : Instr → Bool
  | .a2H0 | .a2Init | .a2Slice | .a2Final | .a2Run | .a2Abort => true
  | _ => false

theorem effectOf_run_of_not_writesRun {i : Instr} (h : writesRun i = false) (s : State) :
    (effectOf i s).run = s.run := by
  cases i with
  | a2H0 | a2Init | a2Slice | a2Final | a2Run | a2Abort => cases h
  | _ => rfl

theorem effectOf_cfg (i : Instr) (s : State) : (effectOf i s).cfg = s.cfg := by
  rw [effectOf_fixed]

theorem effectOf_a2 (i : Instr) (s : State) : (effectOf i s).a2 = s.a2 := by
  rw [effectOf_fixed]

theorem State.valid_iff_fits (s : State) (a n : Nat) : s.valid a n = true ↔ fits s a n := by
  simp [State.valid, fits]

/-- The checks of A2.H0 and A2.RUN accept what R201 and R202 accept. -/
theorem configOk_of_checkParams {s : State} (h : checkParams s = none) : configOk s := by
  obtain ⟨hparams, hregions, hmatrix⟩ := checkParams_none h
  simp only [badParams, Bool.or_eq_false_iff, decide_eq_false_iff_not] at hparams
  simp only [inputRegions, tagRegion, List.cons_append, List.nil_append, List.forall_mem_cons,
    State.valid_iff_fits] at hregions
  obtain ⟨hpwd, hsalt, hsecret, had, htag, -⟩ := hregions
  obtain ⟨⟨⟨⟨ht, hp⟩, hty⟩, htaglen⟩, hm⟩ := hparams
  exact ⟨by omega, by omega, by omega, by omega, by omega, hpwd, hsalt, hsecret, had, htag,
    (s.valid_iff_fits _ _).mp hmatrix⟩

theorem checkStart_none {s : State} (h : checkStart s = none) :
    s.run.st.active = false ∧ checkParams s = none := by
  unfold checkStart at h
  split at h
  · cases h
  · exact ⟨by rwa [Bool.not_eq_true] at *, h⟩

theorem checkA2Init_none {s : State} (h : checkA2Init s = none) : s.run.st = .seedDerived := by
  by_contra hst
  simp [checkA2Init, hst] at h

theorem checkA2Slice_none {s : State} (h : checkA2Slice s = none) :
    s.run.st = .initFilled ∨ s.run.st = .filling := by
  by_contra hst
  obtain ⟨h1, h2⟩ := not_or.mp hst
  simp [checkA2Slice, h1, h2] at h

theorem checkA2Final_none {s : State} (h : checkA2Final s = none) : s.run.st = .filled := by
  by_contra hst
  simp [checkA2Final, hst] at h

/-- A command that writes run registers, but for A2.ABORT, runs with an accepted configuration: it checks it,
or a run is active. -/
theorem configOk_of_writesRun {i : Instr} {s : State} (hw : writesRun i = true) (ha : i ≠ .a2Abort)
    (hc : checkOf i s = none) (h : acceptedConfig s) : configOk s := by
  cases i with
  | a2H0 => exact configOk_of_checkParams (checkStart_none hc).2
  | a2Run => exact configOk_of_checkParams (checkStart_none hc).2
  | a2Init => exact h (by rw [checkA2Init_none hc]; rfl)
  | a2Slice => exact h (by rcases checkA2Slice_none hc with e | e <;> rw [e] <;> rfl)
  | a2Final => exact h (by rw [checkA2Final_none hc]; rfl)
  | a2Abort => exact absurd rfl ha
  | _ => cases hw

theorem configOk_congr {s t : State} (hcfg : t.cfg = s.cfg) (ha2 : t.a2 = s.a2) (h : configOk s) :
    configOk t := by
  unfold configOk fits
  rwa [hcfg, ha2]

theorem racedRun_of_not_writesRun {i : Instr} (h : writesRun i = false) (r : RunCtx) (d : Nat) :
    racedRun i r d = r := by
  cases i with
  | a2H0 | a2Init | a2Slice | a2Final | a2Run | a2Abort => cases h
  | _ => rfl

/-- Whatever the command leaves in its run registers, an active run has an accepted configuration. -/
theorem acceptedConfig_of_command {i : Instr} {s t : State} (hc : checkOf i s = none)
    (hs : acceptedConfig s) (hcfg : t.cfg = s.cfg) (ha2 : t.a2 = s.a2)
    (hkeep : writesRun i = false → t.run = s.run) (habort : i = .a2Abort → t.run = RunCtx.reset) :
    acceptedConfig t := by
  intro hactive
  apply configOk_congr hcfg ha2
  cases hw : writesRun i with
  | false => exact hs (hkeep hw ▸ hactive)
  | true =>
    by_cases ha : i = .a2Abort
    · rw [habort ha] at hactive
      cases hactive
    · exact configOk_of_writesRun hw ha hc hs

theorem SameLimits.acceptedConfig {s t : State} (h : SameLimits s t) (hs : acceptedConfig s) :
    acceptedConfig t := by
  intro hactive
  rw [h.run] at hactive
  exact configOk_congr h.cfg (h.a2 hactive) (hs hactive)

/-- Every step keeps the configuration of an active run accepted, after a race too. -/
theorem step_acceptedConfig {s t : State} (hs : acceptedConfig s) (hstep : step s = .next t) :
    acceptedConfig t := by
  rcases step_cases hstep with rfl | ⟨-, hmove⟩ | ⟨op, rest, -, -, hmove⟩
  · exact hs
  · rcases engineMove_outcome hmove with ⟨-, e, rfl⟩ | ⟨i, hc, ⟨-, rfl⟩ | ⟨-, rfl⟩⟩
    · exact hs
    · exact acceptedConfig_of_command hc hs (effectOf_cfg i s) (effectOf_a2 i s)
        (effectOf_run_of_not_writesRun · s) (fun h => by rw [h]; rfl)
    · exact acceptedConfig_of_command hc hs (effectOf_cfg i s) (effectOf_a2 i s)
        (fun hw => (racedRun_of_not_writesRun hw _ _).trans (effectOf_run_of_not_writesRun hw s))
        (fun h => by rw [h]; rfl)
  · rcases hostMove_limits hmove with ⟨-, hreset⟩ | hsame
    · intro hactive
      rw [hreset] at hactive
      cases hactive
    · exact hsame.acceptedConfig hs

theorem A2St.not_active {st : A2St} (h : st.active = false) : st = .unconfigured ∨ st = .finalized := by
  cases st with
  | unconfigured => exact .inl rfl
  | finalized => exact .inr rfl
  | _ => cases h

/-- `runOk` depends on the parameters, the run registers, and the configuration of an active run. -/
theorem runOk_congr {s t : State} (hcfg : t.cfg = s.cfg) (hrun : t.run = s.run)
    (ha2 : s.run.st.active = true → t.a2 = s.a2) (h : runOk s) : runOk t := by
  cases hst : s.run.st.active with
  | true =>
    unfold runOk configOk sized fits
    rwa [hcfg, hrun, ha2 hst]
  | false =>
    obtain ⟨-, hregs⟩ := h
    refine ⟨fun hactive => ?_, ?_⟩
    · rw [hrun, hst] at hactive
      cases hactive
    · rw [hrun]
      rcases A2St.not_active hst with e | e <;> simp only [e] at hregs ⊢ <;> exact hregs

theorem runOk_of_reset {s : State} (h : s.run = RunCtx.reset) : runOk s := by
  unfold runOk
  rw [h]
  exact ⟨nofun, rfl, rfl, rfl, rfl, rfl⟩

/-- A2.H0 sizes the run as R192 does. -/
theorem effectA2H0_sized {s : State} (h : configOk s) : sized (effectA2H0 s) := by
  obtain ⟨-, hp, -⟩ := h
  have hm := s.a2.m.isLt
  have hlane := laneLen_le s.a2.m.toNat hp
  have hseg := four_mul_segLen s.a2.m.toNat s.a2.p.toNat
  have hl : (effectA2H0 s).run.lanelen.toNat = laneLen s.a2.m.toNat s.a2.p.toNat :=
    toNat_ofNat_of_le hlane hm
  have hs : (effectA2H0 s).run.seglen.toNat = segLen s.a2.m.toNat s.a2.p.toNat :=
    toNat_ofNat_of_le (m := s.a2.m.toNat) (by omega) hm
  have hmp : (effectA2H0 s).run.mprime.toNat = mPrime s.a2.m.toNat s.a2.p.toNat :=
    toNat_ofNat_of_le (mPrime_le _ _) hm
  exact ⟨hl, by rw [hs, hl]; omega, by rw [hmp, hl]; rfl⟩

/-- The sizes of an accepted configuration are whole segments of two blocks or more (R192). -/
theorem geometry_of_sized {s : State} (hc : configOk s) (hs : sized s) :
    2 ≤ s.run.seglen.toNat ∧ s.run.lanelen.toNat = 4 * s.run.seglen.toNat := by
  obtain ⟨-, hp, -, -, hm, -⟩ := hc
  obtain ⟨hlane, hseg, -⟩ := hs
  have := two_le_segLen hp hm
  simp only [segLen, laneLen] at this
  omega

theorem sized_congr {s t : State} (ha2 : t.a2 = s.a2) (hl : t.run.lanelen = s.run.lanelen)
    (hs : t.run.seglen = s.run.seglen) (hm : t.run.mprime = s.run.mprime) (h : sized s) :
    sized t := by
  unfold sized
  rwa [ha2, hl, hs, hm]

/-- The slices done so far, four to a pass, are fewer than all, in a state that A2.SLICE accepts. -/
theorem slices_done {s : State} (hc : checkA2Slice s = none) (h : runOk s) :
    s.run.slice.toNat ≤ 3 ∧ s.run.pass.toNat < s.a2.t.toNat := by
  obtain ⟨hactive, hregs⟩ := h
  rcases checkA2Slice_none hc with hst | hst <;> simp only [hst] at hactive hregs
  · obtain ⟨hpass, hslice⟩ := hregs
    obtain ⟨⟨ht, -⟩, -⟩ := hactive rfl
    rw [hpass, hslice]
    exact ⟨by decide, ht⟩
  · exact ⟨hregs.2.1, hregs.1⟩

theorem effectA2H0_runOk {s : State} (hc : checkStart s = none) : runOk (effectA2H0 s) := by
  have hconfig := configOk_of_checkParams (checkStart_none hc).2
  exact ⟨fun _ => ⟨hconfig, effectA2H0_sized hconfig⟩, rfl, rfl⟩

theorem effectA2Init_runOk {s : State} (hc : checkA2Init s = none) (h : runOk s) :
    runOk (effectA2Init s) := by
  have hst := checkA2Init_none hc
  obtain ⟨hactive, hregs⟩ := h
  simp only [hst] at hactive hregs
  rw [effectA2Init_fixed]
  exact ⟨fun _ => hactive rfl, hregs⟩

theorem runOk_of_filling {s : State} (hst : s.run.st = .filling) (hconfig : configOk s)
    (hsized : sized s) (hpass : s.run.pass.toNat < s.a2.t.toNat) (hslice : s.run.slice.toNat ≤ 3)
    (hsome : ¬(s.run.pass = 0 ∧ s.run.slice = 0)) : runOk s := by
  unfold runOk
  rw [hst]
  exact ⟨fun _ => ⟨hconfig, hsized⟩, hpass, hslice, hsome⟩

theorem runOk_of_filled {s : State} (hst : s.run.st = .filled) (hconfig : configOk s)
    (hsized : sized s) (hpass : s.run.pass = s.a2.t) (hslice : s.run.slice = 0) : runOk s := by
  unfold runOk
  rw [hst]
  exact ⟨fun _ => ⟨hconfig, hsized⟩, hpass, hslice⟩

/-- A slice moves the run on by one, and past the last slice the run is filled (R59, R208). -/
theorem effectA2Slice_runOk {s : State} (hc : checkA2Slice s = none) (h : runOk s) :
    runOk (effectA2Slice s) := by
  obtain ⟨hslice, hpass⟩ := slices_done hc h
  obtain ⟨hpass', hslice', hst'⟩ := RunCtx.afterSlice_count (r := s.run) (t := s.a2.t)
    (k := 4 * s.run.pass.toNat + s.run.slice.toNat) (by omega) (by omega) (by omega)
  have hactive : s.run.st.active = true := by
    rcases checkA2Slice_none hc with e | e <;> rw [e] <;> rfl
  obtain ⟨hconfig, hsized⟩ := h.1 hactive
  have ha2 : (effectA2Slice s).a2 = s.a2 := effectOf_a2 .a2Slice s
  have hconfig' := configOk_congr (effectOf_cfg .a2Slice s) ha2 hconfig
  have hsized' : sized (effectA2Slice s) := by
    rw [effectA2Slice_fixed]
    exact hsized
  by_cases hlast : 4 * s.run.pass.toNat + s.run.slice.toNat + 1 = 4 * s.a2.t.toNat
  · rw [if_pos hlast] at hst'
    refine runOk_of_filled hst' hconfig' hsized' ?_ ?_ <;> apply BitVec.eq_of_toNat_eq
    · exact hpass'.trans (by rw [ha2]; omega)
    · exact hslice'.trans (by simp; omega)
  · rw [if_neg hlast] at hst'
    refine runOk_of_filling hst' hconfig' hsized' (hpass'.trans_lt ?_) (hslice'.trans_le ?_) ?_
    · rw [ha2]; omega
    · omega
    · rintro ⟨hp, hs⟩
      have hp0 := hpass'.symm.trans (congrArg BitVec.toNat hp)
      have hs0 := hslice'.symm.trans (congrArg BitVec.toNat hs)
      simp only [BitVec.ofNat_eq_ofNat, BitVec.toNat_ofNat] at hp0 hs0
      omega

theorem effectA2Final_runOk {s : State} (hc : checkA2Final s = none) (h : runOk s) :
    runOk (effectA2Final s) := by
  have hst := checkA2Final_none hc
  obtain ⟨hactive, hregs⟩ := h
  simp only [hst] at hactive hregs
  obtain ⟨hconfig, hsized⟩ := hactive rfl
  obtain ⟨hseg, hlane⟩ := geometry_of_sized hconfig hsized
  rw [effectA2Final_fixed]
  exact ⟨nofun, hregs.2, hseg, hlane⟩

/-- A2.RUN goes through all its slices and ends as A2.FINAL ends (R210). -/
theorem effectA2Run_runOk {s : State} (hc : checkStart s = none) : runOk (effectA2Run s) := by
  have hconfig := configOk_of_checkParams (checkStart_none hc).2
  obtain ⟨hseg, hlane⟩ := geometry_of_sized (s := effectA2H0 s) hconfig (effectA2H0_sized hconfig)
  have ha2 : (effectA2Init (effectA2H0 s)).a2 = s.a2 := effectOf_a2 .a2Init _
  obtain ⟨-, hslice, -⟩ := fillSlices_count (n := 4 * s.a2.t.toNat) (k := 0)
    (s := effectA2Init (effectA2H0 s)) rfl rfl (by rw [ha2]; omega)
  have hfixed := fillSlices_fixed (4 * s.a2.t.toNat) (effectA2Init (effectA2H0 s))
  refine ⟨nofun, BitVec.eq_of_toNat_eq (hslice.trans (by simp)), ?_, ?_⟩
  · change 2 ≤ (fillSlices _ _).run.seglen.toNat
    rw [hfixed]
    exact hseg
  · change (fillSlices _ _).run.lanelen.toNat = 4 * (fillSlices _ _).run.seglen.toNat
    rw [hfixed]
    exact hlane

/-- A command keeps the run registers within what their state allows (R49, R59, R192). -/
theorem effectOf_runOk {i : Instr} {s : State} (hc : checkOf i s = none) (h : runOk s) :
    runOk (effectOf i s) := by
  cases hw : writesRun i with
  | false =>
    exact runOk_congr (effectOf_cfg i s) (effectOf_run_of_not_writesRun hw s)
      (fun _ => effectOf_a2 i s) h
  | true =>
    cases i with
    | a2H0 => exact effectA2H0_runOk hc
    | a2Init => exact effectA2Init_runOk hc h
    | a2Slice => exact effectA2Slice_runOk hc h
    | a2Final => exact effectA2Final_runOk hc h
    | a2Run => exact effectA2Run_runOk hc
    | a2Abort => exact runOk_of_reset rfl
    | _ => cases hw

/-- Settles O49: a command that writes run registers checks the configuration or the run is active, and each
command that ends within R59's table leaves what its state allows; the host cannot touch an active run, but
by a reset. -/
theorem stepKeepsTheRunLimits : Obligations.StepKeepsTheRunLimits := by
  refine ⟨fun s t hs hstep => step_acceptedConfig hs hstep, fun s t hs hraced hstep => ?_⟩
  rcases step_cases hstep with rfl | ⟨-, hmove⟩ | ⟨op, rest, -, -, hmove⟩
  · exact hs
  · rcases engineMove_outcome hmove with ⟨-, e, rfl⟩ | ⟨i, hc, ⟨-, rfl⟩ | ⟨hr, -⟩⟩
    · exact hs
    · exact effectOf_runOk hc hs
    · simp [hraced] at hr
  · rcases hostMove_limits hmove with ⟨-, hreset⟩ | hsame
    · exact runOk_of_reset hreset
    · exact runOk_congr hsame.cfg hsame.run hsame.a2 hs

/-! ## The flags -/

theorem raced_of_not_running {s : State} (h : statusOk s) (hr : s.running = none) :
    s.raced = false := by
  obtain ⟨-, -, hraced⟩ := h
  cases hs : s.raced with
  | false => rfl
  | true => exact absurd hr (hraced hs)

theorem statusOk_congr {s t : State} (hstatus : t.status = s.status) (hraced : t.raced = s.raced)
    (hrunning : t.running = s.running) (h : statusOk s) : statusOk t := by
  unfold statusOk
  rwa [hstatus, hraced, hrunning]

/-- With no race on record the flags alone count. -/
theorem statusOk_of_not_raced {s : State} (hr : s.raced = false)
    (hbusy : s.status.busy = true → s.status.done = false ∧ s.status.err = false)
    (herr : s.status.err = true ↔ s.status.errcode ≠ none) : statusOk s :=
  ⟨hbusy, herr, by simp [hr]⟩

theorem statusOk_raise {s : State} (h : statusOk s) (hr : s.running = none) (e : Cause) :
    statusOk (s.raise e) := by
  have hraced : s.raced = false := raced_of_not_running h hr
  exact statusOk_of_not_raced hraced nofun (by simp)

theorem statusOk_of_reset {s : State} (hs : s.status = Status.reset) (hr : s.raced = false) :
    statusOk s :=
  statusOk_of_not_raced hr (by rw [hs]; nofun) (by rw [hs]; decide)

/-- The accesses to come, what the host has seen, DMEM and the drawing do not bear on the flags. -/
theorem statusOk_frame {s : State} (h : statusOk s) (m : Memory) (ins : List HostOp)
    (seen : List HostObs) (turn : Agent) (draws : Nat) :
    statusOk { s with dmem := m, inputs := ins, seen := seen, turn := turn, draws := draws } :=
  statusOk_congr (s := s) rfl rfl (State.running_frame s m ins seen turn s.raced draws) h

theorem statusOk_redraw {s : State} (h : statusOk s) : statusOk s.redraw :=
  statusOk_frame h s.dmem s.inputs s.seen _ _

theorem statusOk_observe {s : State} (h : statusOk s) (o : HostObs) : statusOk (s.observe o).redraw :=
  statusOk_redraw (statusOk_frame h s.dmem s.inputs (o :: s.seen) s.turn s.draws)

/-- A register write of the host keeps the flags consistent. -/
theorem RegWrite.statusOk {s t : State} (hw : RegWrite s t) (h : statusOk s) : statusOk t := by
  have hnoRace (hidle : s.status.busy = false) : s.raced = false :=
    raced_of_not_running h (State.running_of_idle hidle)
  have hrunning (f : Status) (hb : f.busy = s.status.busy) :
      State.running { s with status := f } = s.running := State.running_status s.irqEn hb
  have ⟨hbusy, herr, hraced⟩ := h
  cases hw with
  | ignored => exact h
  | accepted v hidle => exact statusOk_of_not_raced rfl (fun _ => ⟨rfl, rfl⟩) (by simp)
  | overran => exact ⟨hbusy, herr, fun hr => (hrunning s.status.overran rfl).trans_ne (hraced hr)⟩
  | cleared v =>
    refine ⟨fun hb => ?_, ?_, fun hr => (hrunning (s.status.cleared v) rfl).trans_ne (hraced hr)⟩
    · obtain ⟨hdone, herr⟩ := hbusy hb
      simp [hdone, herr]
    · cases hv : v.getLsbD 2 <;> simp only [Status.cleared_err, Status.cleared_errcode, hv] <;>
        simp [herr]
  | softReset => exact statusOk_of_reset rfl rfl
  | irqEn b => exact statusOk_congr (s := s) rfl rfl (State.running_status b rfl) h
  | operands args h8 t0 t1 hidle => exact statusOk_of_not_raced (hnoRace hidle) hbusy herr
  | config a2 hidle hrun => exact statusOk_of_not_raced (hnoRace hidle) hbusy herr

/-- Only a running command has a footprint. -/
theorem State.running_of_footprint {s : State} {a : Nat} (h : inRegions s.footprint a = true) :
    s.running ≠ none := by
  intro hr
  simp [State.footprint, hr, inRegions] at h

theorem statusOk_hostStore {s : State} (h : statusOk s) (a : Nat) (b : Byte) :
    statusOk (s.hostStore a b) := by
  unfold State.hostStore
  split
  next hin =>
    obtain ⟨hbusy, herr, -⟩ := h
    have hrunning := State.running_frame s (s.dmem.write a [Config.anyByte s.draws a]) s.inputs s.seen
      s.turn true s.draws
    exact ⟨hbusy, herr, fun _ => hrunning.trans_ne (State.running_of_footprint hin)⟩
  next => exact statusOk_frame h _ s.inputs s.seen s.turn s.draws

theorem hostMove_statusOk {op : HostOp} {s t : State} (h : statusOk s)
    (hmove : hostMove op s = .next t) : statusOk t := by
  rcases hostMove_cases hmove with ⟨off, v, -, -, rfl⟩ | ⟨off, -, -, rfl⟩ | ⟨a, b, -, -, rfl⟩ |
    ⟨a, -, -, rfl⟩ | ⟨-, rfl⟩ | ⟨-, rfl⟩ | ⟨-, rfl⟩
  · exact statusOk_redraw ((s.writeReg_regWrite off v).statusOk h)
  · exact statusOk_observe h _
  · exact statusOk_redraw (statusOk_hostStore h a b)
  · exact statusOk_observe h _
  · exact statusOk_observe h _
  · exact statusOk_observe h _
  · exact statusOk_of_reset rfl rfl

/-- Settles O51: a completion leaves BUSY at 0 and no race on record, for only a running command can be raced
with; the host's writes change the flags as R38, R271 and R279 say, or reset them. -/
theorem stepKeepsTheFlagsConsistent : Obligations.StepKeepsTheFlagsConsistent := by
  intro s t hs hstep
  rcases step_cases hstep with rfl | ⟨-, hmove⟩ | ⟨op, rest, -, -, hmove⟩
  · exact hs
  · rcases engineMove_outcome hmove with ⟨hr, e, rfl⟩ | ⟨i, hc, ⟨hr, rfl⟩ | ⟨-, rfl⟩⟩
    · exact statusOk_raise hs hr e
    · have hraced : (effectOf i s).raced = s.raced := by rw [effectOf_fixed]
      exact statusOk_of_not_raced (hraced.trans hr) nofun (by simp)
    · exact statusOk_of_not_raced rfl nofun (by simp [settleRace])
  · exact hostMove_statusOk (statusOk_frame hs s.dmem rest s.seen s.turn s.draws) hmove

end Sys2Proof.Machine
end

section
/-! SUPPORT. The register map of R36 as the host reads and writes it: the kinds of offsets, the fields of the
status words, and what one access of the host changes. -/

namespace Sys2Proof.Machine
open Sys2Proof.Claims

/-! ## The offsets of R36 by the register that stands there -/

/-- The registers the host writes when idle, whatever the run (R43, R46, R47). -/
def Reg.operand : Reg → Bool
  | .arg _ _ | .b2bH _ _ | .b2bT0 _ | .b2bT1 _ => true
  | _ => false

/-- The configuration registers (R48). -/
def Reg.config : Reg → Bool
  | .a2cfg _ => true
  | _ => false

theorem Reg.unstableOffset_iff (r : Reg) : unstableOffset r.offset ↔ r.unstable = true := by
  cases r <;> grind [unstableOffset, Reg.offset, Reg.unstable, Bool.toNat_le]

theorem Reg.writableOffset_iff (r : Reg) : writableOffset r.offset ↔ r.operand = true := by
  cases r <;> grind [writableOffset, Reg.offset, Reg.operand, Bool.toNat_le]

theorem Reg.configOffset_iff (r : Reg) : configOffset r.offset ↔ r.config = true := by
  cases r <;> grind [configOffset, Reg.offset, Reg.config, Bool.toNat_le]

theorem Reg.mappedOffset_offset (r : Reg) : mappedOffset r.offset := by
  cases r <;> grind [mappedOffset, Reg.offset, Bool.toNat_le]

/-- The map leaves out no offset that R36 lists. -/
theorem not_mappedOffset_of_regAt {off : Nat} (h : regAt off = none) : ¬mappedOffset off := by
  rintro ⟨ha, hrange⟩
  unfold regAt at h
  iterate 21
    rcases ite_eq_cases h with ⟨_, h⟩ | ⟨_, h⟩
    · cases h
  omega

/-- At every offset of R36 stands a register. -/
theorem exists_reg_of_mappedOffset {off : Nat} (h : mappedOffset off) : ∃ r : Reg, r.offset = off := by
  cases hr : regAt off with
  | none => exact absurd h (not_mappedOffset_of_regAt hr)
  | some r => exact ⟨r, offset_of_regAt h.1 hr⟩

theorem regAt_of_not_mappedOffset {off : Nat} (ha : off % 4 = 0) (h : ¬mappedOffset off) :
    regAt off = none := by
  cases hr : regAt off with
  | none => rfl
  | some r => exact absurd (offset_of_regAt ha hr ▸ r.mappedOffset_offset) h

theorem mappedOffset_of_writableOffset {off : Nat} (h : writableOffset off) : mappedOffset off := by
  obtain ⟨ha, h⟩ := h
  exact ⟨ha, by omega⟩

theorem mappedOffset_of_configOffset {off : Nat} (h : configOffset off) : mappedOffset off := by
  obtain ⟨ha, h⟩ := h
  exact ⟨ha, by omega⟩

theorem mappedOffset_of_unstableOffset {off : Nat} (h : unstableOffset off) : mappedOffset off := by
  obtain ⟨ha, h⟩ := h
  exact ⟨ha, by omega⟩

/-! ## Writes that are ignored -/

/-- A write at a register other than CMD, STATUS and CTRL, by its offset (R53). -/
theorem State.writeReg_offset (s : State) {r : Reg} (h0 : r.offset ≠ 0x000) (h4 : r.offset ≠ 0x004)
    (h8 : r.offset ≠ 0x008) (v : U32) :
    s.writeReg r.offset v = if s.status.busy then s else s.writeIdle r v :=
  State.writeReg_of_some (regAt_offset r) (fun h => h0 (by rw [h]; rfl)) (fun h => h4 (by rw [h]; rfl))
    (fun h => h8 (by rw [h]; rfl)) v

/-- The registers that are neither operands nor configuration ignore a write when idle (R63). -/
theorem State.writeIdle_readOnly (s : State) {r : Reg} (ho : r.operand = false) (hc : r.config = false)
    (v : U32) : s.writeIdle r v = s := by
  cases r with
  | arg n hi => cases ho
  | b2bH i hi => cases ho
  | b2bT0 hi => cases ho
  | b2bT1 hi => cases ho
  | a2cfg k => cases hc
  | _ => rfl

/-- A run that is active keeps its configuration (R54). -/
theorem State.writeIdle_active {s : State} {r : Reg} (hc : r.config = true)
    (hrun : s.run.st.active = true) (v : U32) : s.writeIdle r v = s := by
  cases r with
  | a2cfg k => exact if_pos hrun
  | _ => cases hc

/-- Settles O12: at an offset of no row nothing stands, and a read-only register is no operand and no
configuration register. -/
theorem reservedAndReadOnlyIgnoreWrites : Obligations.ReservedAndReadOnlyIgnoreWrites := by
  refine fun s off v _ ha => ⟨fun hno => ?_, fun hro => ?_⟩
  · have hnone := regAt_of_not_mappedOffset ha hno
    exact ⟨State.readReg_of_none hnone, State.writeReg_of_none hnone v⟩
  · obtain ⟨hmapped, h0, h4, h8, hnw, hnc⟩ := hro
    obtain ⟨r, rfl⟩ := exists_reg_of_mappedOffset hmapped
    rw [r.writableOffset_iff, Bool.not_eq_true] at hnw
    rw [r.configOffset_iff, Bool.not_eq_true] at hnc
    rw [s.writeReg_offset h0 h4 h8, State.writeIdle_readOnly s hnw hnc, ite_self]

theorem Reg.offset_ne_of_config {r : Reg} (h : r.config = true) {c : Nat} (hc : c < 0x200) :
    r.offset ≠ c := by
  obtain ⟨-, hlo, -⟩ := r.configOffset_iff.mpr h
  omega

theorem Reg.offset_ne_of_operand {r : Reg} (h : r.operand = true) {c : Nat} (hc : c < 0x020) :
    r.offset ≠ c := by
  obtain ⟨-, hrange⟩ := r.writableOffset_iff.mpr h
  omega

/-- Settles O13: while busy only CMD, STATUS and CTRL take a write, and an active run keeps its
configuration. -/
theorem writesWhileBusyOrRunningAreIgnored : Obligations.WritesWhileBusyOrRunningAreIgnored := by
  refine fun s off v ha => ⟨fun hbusy h0 h4 h8 => ?_, fun hconfig hrun => ?_⟩
  · cases hr : regAt off with
    | none => exact State.writeReg_of_none hr v
    | some r =>
      obtain rfl := offset_of_regAt ha hr
      rw [s.writeReg_offset h0 h4 h8, if_pos hbusy]
  · obtain ⟨r, rfl⟩ := exists_reg_of_mappedOffset (mappedOffset_of_configOffset hconfig)
    have hc := r.configOffset_iff.mp hconfig
    have hne {c : Nat} := Reg.offset_ne_of_config hc (c := c)
    rw [s.writeReg_offset (hne (by decide)) (hne (by decide)) (hne (by decide)),
      State.writeIdle_active hc hrun, ite_self]

/-! ## Writes that are taken -/

/-- Whether an idle engine takes a write to the register: an operand, or the configuration when no run uses
it (R43, R46..R48, R54). -/
def State.takes (s : State) (r : Reg) : Prop :=
  r.operand = true ∨ r.config = true ∧ s.run.st.active = false

theorem State.takes.writeReg {s : State} {r : Reg} (h : s.takes r) (hidle : s.status.busy = false)
    (v : U32) : s.writeReg r.offset v = s.writeIdle r v := by
  have hne {c : Nat} (hc : c < 0x020) : r.offset ≠ c := by
    rcases h with ho | ⟨hconfig, -⟩
    · exact Reg.offset_ne_of_operand ho hc
    · exact Reg.offset_ne_of_config hconfig (by omega)
  rw [s.writeReg_offset (hne (by decide)) (hne (by decide)) (hne (by decide)), hidle]
  rfl

theorem State.writeIdle_status (s : State) (r : Reg) (v : U32) : (s.writeIdle r v).status = s.status := by
  cases r with
  | a2cfg k => simp only [State.writeIdle]; split <;> rfl
  | _ => rfl

/-- A half of an array of 64-bit registers after a write to that half. -/
theorem halfOf_set_same (xs : Vector Word 8) (n : Fin 8) (hi : Bool) (v : U32) :
    halfOf (xs.set n (withHalf xs[n] hi v))[n] hi = v := by simp

/-- A half of an array of 64-bit registers after a write to another half. -/
theorem halfOf_set_other (xs : Vector Word 8) {n n' : Fin 8} {hi hi' : Bool}
    (h : ¬(n' = n ∧ hi' = hi)) (v : U32) :
    halfOf (xs.set n (withHalf xs[n] hi v))[n'] hi' = halfOf xs[n'] hi' := by
  by_cases hn : n' = n
  · subst hn
    obtain rfl : hi' = !hi := Bool.eq_not_of_ne fun e => h ⟨rfl, e⟩
    simp
  · have hne : n.val ≠ n'.val := fun e => hn (Fin.ext e.symm)
    simp [Vector.getElem_set_ne _ _ hne]

/-- A write an idle engine takes is read back (R63). -/
theorem State.takes.regValue {s : State} {r : Reg} (h : s.takes r) (v : U32) :
    (s.writeIdle r v).regValue r = v := by
  cases r with
  | arg n hi => exact halfOf_set_same s.args n hi v
  | b2bH i hi => exact halfOf_set_same s.hash.h i hi v
  | b2bT0 hi => exact halfOf_withHalf_same ..
  | b2bT1 hi => exact halfOf_withHalf_same ..
  | a2cfg k =>
    have hrun : s.run.st.active = false := by simpa [State.takes, Reg.operand, Reg.config] using h
    simp [State.writeIdle, hrun, State.regValue]
  | _ => simp [State.takes, Reg.operand, Reg.config] at h

/-- A write when idle changes what no other register reads as (R63). -/
theorem State.regValue_writeIdle_other (s : State) {r r' : Reg} (h : r' ≠ r) (v : U32) :
    (s.writeIdle r v).regValue r' = s.regValue r' := by
  cases r with
  | arg n hi =>
    cases r' with
    | arg n' hi' => exact halfOf_set_other s.args (by rintro ⟨rfl, rfl⟩; exact h rfl) v
    | _ => rfl
  | b2bH i hi =>
    cases r' with
    | b2bH i' hi' => exact halfOf_set_other s.hash.h (by rintro ⟨rfl, rfl⟩; exact h rfl) v
    | _ => rfl
  | b2bT0 hi =>
    cases r' with
    | b2bT0 hi' =>
      obtain rfl : hi' = !hi := Bool.eq_not_of_ne fun e => h (by rw [e])
      exact halfOf_withHalf_other ..
    | _ => rfl
  | b2bT1 hi =>
    cases r' with
    | b2bT1 hi' =>
      obtain rfl : hi' = !hi := Bool.eq_not_of_ne fun e => h (by rw [e])
      exact halfOf_withHalf_other ..
    | _ => rfl
  | a2cfg k =>
    simp only [State.writeIdle]
    split
    · rfl
    · cases r' with
      | a2cfg k' => exact A2Config.get_set_other s.a2 (by rintro rfl; exact h rfl) v
      | _ => rfl
  | _ => rfl

/-- What an idle engine's register reads as is its value. -/
theorem State.readReg_idle {s : State} (hidle : s.status.busy = false) (r : Reg) :
    s.readReg r.offset = s.regValue r := by
  simp [State.readReg_of_some (regAt_offset r), hidle]

/-- What a register that no command disturbs reads as is its value (R52). -/
theorem State.readReg_stable (s : State) {r : Reg} (h : r.unstable = false) :
    s.readReg r.offset = s.regValue r := by
  simp [State.readReg_of_some (regAt_offset r), h]

theorem State.takes.readReg_same {s : State} {r : Reg} (h : s.takes r) (hidle : s.status.busy = false)
    (v : U32) : (s.writeReg r.offset v).readReg r.offset = v := by
  rw [h.writeReg hidle, State.readReg_idle (by rw [State.writeIdle_status, hidle]), h.regValue]

theorem State.takes.readReg_other {s : State} {r : Reg} (h : s.takes r) (hidle : s.status.busy = false)
    (v : U32) {other : Nat} (ha : other % 4 = 0) (hne : other ≠ r.offset) :
    (s.writeReg r.offset v).readReg other = s.readReg other := by
  have hidle' : (s.writeIdle r v).status.busy = false := by rw [State.writeIdle_status, hidle]
  rw [h.writeReg hidle]
  cases hr : regAt other with
  | none => rw [State.readReg_of_none hr, State.readReg_of_none hr]
  | some r' =>
    obtain rfl := offset_of_regAt ha hr
    rw [State.readReg_idle hidle', State.readReg_idle hidle,
      State.regValue_writeIdle_other s (by rintro rfl; exact hne rfl)]

/-- A write an idle engine takes, at an offset given as a number. -/
theorem State.takes.writeReg_at {s : State} {r : Reg} (h : s.takes r) (hidle : s.status.busy = false)
    {off : Nat} (hoff : r.offset = off) (v : U32) : s.writeReg off v = s.writeIdle r v :=
  hoff ▸ h.writeReg hidle v

theorem operandWrites_of_idle {s : State} (hidle : s.status.busy = false) (v : U32) :
    operandWrites s v := by
  have hwrite {r : Reg} (ho : r.operand = true) {off : Nat} (hoff : r.offset = off) :
      s.writeReg off v = s.writeIdle r v := State.takes.writeReg_at (.inl ho) hidle hoff v
  refine ⟨fun n => ⟨?_, ?_⟩, fun i => ⟨?_, ?_⟩, ?_, ?_, ?_, ?_⟩
  · exact hwrite (r := .arg n false) rfl rfl
  · exact hwrite (r := .arg n true) rfl (by rw [Reg.offset, Bool.toNat_true]; omega)
  · exact hwrite (r := .b2bH i false) rfl rfl
  · exact hwrite (r := .b2bH i true) rfl (by rw [Reg.offset, Bool.toNat_true]; omega)
  · exact hwrite (r := .b2bT0 false) rfl rfl
  · exact hwrite (r := .b2bT0 true) rfl rfl
  · exact hwrite (r := .b2bT1 false) rfl rfl
  · exact hwrite (r := .b2bT1 true) rfl rfl

theorem configWrites_of_idle {s : State} (hidle : s.status.busy = false)
    (hrun : s.run.st.active = false) (v : U32) : configWrites s v := by
  have hwrite (k : Fin 16) : s.writeReg (0x200 + 4 * k.val) v = { s with a2 := s.a2.set k v } := by
    have htakes : s.takes (.a2cfg k) := .inr ⟨rfl, hrun⟩
    have hwrite := htakes.writeReg_at hidle (off := 0x200 + 4 * k.val) rfl v
    rw [hwrite, State.writeIdle, hrun]
    rfl
  exact ⟨hwrite 0, hwrite 1, hwrite 2, hwrite 3, hwrite 4, hwrite 5, hwrite 6, hwrite 7, hwrite 8,
    hwrite 9, hwrite 10, hwrite 11, hwrite 12, hwrite 13, hwrite 14, hwrite 15⟩

/-- Settles O14: the offset's register takes the half or the word, no other register's value changes, and a
host write is the step that does this. -/
theorem idleWriteStoresAllBits : Obligations.IdleWriteStoresAllBits := by
  refine ⟨fun s off v hidle hoff => ?_, fun s v hidle => ⟨operandWrites_of_idle hidle v,
    fun hrun => configWrites_of_idle hidle hrun v⟩, fun s off v rest hnext ha hw => ?_⟩
  · obtain ⟨r, rfl, htakes⟩ : ∃ r : Reg, r.offset = off ∧ s.takes r := by
      rcases hoff with hoff | ⟨hoff, hrun⟩
      · obtain ⟨r, rfl⟩ := exists_reg_of_mappedOffset (mappedOffset_of_writableOffset hoff)
        exact ⟨r, rfl, .inl (r.writableOffset_iff.mp hoff)⟩
      · obtain ⟨r, rfl⟩ := exists_reg_of_mappedOffset (mappedOffset_of_configOffset hoff)
        exact ⟨r, rfl, .inr ⟨r.configOffset_iff.mp hoff, hrun⟩⟩
    exact ⟨htakes.readReg_same hidle v, fun _ => htakes.readReg_other hidle v⟩
  · exact ⟨_, step_write hnext ha hw, rfl⟩

end Sys2Proof.Machine
end

section
/-! SUPPORT. What the host reads, field by field, and the writes to CMD, STATUS and CTRL. -/

namespace Sys2Proof.Machine
open Sys2Proof.Claims

/-! ## Fields of a register -/

theorem getLsbD_of_toNat {w : U32} {i : Nat} {b : Bool} (h : w.toNat / 2 ^ i % 2 = b.toNat) :
    w.getLsbD i = b := by
  rw [← BitVec.testBit_toNat, Nat.testBit_eq_decide_div_mod_eq, h]
  cases b <;> rfl

theorem extractLsb'_toNat_div (w : U32) (i n : Nat) :
    (w.extractLsb' i n).toNat = w.toNat / 2 ^ i % 2 ^ n := by
  rw [BitVec.extractLsb'_toNat, Nat.shiftRight_eq_div_pow]

theorem extractLsb'_of_toNat {w : U32} {i n : Nat} {x : BitVec n}
    (h : w.toNat / 2 ^ i % 2 ^ n = x.toNat) : w.extractLsb' i n = x :=
  BitVec.eq_of_toNat_eq ((extractLsb'_toNat_div w i n).trans h)

theorem errorNumber_eq (e : Option Cause) : errorNumber e = errcodeOf e := by
  cases e with
  | none => rfl
  | some c => cases c <;> rfl

theorem errcodeOf_le (e : Option Cause) : errcodeOf e ≤ 6 := by
  cases e with
  | none => exact Nat.zero_le _
  | some c => cases c <;> decide

/-- STATUS holds its fields where R38 puts them. -/
theorem Status.word_fields (f : Status) : statusFields f f.word := by
  have hcode := errcodeOf_le f.errcode
  have hbusy := f.busy.toNat_le
  have hdone := f.done.toNat_le
  have herr := f.err.toNat_le
  have hover := f.overrun.toNat_le
  have hword : f.word.toNat = f.busy.toNat + 2 * f.done.toNat + 4 * f.err.toNat
      + 8 * f.overrun.toNat + 256 * errcodeOf f.errcode :=
    (BitVec.toNat_ofNat ..).trans (Nat.mod_eq_of_lt (by omega))
  refine ⟨getLsbD_of_toNat ?_, getLsbD_of_toNat ?_, getLsbD_of_toNat ?_, getLsbD_of_toNat ?_,
    extractLsb'_of_toNat ?_, extractLsb'_of_toNat ?_, extractLsb'_of_toNat ?_⟩ <;>
    simp only [hword, errorNumber_eq, BitVec.toNat_ofNat, BitVec.ofNat_eq_ofNat] <;> omega

theorem B2bSt.code_le (st : B2bSt) : st.code ≤ 2 := by cases st <;> decide

/-- B2B_STAT holds its fields where R45 puts them. -/
theorem HashState.statWord_fields {hs : HashState} (hbuf : hs.buflen ≤ 128) (hout : hs.outlen ≤ 64) :
    hashFields hs hs.statWord := by
  have hst := hs.st.code_le
  have hword : hs.statWord.toNat = hs.st.code + 256 * hs.buflen + 65536 * hs.outlen :=
    (BitVec.toNat_ofNat ..).trans (Nat.mod_eq_of_lt (by omega))
  have hcode : hs.statWord.extractLsb' 0 2 = BitVec.ofNat 2 hs.st.code := by
    apply extractLsb'_of_toNat
    simp only [hword, BitVec.toNat_ofNat]
    omega
  refine ⟨hcode.trans (by cases hs.st <;> rfl), extractLsb'_of_toNat ?_, ?_, ?_,
    extractLsb'_of_toNat ?_⟩ <;>
    simp only [extractLsb'_toNat_div, hword, BitVec.toNat_ofNat, BitVec.ofNat_eq_ofNat] <;> omega

/-- A2_STAT holds A2ST where R49 puts it. -/
theorem A2St.code_fields (st : A2St) : runFields st (BitVec.ofNat 32 st.code) := by
  cases st <;> exact ⟨rfl, rfl⟩

/-- A 64-bit register is its two halves (R34). -/
theorem halfOf_append (x : Word) : halfOf x true ++ halfOf x false = x := by
  apply BitVec.eq_of_getLsbD_eq
  intro i hi
  simp only [halfOf, BitVec.getLsbD_append, BitVec.getLsbD_extractLsb', Bool.false_eq_true, if_true,
    if_false]
  by_cases h : i < 32
  · simp [h]
  · have hrange : i - 32 < 32 := by omega
    have hadd : 32 + (i - 32) = i := by omega
    simp [h, hrange, hadd]

theorem reads64_of_halves {s : State} {off : Nat} {x : Word} (hlo : s.readReg off = halfOf x false)
    (hhi : s.readReg (off + 4) = halfOf x true) : reads64 s off x := by
  rw [reads64, hlo, hhi, halfOf_append]

/-! ## What every offset reads as -/

theorem controlReads_holds (s : State) : controlReads s := by
  have hread {r : Reg} (h : r.unstable = false) : s.readReg r.offset = s.regValue r :=
    s.readReg_stable h
  have hcfg (k : Fin 16) : s.readReg (0x200 + 4 * k.val) = s.a2.get k := hread (r := .a2cfg k) rfl
  have hstatus : s.readReg 0x004 = s.status.word := hread (r := .status) rfl
  have hctrl : s.readReg 0x008 = BitVec.ofNat 32 s.irqEn.toNat := hread (r := .ctrl) rfl
  have hlast : s.readReg 0x014 = BitVec.ofNat 32 (s.cfg.dmemSize - 1) := hread (r := .dmemLast) rfl
  refine ⟨hread (r := .cmd) rfl, hstatus ▸ s.status.word_fields, ?_, ?_, hread (r := .errcmd) rfl,
    hread (r := .id) rfl, fun hwf => ?_, fun n => ?_, hcfg 0, hcfg 1, hcfg 2, hcfg 3, hcfg 4, hcfg 5,
    hcfg 6, hcfg 7, hcfg 8, hcfg 9, hcfg 10, hcfg 11, hcfg 12, hcfg 13, hcfg 14, hcfg 15⟩
  · rw [hctrl]
    cases s.irqEn <;> rfl
  · rw [hctrl]
    cases s.irqEn <;> rfl
  · obtain ⟨hlo, hhi, -⟩ := hwf
    rw [hlast, BitVec.toNat_ofNat]
    omega
  · exact reads64_of_halves (hread (r := .arg n false) rfl) (hread (r := .arg n true) rfl)

theorem stateReads_of_idle {s : State} (hidle : s.status.busy = false) : stateReads s := by
  have hread (r : Reg) : s.readReg r.offset = s.regValue r := State.readReg_idle hidle r
  have hhash : s.readReg 0x080 = s.hash.statWord := hread .b2bStat
  have hrun : s.readReg 0x240 = BitVec.ofNat 32 s.run.st.code := hread .a2Stat
  refine ⟨reads64_of_halves (hread (.res0 false)) (hread (.res0 true)),
    reads64_of_halves (hread (.res1 false)) (hread (.res1 true)),
    fun hrange => hhash ▸ HashState.statWord_fields hrange.1 hrange.2,
    fun i => reads64_of_halves (hread (.b2bH i false)) (hread (.b2bH i true)),
    reads64_of_halves (hread (.b2bT0 false)) (hread (.b2bT0 true)),
    reads64_of_halves (hread (.b2bT1 false)) (hread (.b2bT1 true)),
    hrun ▸ s.run.st.code_fields, hread .a2Pass, hread .a2Slice, hread .a2Mprime,
    hread .a2Lanelen, hread .a2Seglen, fun k => hread (.a2H0reg k)⟩

/-- Of STATUS only the register STATUS reads (R38). -/
theorem State.regValue_withStatus (s : State) (f : Status) {r : Reg} (h : r ≠ .status) :
    State.regValue { s with status := f } r = s.regValue r := by
  cases r with
  | status => exact absurd rfl h
  | _ => rfl

/-- A register R52 does not name, but STATUS, reads the same busy or idle. -/
theorem readReg_withStatus_of_stable (s : State) {off : Nat} (hmapped : mappedOffset off)
    (hstable : ¬unstableOffset off) (h4 : off ≠ 0x004) (f : Status) :
    s.readReg off = State.readReg { s with status := f } off := by
  obtain ⟨r, rfl⟩ := exists_reg_of_mappedOffset hmapped
  rw [r.unstableOffset_iff, Bool.not_eq_true] at hstable
  rw [State.readReg_stable _ hstable, State.readReg_stable _ hstable,
    State.regValue_withStatus s f (by rintro rfl; exact h4 rfl)]

/-- While busy a register R52 names reads as the draw. -/
theorem readReg_busy_unstable {s : State} (hbusy : s.status.busy = true) {off : Nat}
    (h : unstableOffset off) : s.readReg off = Config.anyRegister s.draws := by
  obtain ⟨r, rfl⟩ := exists_reg_of_mappedOffset (mappedOffset_of_unstableOffset h)
  have hr := r.unstableOffset_iff.mp h
  rw [State.readReg_of_some (regAt_offset r), hbusy, hr]
  rfl

/-- Settles O15: the map names what each offset reads as, a busy engine's state registers are draws, and a
read, a poll or an interrupt wait only tells the host what it sees. -/
theorem busyReadsOfStateRegistersAreDraws : Obligations.BusyReadsOfStateRegistersAreDraws := by
  refine ⟨fun s off hbusy => ⟨readReg_busy_unstable hbusy, fun hmapped hstable h4 =>
      readReg_withStatus_of_stable s hmapped hstable h4 _, s.readReg_stable (r := .status) rfl⟩,
    fun s => ⟨controlReads_holds s, s.status.word_fields, stateReads_of_idle⟩, ?_⟩
  rintro s op rest o hnext (⟨off, rfl, ha, hw, rfl⟩ | ⟨a, rfl, ha, rfl⟩ | ⟨rfl, rfl⟩ | ⟨rfl, rfl⟩) <;>
    rw [step_of_hostNext hnext]
  · rw [hostMove, if_pos (regAccessible_of ha hw), State.readReg_withInputs]
    exact ⟨_, rfl, rfl⟩
  · rw [hostMove, if_pos ha, State.hostLoad_withInputs]
    exact ⟨_, rfl, rfl⟩
  · exact ⟨_, rfl, rfl⟩
  · exact ⟨_, rfl, rfl⟩

/-! ## The writes to CMD, STATUS and CTRL -/

/-- Settles O6: the step is the acceptance of the word. -/
theorem cmdWriteWhenIdleIsAccepted : Obligations.CmdWriteWhenIdleIsAccepted := by
  intro s v rest hnext hidle
  refine ⟨_, step_write hnext (by decide) (by decide), ?_⟩
  rw [State.writeReg_cmd, State.writeCmd, hidle]
  rfl

/-- Settles O7: the step is the OVERRUN of R279. -/
theorem cmdWriteWhileBusyOnlyOverruns : Obligations.CmdWriteWhileBusyOnlyOverruns := by
  intro s v rest hnext hbusy
  refine ⟨_, step_write hnext (by decide) (by decide), ?_⟩
  rw [State.writeReg_cmd, State.writeCmd, hbusy]
  rfl

/-- Settles O16: each flag is cleared by its own bit, and ERRCODE with ERR. -/
theorem statusWriteOneToClear : Obligations.StatusWriteOneToClear := by
  intro s v
  have hflag (f b : Bool) : (f && !b) = if b then false else f := by cases f <;> cases b <;> rfl
  simp only [State.writeReg_status, Status.cleared, hflag]

theorem writeReg_softReset (s : State) {v : U32} (h : v.getLsbD 1 = true) :
    s.writeReg 0x008 v = s.softReset := by
  rw [State.writeReg_ctrl, State.writeCtrl, if_pos h]

theorem writeReg_irqEn (s : State) {v : U32} (h : v.getLsbD 1 = false) :
    s.writeReg 0x008 v = { s with irqEn := v.getLsbD 0 } := by
  rw [State.writeReg_ctrl, State.writeCtrl, h]
  rfl

/-- Settles O17: with bit 1 the write is the soft reset, which draws the write set of the abandoned command and
nothing else of DMEM; without it, it sets IRQ_EN. -/
theorem softResetResetsEveryRegister : Obligations.SoftResetResetsEveryRegister := by
  refine ⟨fun s v hv hwf => ?_, fun s v hv => ?_⟩
  · rw [writeReg_softReset s hv]
    exact ⟨⟨_, _, rfl⟩, fun a => ⟨Memory.byte_drawRegions_inside hwf _ _,
      Memory.byte_drawRegions_outside hwf _ _⟩⟩
  · rw [writeReg_irqEn s hv]
    exact ⟨rfl, rfl⟩

/-! ## What no command changes -/

/-- Settles O45: the effect of a command writes none of them, and a completion writes STATUS and ERRCMD
only. -/
theorem noCommandChangesItsOperands : Obligations.NoCommandChangesItsOperands := by
  intro i s t hexec
  rcases exec_cases hexec with ⟨-, rfl⟩ | ⟨e, -, rfl⟩
  · rw [effectOf_fixed]
    exact ⟨rfl, rfl, rfl, rfl, rfl, rfl⟩
  · exact ⟨rfl, rfl, rfl, rfl, rfl, rfl⟩

theorem effectA2Slice_st (s : State) :
    (effectA2Slice s).run.st = .filling ∨ (effectA2Slice s).run.st = .filled := by
  simp only [effectA2Slice, RunCtx.afterSlice]
  split
  · exact .inr rfl
  · exact .inl rfl

/-- A command that writes run registers moves A2ST as the table of R59 lists. -/
theorem transition_of_writesRun {i : Instr} {s : State} (hw : writesRun i = true)
    (hc : checkOf i s = none) : transition i s.run.st (effectOf i s).run.st := by
  cases i with
  | a2H0 => exact .inl ⟨rfl, A2St.not_active (checkStart_none hc).1, rfl⟩
  | a2Init => exact .inr (.inl ⟨rfl, checkA2Init_none hc, rfl⟩)
  | a2Slice => exact .inr (.inr (.inl ⟨rfl, checkA2Slice_none hc, effectA2Slice_st s⟩))
  | a2Final => exact .inr (.inr (.inr (.inl ⟨rfl, checkA2Final_none hc, rfl⟩)))
  | a2Run =>
    exact .inr (.inr (.inr (.inr (.inl ⟨rfl, A2St.not_active (checkStart_none hc).1, rfl⟩))))
  | a2Abort => exact .inr (.inr (.inr (.inr (.inr ⟨rfl, rfl⟩))))
  | _ => cases hw

/-- Settles O46: only a command that writes run registers changes A2ST, and each does so by its row. -/
theorem runStateFollowsItsTable : Obligations.RunStateFollowsItsTable := by
  intro i s t hexec hne
  rcases exec_cases hexec with ⟨hc, rfl⟩ | ⟨e, -, rfl⟩
  · cases hw : writesRun i with
    | true => exact transition_of_writesRun hw hc
    | false =>
      refine absurd ?_ hne
      rw [State.complete_run, effectOf_run_of_not_writesRun hw]
  · exact absurd rfl hne

end Sys2Proof.Machine
end

section
/-! SUPPORT. Where the bytes of DMEM can change: a memory that another one agrees with outside some regions,
the writes that keep to regions, and that the effect of every command keeps to its write set (R92, R93). -/

namespace Sys2Proof.Machine
open Sys2Proof.Claims

/-! ## A memory changed inside some regions only -/

theorem inRegions_iff (rs : List Region) (a : Nat) :
    inRegions rs a = true ↔ ∃ r ∈ rs, r.1 ≤ a ∧ a < r.1 + r.2 := by
  simp only [inRegions, List.any_eq_true, Region.holds_iff]

/-- `m'` is canonical and lists outside the regions what `m` lists. -/
structure Memory.ChangedWithin (rs : List Region) (m m' : Memory) : Prop where
  wf : m'.wf
  epoch : m'.epoch = m.epoch
  cell : ∀ a, inRegions rs a = false → cellAt m'.cells a = cellAt m.cells a

theorem Memory.ChangedWithin.refl {m : Memory} (h : m.wf) (rs : List Region) : ChangedWithin rs m m :=
  ⟨h, rfl, fun _ _ => rfl⟩

theorem Memory.ChangedWithin.trans {rs : List Region} {m m' m'' : Memory} (h : ChangedWithin rs m m')
    (h' : ChangedWithin rs m' m'') : ChangedWithin rs m m'' :=
  ⟨h'.wf, h'.epoch.trans h.epoch, fun a ha => (h'.cell a ha).trans (h.cell a ha)⟩

/-- A memory changed inside some regions is changed inside any that hold them. -/
theorem Memory.ChangedWithin.mono {rs rs' : List Region} {m m' : Memory} (h : ChangedWithin rs m m')
    (hsub : ∀ a, inRegions rs a = true → inRegions rs' a = true) : ChangedWithin rs' m m' := by
  refine ⟨h.wf, h.epoch, fun a ha => h.cell a ?_⟩
  rw [← Bool.not_eq_true] at ha ⊢
  exact fun hin => ha (hsub a hin)

theorem Memory.ChangedWithin.byte {rs : List Region} {m m' : Memory} (h : ChangedWithin rs m m')
    (hwf : m.wf) {a : Nat} (ha : inRegions rs a = false) : m'.byte a = m.byte a := by
  rw [Memory.byte_eq_cellAt h.wf, Memory.byte_eq_cellAt hwf, h.cell a ha, Memory.blank, h.epoch,
    Memory.blank]

/-- A change inside regions of addresses that exist lists no other address. -/
theorem Memory.ChangedWithin.below {rs : List Region} {m m' : Memory} {size : Nat}
    (h : ChangedWithin (clipAll size rs) m m') (hm : m.below size) : m'.below size := by
  intro c hc
  cases hin : inRegions (clipAll size rs) c.1 with
  | true =>
    rw [inRegions_clipAll, Bool.and_eq_true, decide_eq_true_iff] at hin
    exact hin.2
  | false =>
    have hcell := (h.cell c.1 hin).symm.trans (cellAt_of_mem h.wf hc)
    exact hm _ (mem_of_cellAt hcell)

theorem Memory.write_changedWithin {rs : List Region} {m : Memory} (h : m.wf) {a : Nat}
    {bs : List Byte} (hin : ∀ x, a ≤ x → x < a + bs.length → inRegions rs x = true) :
    ChangedWithin rs m (m.write a bs) := by
  refine ⟨Memory.write_wf h a bs, rfl, fun x hx => ?_⟩
  rw [cellAt_write, if_neg]
  rintro ⟨hlo, hhi⟩
  rw [hin x hlo hhi] at hx
  cases hx

/-- A write into one of the regions that does not pass the end of the memory. -/
theorem Memory.write_changedWithin_clip {rs : List Region} {m : Memory} (h : m.wf) {size a n : Nat}
    {bs : List Byte} (hr : (a, n) ∈ rs) (hlen : bs.length ≤ n)
    (hsize : bs.length = 0 ∨ a + bs.length ≤ size) :
    ChangedWithin (clipAll size rs) m (m.write a bs) := by
  refine Memory.write_changedWithin h fun x hlo hhi => ?_
  rw [inRegions_clipAll, Bool.and_eq_true, inRegions_iff, decide_eq_true_iff]
  exact ⟨⟨_, hr, hlo, by show x < a + n; omega⟩, by omega⟩

/-- A write into a region that the region test accepts (R84). -/
theorem State.write_changedWithin {s : State} (h : s.dmem.wf) {rs : List Region} {a n : Nat}
    {bs : List Byte} (hr : (a, n) ∈ rs) (hlen : bs.length ≤ n) (hv : s.valid a n = true) :
    Memory.ChangedWithin (clipAll s.cfg.dmemSize rs) s.dmem (s.dmem.write a bs) := by
  rw [State.valid, Bool.or_eq_true, decide_eq_true_iff, decide_eq_true_iff] at hv
  exact Memory.write_changedWithin_clip h hr hlen (by omega)

/-- A fold of updates that each keep to the regions. -/
theorem Memory.foldl_changedWithin {α : Type} {rs : List Region} (f : Memory → α → Memory)
    (xs : List α) (hf : ∀ x ∈ xs, ∀ m : Memory, m.wf → ChangedWithin rs m (f m x)) {m : Memory}
    (h : m.wf) : ChangedWithin rs m (xs.foldl f m) := by
  induction xs generalizing m with
  | nil => exact .refl h rs
  | cons x xs ih =>
    have hx := hf x (List.mem_cons_self ..) m h
    exact hx.trans (ih (fun y hy => hf y (List.mem_cons_of_mem _ hy)) hx.wf)

theorem Memory.drawRegions_changedWithin {m : Memory} (h : m.wf) (d : Nat) (rs : List Region) :
    ChangedWithin rs m (m.drawRegions d rs) := by
  refine Memory.foldl_changedWithin _ rs (fun r hr m hm => ?_) h
  refine Memory.write_changedWithin hm fun x hlo hhi => (inRegions_iff rs x).mpr ⟨r, hr, hlo, ?_⟩
  simpa using hhi

/-- Clipped regions are held by the clipped regions that hold them. -/
theorem inRegions_clipAll_mono {rs rs' : List Region} {size a : Nat}
    (hsub : inRegions rs a = true → inRegions rs' a = true)
    (h : inRegions (clipAll size rs) a = true) : inRegions (clipAll size rs') a = true := by
  rw [inRegions_clipAll, Bool.and_eq_true] at h ⊢
  exact ⟨hsub h.1, h.2⟩

theorem State.openBytes_changedWithin {s : State} (h : s.dmem.wf) {rs rs' : List Region}
    (hsub : ∀ a, inRegions rs a = true → inRegions rs' a = true) :
    Memory.ChangedWithin (clipAll s.cfg.dmemSize rs') s.dmem (s.openBytes rs).dmem :=
  (Memory.drawRegions_changedWithin h _ _).mono fun a => inRegions_clipAll_mono (hsub a)

/-! ## The commands of a run -/

theorem mem_laneColumns (j : Job) {l : Nat} (hl : l < j.p) (c n : Nat) :
    (blkAddr j l c, n * 1024) ∈ laneColumns j c n :=
  List.mem_map.mpr ⟨l, List.mem_range.mpr hl, rfl⟩

theorem inRegions_laneColumns (j : Job) (c n a : Nat) :
    inRegions (laneColumns j c n) a = true ↔
      ∃ l < j.p, blkAddr j l c ≤ a ∧ a < blkAddr j l c + n * 1024 := by
  simp [inRegions_iff, laneColumns]

/-- Columns of the lanes are in the matrix region. -/
theorem inRegions_of_laneColumns {j : Job} {rs : List Region} (hrs : runMatrix j ∈ rs) {c n a : Nat}
    (hc : c + n ≤ j.q) (h : inRegions (laneColumns j c n) a = true) : inRegions rs a = true := by
  obtain ⟨l, hl, hlo, hhi⟩ := (inRegions_laneColumns j c n a).mp h
  obtain ⟨hbase, hend⟩ := blkAddr_in_matrix j hl hc
  exact (inRegions_iff ..).mpr ⟨_, hrs, hbase.trans hlo, hhi.trans_le hend⟩

/-- Columns of a lane of a matrix that lies in DMEM are in DMEM. -/
theorem State.blkAddr_le_dmemSize {s : State} (h : s.matrixInside = true) {l c n : Nat}
    (hl : l < s.job.p) (hn : 1 ≤ n) (hc : c + n ≤ s.job.q) :
    blkAddr s.job l c + n * 1024 ≤ s.cfg.dmemSize := by
  obtain ⟨hbase, hend⟩ := blkAddr_in_matrix s.job hl hc
  rw [State.matrixInside, State.valid, Bool.or_eq_true, decide_eq_true_iff, decide_eq_true_iff] at h
  omega

/-- A2.INIT keeps to the first two columns of every lane (R92, R207). -/
theorem effectA2Init_changedWithin {s : State} (h : s.dmem.wf) :
    Memory.ChangedWithin (writeSet .a2Init s) s.dmem (effectA2Init s).dmem := by
  show Memory.ChangedWithin (clipAll _ (laneColumns s.job 0 2)) _ (fillInit s).dmem
  cases hdef : s.initDefined with
  | true =>
    rw [fillInit_defined hdef]
    simp only [State.initDefined, Bool.and_eq_true, decide_eq_true_iff] at hdef
    obtain ⟨hq, hmatrix⟩ := hdef
    refine Memory.foldl_changedWithin _ _ (fun l hl m hm => ?_) h
    have hl := List.mem_range.mp hl
    have hsize := State.blkAddr_le_dmemSize hmatrix hl (c := 0) (n := 2) (by omega) hq
    rw [initLane, blkAddr_one, ← initialBlock_length s.run.h0Bytes l 0, Memory.write_append hm]
    refine Memory.write_changedWithin_clip hm (mem_laneColumns _ hl 0 2) ?_ ?_ <;>
      simp only [List.length_append, initialBlock_length] <;> omega
  | false =>
    simp only [fillInit, hdef, Bool.false_eq_true, if_false]
    exact State.openBytes_changedWithin h fun _ => id

/-- The columns a slice fills are the slice's, or those from column 2 on (R208). -/
theorem inRegions_sliceColumns {s : State} {a : Nat} (h : inRegions (sliceColumns s) a = true) :
    inRegions (writeRegions .a2Slice s) a = true := by
  obtain ⟨l, hl, hlo, hhi⟩ := (inRegions_laneColumns ..).mp h
  rw [blkAddr_add] at hlo hhi
  exact (inRegions_laneColumns ..).mpr ⟨l, hl, by omega, by omega⟩

/-- A segment of a matrix that lies in DMEM keeps to its columns of its lane. -/
theorem fillSegment_changedWithin {s : State} (hj : geometry s.job) (hmatrix : s.matrixInside = true)
    {r sl l : Nat} (hsl : sl ≤ 3) (hl : l < s.job.p) {m : Memory} (h : m.wf) :
    Memory.ChangedWithin (clipAll s.cfg.dmemSize (laneColumns s.job (sl * s.job.seg) s.job.seg)) m
      (fillSegment s.job r sl m l) := by
  obtain ⟨hseg, hq⟩ := hj
  have hstart := segStart_le_two r sl
  have hsize := State.blkAddr_le_dmemSize hmatrix hl (by omega) (segment_fits hq hsl)
  rw [fillSegment_eq_write _ _ _ h]
  refine Memory.write_changedWithin h fun x hlo hhi => ?_
  simp only [segmentAddr, segmentBytes, segmentBlocks, Memory.read_length, blkAddr_add] at hlo hhi
  rw [inRegions_clipAll, Bool.and_eq_true, inRegions_laneColumns, decide_eq_true_iff]
  exact ⟨⟨l, hl, by omega, by omega⟩, by omega⟩

/-- A2.SLICE keeps to the columns of its slice (R92, R208). -/
theorem effectA2Slice_changedWithin {s : State} (h : s.dmem.wf) :
    Memory.ChangedWithin (writeSet .a2Slice s) s.dmem (effectA2Slice s).dmem := by
  show Memory.ChangedWithin (clipAll _ (writeRegions .a2Slice s)) _ (fillCurrentSlice s).dmem
  cases hdef : s.sliceDefined with
  | true =>
    have hmatrix : s.matrixInside = true := by
      rw [State.sliceDefined, Bool.and_eq_true] at hdef
      exact hdef.2
    obtain ⟨hj, hslice⟩ := State.geometry_of_sliceDefined hdef
    rw [fillCurrentSlice_defined hdef]
    exact Memory.foldl_changedWithin _ _
      (fun l hl m hm => fillSegment_changedWithin hj hmatrix hslice (mem_laneOrder hl) hm) h
  | false =>
    simp only [fillCurrentSlice, hdef, Bool.false_eq_true, if_false]
    exact State.openBytes_changedWithin h fun _ => inRegions_sliceColumns

/-- A2.FINAL keeps to the tag region (R92, R209). -/
theorem effectA2Final_changedWithin {s : State} (h : s.dmem.wf) :
    Memory.ChangedWithin (writeSet .a2Final s) s.dmem (effectA2Final s).dmem := by
  show Memory.ChangedWithin (clipAll _ [tagRegion s.a2]) _ (writeTag s).dmem
  cases hdef : s.finalDefined with
  | true =>
    have hvalid : s.valid (tagRegion s.a2).1 (tagRegion s.a2).2 = true := by
      rw [State.finalDefined, Bool.and_eq_true] at hdef
      exact hdef.2
    rw [writeTag_defined hdef]
    exact State.write_changedWithin h (List.mem_singleton_self _) (hPrime_length ..).le hvalid
  | false =>
    simp only [writeTag, hdef, Bool.false_eq_true, if_false]
    exact State.openBytes_changedWithin h fun _ => id

/-! ## A whole run -/

/-- What holds of the machine between the parts of a run begun on `s0`: its registers name a matrix in the
regions `rs`, where the tag goes too, and it has changed DMEM inside them only. -/
structure RunPart (rs : List Region) (s0 s : State) : Prop where
  names : s.namesMatrix
  slice : s.run.slice.toNat ≤ 3
  cfg : s.cfg = s0.cfg
  matrix : runMatrix s.job ∈ rs
  tag : tagRegion s.a2 ∈ rs
  dmem : Memory.ChangedWithin (clipAll s0.cfg.dmemSize rs) s0.dmem s.dmem

/-- A part of a run that keeps to regions inside `rs`. -/
theorem RunPart.dmem_trans {rs rs' : List Region} {s0 s : State} {m : Memory} (h : RunPart rs s0 s)
    (hm : Memory.ChangedWithin (clipAll s.cfg.dmemSize rs') s.dmem m)
    (hsub : ∀ a, inRegions rs' a = true → inRegions rs a = true) :
    Memory.ChangedWithin (clipAll s0.cfg.dmemSize rs) s0.dmem m := by
  rw [h.cfg] at hm
  exact h.dmem.trans (hm.mono fun a => inRegions_clipAll_mono (hsub a))

theorem RunPart.init {rs : List Region} {s0 s : State} (h : RunPart rs s0 s) :
    RunPart rs s0 (effectA2Init s) := by
  have ⟨hseg, hq, _⟩ := h.names
  have hdmem := h.dmem_trans (effectA2Init_changedWithin h.dmem.wf) fun _ =>
    inRegions_of_laneColumns h.matrix (by omega)
  refine ⟨effectA2Init_namesMatrix h.names, h.slice, ?_, ?_, ?_, hdmem⟩ <;> rw [effectA2Init_fixed]
  · exact h.cfg
  · exact h.matrix
  · exact h.tag

theorem RunPart.nextSlice {rs : List Region} {s0 s : State} (h : RunPart rs s0 s) :
    RunPart rs s0 (effectA2Slice s) := by
  have ⟨_, hq, _⟩ := h.names
  have hdmem := h.dmem_trans (effectA2Slice_changedWithin h.dmem.wf) fun _ =>
    inRegions_of_laneColumns h.matrix (segment_fits hq h.slice)
  refine ⟨effectA2Slice_namesMatrix h.names, effectA2Slice_slice_le h.slice, ?_, ?_, ?_, hdmem⟩ <;>
    rw [effectA2Slice_fixed]
  · exact h.cfg
  · exact h.matrix
  · exact h.tag

theorem RunPart.final {rs : List Region} {s0 s : State} (h : RunPart rs s0 s) :
    Memory.ChangedWithin (clipAll s0.cfg.dmemSize rs) s0.dmem (effectA2Final s).dmem := by
  refine h.dmem_trans (effectA2Final_changedWithin h.dmem.wf) fun a ha => ?_
  obtain ⟨r, hr, hin⟩ := (inRegions_iff ..).mp ha
  exact (inRegions_iff ..).mpr ⟨r, List.mem_singleton.mp hr ▸ h.tag, hin⟩

/-- The matrix A2.H0 names is the one R202 has checked. -/
theorem runMatrix_effectA2H0 {s : State} (h : configOk s) :
    runMatrix (effectA2H0 s).job = matrixRegion s.a2 := by
  obtain ⟨hlane, -⟩ := effectA2H0_sized h
  have hq : (effectA2H0 s).job.q = laneLen s.a2.m.toNat s.a2.p.toNat := hlane
  rw [runMatrix, hq]
  rfl

/-- A2.RUN keeps to the matrix and the tag region (R92, R210). -/
theorem effectA2Run_changedWithin {s : State} (hc : checkStart s = none) (h : s.dmem.wf) :
    Memory.ChangedWithin (writeSet .a2Run s) s.dmem (effectA2Run s).dmem := by
  have ⟨_, hparams⟩ := checkStart_none hc
  have hstart : RunPart (writeRegions .a2Run s) s (effectA2H0 s) :=
    { names := effectA2H0_namesMatrix hparams
      slice := Nat.zero_le _
      cfg := rfl
      matrix := by
        rw [runMatrix_effectA2H0 (configOk_of_checkParams hparams)]
        exact List.mem_cons_self ..
      tag := List.mem_cons_of_mem _ (List.mem_singleton_self _)
      dmem := .refl h _ }
  have hfilled := fillSlices_induction (P := RunPart (writeRegions .a2Run s) s)
    (fun _ => RunPart.nextSlice) (n := 4 * s.a2.t.toNat) hstart.init
  exact hfilled.final

/-! ## Every command -/

theorem ite_none_some_iff {b : Bool} {e : Cause} :
    (if b then none else some e) = none ↔ b = true := by
  cases b <;> simp

theorem checkB2bFinal_none {s : State} (h : checkB2bFinal s = none) :
    s.valid (s.argLo 2) s.hash.outlen = true := by
  unfold checkB2bFinal at h
  split at h
  · cases h
  · exact ite_none_some_iff.mp h

theorem checkB2bHash_none {nn kk : Nat} {s : State} (h : checkB2bHash nn kk s = none) :
    s.valid (s.argLo 2) nn = true := by
  unfold checkB2bHash at h
  split at h
  · cases h
  · exact (Bool.and_eq_true_iff.mp (ite_none_some_iff.mp h)).2

theorem checkB2bLong_none {s : State} (h : checkB2bLong s = none) :
    s.valid (s.argLo 2) (s.argLo 3) = true := by
  unfold checkB2bLong at h
  split at h
  · cases h
  · exact (Bool.and_eq_true_iff.mp (ite_none_some_iff.mp h)).2

theorem checkA2G_none {s : State} (h : checkA2G s = none) : s.valid (s.argLo 2) 1024 = true :=
  (Bool.and_eq_true_iff.mp (ite_none_some_iff.mp h)).2

theorem checkA2Addr_none {s : State} (h : checkA2Addr s = none) : s.valid (s.argLo 4) 1024 = true := by
  unfold checkA2Addr at h
  split at h
  · cases h
  · split at h
    · cases h
    · exact ite_none_some_iff.mp h

/-- A command whose checks pass changes DMEM inside its write set only, and keeps it canonical (R92, R93). -/
theorem effectOf_changedWithin {i : Instr} {s : State} (hc : checkOf i s = none) (h : s.dmem.wf) :
    Memory.ChangedWithin (writeSet i s) s.dmem (effectOf i s).dmem := by
  have hwrite {a n : Nat} {bs : List Byte} (hlen : bs.length ≤ n) (hv : s.valid a n = true) :
      Memory.ChangedWithin (clipAll s.cfg.dmemSize [(a, n)]) s.dmem (s.dmem.write a bs) :=
    State.write_changedWithin h (List.mem_singleton_self _) hlen hv
  cases i with
  | b2bFinal =>
    refine hwrite ?_ (checkB2bFinal_none hc)
    rw [HashState.digest_length]
    exact Nat.min_le_left ..
  | b2bHash nn kk =>
    refine hwrite ?_ (checkB2bHash_none hc)
    rw [blake2b_length]
    exact Nat.min_le_left ..
  | b2bLong => exact hwrite (hPrime_length ..).le (checkB2bLong_none hc)
  | a2Init => exact effectA2Init_changedWithin h
  | a2Slice => exact effectA2Slice_changedWithin h
  | a2Final => exact effectA2Final_changedWithin h
  | a2Run => exact effectA2Run_changedWithin hc h
  | a2G xor => exact hwrite (Block.bytes_length _).le (checkA2G_none hc)
  | a2Addr => exact hwrite (Block.bytes_length _).le (checkA2Addr_none hc)
  | _ => exact .refl h _

/-- Settles O47: an error completion leaves DMEM alone, and the effect of a command whose checks pass keeps to
the command's write set. -/
theorem commandWritesOnlyItsWriteSet : Obligations.CommandWritesOnlyItsWriteSet := by
  intro i s t a hwf hexec ha
  rcases exec_cases hexec with ⟨hc, rfl⟩ | ⟨e, -, rfl⟩
  · exact (effectOf_changedWithin hc hwf).byte hwf ha
  · rfl

/-! ## Every step -/

/-- A change inside regions of DMEM keeps it canonical and inside its size. -/
theorem dmemOk_of_changedWithin {s t : State} {rs : List Region} (h : dmemOk s) (hcfg : t.cfg = s.cfg)
    (hdmem : Memory.ChangedWithin (clipAll s.cfg.dmemSize rs) s.dmem t.dmem) : dmemOk t := by
  obtain ⟨-, hbelow⟩ := h
  refine ⟨hdmem.wf, ?_⟩
  rw [hcfg]
  exact hdmem.below hbelow

/-- Where the running command writes is inside DMEM. -/
theorem State.writing_eq_clipAll (s : State) : ∃ rs, s.writing = clipAll s.cfg.dmemSize rs := by
  unfold State.writing
  split
  · exact ⟨_, rfl⟩
  · exact ⟨[], rfl⟩

/-- A register write of the host changes DMEM by a soft reset only. -/
theorem RegWrite.dmemOk {s t : State} (hw : RegWrite s t) (h : dmemOk s) : dmemOk t := by
  cases hw with
  | softReset =>
    obtain ⟨rs, hrs⟩ := s.writing_eq_clipAll
    have ⟨hwf, _⟩ := h
    refine dmemOk_of_changedWithin (rs := rs) h rfl ?_
    rw [State.softReset_dmem, hrs]
    exact Memory.drawRegions_changedWithin hwf _ _
  | _ => exact h

theorem dmemOk_hostStore {s : State} (h : dmemOk s) {a : Nat} (ha : a < s.cfg.dmemSize) (b : Byte) :
    dmemOk (s.hostStore a b) := by
  have ⟨hwf, _⟩ := h
  have hwrite (b : Byte) :
      Memory.ChangedWithin (clipAll s.cfg.dmemSize [(a, 1)]) s.dmem (s.dmem.write a [b]) :=
    Memory.write_changedWithin_clip hwf (List.mem_singleton_self _) (Nat.le_refl 1) (.inr ha)
  unfold State.hostStore
  split
  · exact dmemOk_of_changedWithin h rfl (hwrite _)
  · exact dmemOk_of_changedWithin h rfl (hwrite b)

theorem hostMove_dmemOk {op : HostOp} {s t : State} (h : dmemOk s)
    (hmove : hostMove op s = .next t) : dmemOk t := by
  rcases hostMove_cases hmove with ⟨off, v, -, -, rfl⟩ | ⟨off, -, -, rfl⟩ | ⟨a, b, -, ha, rfl⟩ |
    ⟨a, -, -, rfl⟩ | ⟨-, rfl⟩ | ⟨-, rfl⟩ | ⟨-, rfl⟩
  · exact (s.writeReg_regWrite off v).dmemOk h
  · exact h
  · exact dmemOk_hostStore h ha b
  · exact h
  · exact h
  · exact h
  · exact ⟨.nil, nofun⟩

/-- Settles O50: a command's effect, the settling of a race and every write of the host change DMEM inside
regions of bytes that exist, and a power-on reset empties the list. -/
theorem stepKeepsDmemCanonical : Obligations.StepKeepsDmemCanonical := by
  intro s t hs hstep
  have ⟨hwf, _⟩ := hs
  rcases step_cases hstep with rfl | ⟨-, hmove⟩ | ⟨op, rest, -, -, hmove⟩
  · exact hs
  · rcases engineMove_outcome hmove with ⟨-, e, rfl⟩ | ⟨i, hc, ⟨-, rfl⟩ | ⟨-, rfl⟩⟩
    · exact hs
    · exact dmemOk_of_changedWithin hs (effectOf_cfg i s) (effectOf_changedWithin hc hwf)
    · have heffect := effectOf_changedWithin hc hwf
      exact dmemOk_of_changedWithin hs (effectOf_cfg i s)
        (heffect.trans (Memory.drawRegions_changedWithin heffect.wf s.draws _))
  · exact hostMove_dmemOk (s := { s with inputs := rest }) hs hmove

end Sys2Proof.Machine
end

section
/-! SUPPORT. The host's accesses to DMEM as steps: outside the footprint of the running command, inside it, and
where the interface has no such access; and what a raced command leaves. -/

namespace Sys2Proof.Machine
open Sys2Proof.Claims

/-! ## The host's load and store -/

theorem State.hostStore_outside {s : State} {a : Nat} (h : inRegions s.footprint a = false) (b : Byte) :
    s.hostStore a b = { s with dmem := s.dmem.write a [b] } := by
  rw [State.hostStore, h]
  rfl

theorem State.hostStore_inside {s : State} {a : Nat} (h : inRegions s.footprint a = true) (b : Byte) :
    s.hostStore a b =
      { s with dmem := s.dmem.write a [Config.anyByte s.draws a], raced := true } := by
  rw [State.hostStore, if_pos h]

theorem State.hostLoad_inside {s : State} {a : Nat} (h : inRegions s.writing a = true) :
    s.hostLoad a = Config.anyByte s.draws a := by
  rw [State.hostLoad, if_pos h]

theorem State.hostLoad_outside {s : State} {a : Nat} (h : inRegions s.writing a = false) :
    s.hostLoad a = s.dmem.byte a := by
  rw [State.hostLoad, h]
  rfl

/-- A byte outside the footprint is outside the write set. -/
theorem State.inRegions_writing_of_not_footprint {s : State} {a : Nat} (h : inRegions s.footprint a = false) :
    inRegions s.writing a = false := by
  rw [← Bool.not_eq_true] at h ⊢
  exact fun hw => h (State.inRegions_footprint_of_writing hw)

theorem State.hostStore_withInputs (s : State) (rest : List HostOp) (a : Nat) (b : Byte) :
    State.hostStore { s with inputs := rest } a b = { s.hostStore a b with inputs := rest } := by
  have hfoot := State.footprint_frame s s.dmem rest s.seen s.turn s.raced s.draws
  unfold State.hostStore
  rw [hfoot]
  split <;> rfl

/-- A host write to a byte of DMEM is one step: the store, and the model's own fields move on. -/
theorem step_store {s : State} {a : Nat} {b : Byte} {rest : List HostOp}
    (h : hostNext s (.dw a b) rest) (ha : a < s.cfg.dmemSize) :
    step s = .next (State.redraw { s.hostStore a b with inputs := rest }) := by
  rw [step_of_hostNext h, hostMove, if_pos ha, State.hostStore_withInputs]

theorem Memory.byte_write_single {m : Memory} (h : m.wf) (a : Nat) (b : Byte) :
    (m.write a [b]).byte a = b :=
  Memory.byte_write_inside h (i := 0) (bs := [b]) (Nat.zero_lt_one)

/-- Settles O19: outside the footprint the store is the write of the byte, and what the running command writes
does not depend on DMEM, so the host reads the byte back. -/
theorem hostByteWriteIsReadBack : Obligations.HostByteWriteIsReadBack := by
  intro s a b rest hnext ha hfoot hwf
  have hstep := step_store hnext ha
  rw [State.hostStore_outside hfoot] at hstep
  have hbyte := Memory.byte_write_single hwf a b
  refine ⟨_, hstep, rfl, hbyte, ?_, fun x hx => Memory.byte_write_outside hwf hx⟩
  have hwriting : (State.redraw { s with dmem := s.dmem.write a [b], inputs := rest }).writing =
      s.writing := State.writing_frame s _ rest s.seen _ s.raced _
  rw [State.hostLoad_outside, State.redraw_dmem, hbyte]
  rw [hwriting]
  exact State.inRegions_writing_of_not_footprint hfoot

/-- Settles O20: the load and the store are draws by definition inside the write set and the footprint; the
store is a write of one byte. -/
theorem hostAccessInFootprintIsARace : Obligations.HostAccessInFootprintIsARace := by
  refine ⟨fun s a b => ⟨State.hostLoad_inside, State.hostLoad_outside, fun hfoot hwf => ?_⟩,
    fun s a b rest hnext ha hfoot hwf => ?_⟩
  · rw [State.hostStore_inside hfoot]
    exact ⟨rfl, Memory.byte_write_single hwf _ _, fun x hx => Memory.byte_write_outside hwf hx⟩
  · have hstep := step_store hnext ha
    rw [State.hostStore_inside hfoot] at hstep
    exact ⟨_, hstep, rfl, Memory.byte_write_single hwf _ _, fun x hx => Memory.byte_write_outside hwf hx⟩

/-! ## A raced command -/

/-- When the engine moves next, the step is its move (R270, R272). -/
theorem step_of_engineNext {s : State} (h : engineNext s) : step s = engineMove s := by
  obtain ⟨hbusy, hnext⟩ := h
  unfold step
  cases hin : s.inputs with
  | nil => exact if_pos hbusy
  | cons op rest =>
    refine if_pos ?_
    rw [hin] at hnext
    simpa [engineTurn, hbusy, hostWaits, hin] using hnext

/-- A raced command whose checks pass runs to its effect and the race is settled (R94). -/
theorem engineMove_of_raced {s : State} {i : Instr} (hraced : s.raced = true)
    (hd : decode s.cmd = .ok i) (hc : checkOf i s = none) :
    engineMove s = .next (settleRace i s (effectOf i s).complete) := by
  simp only [engineMove, hd, hraced, hc, exec_of_check_none hc]
  rfl

/-- A race leaves the registers of the HashState that the command does not write. -/
theorem racedHash_eq_keptHash (i : Instr) (hs : HashState) (d : Nat) :
    racedHash i hs d = keptHash i hs (racedHash i hs d) := by cases i <;> rfl

/-- A race leaves the run registers that the command does not write. -/
theorem racedRun_eq_keptRun (i : Instr) (r : RunCtx) (d : Nat) :
    racedRun i r d = keptRun i r (racedRun i r d) := by cases i <;> rfl

/-- Settles O21: the step is the command with the race settled, which draws the write set and the registers the
command writes. -/
theorem racedCommandLeavesFreeValues : Obligations.RacedCommandLeavesFreeValues := by
  intro s i hnext hraced hd hc hwf
  have hstep := (step_of_engineNext hnext).trans (engineMove_of_raced hraced hd hc)
  have hwf' := effectOf_wf i hwf
  exact ⟨_, _, exec_of_check_none hc, hstep, rfl, racedHash_eq_keptHash .., racedRun_eq_keptRun ..,
    fun a => Memory.byte_drawRegions_inside hwf' _ _, fun a => Memory.byte_drawRegions_outside hwf' _ _⟩

/-! ## Accesses that the interface does not have -/

theorem regAccessible_eq_false {off : Nat} (h : off % 4 ≠ 0 ∨ 4096 ≤ off) :
    regAccessible off = false := by
  rw [regAccessible, Bool.and_eq_false_iff, decide_eq_false_iff_not, decide_eq_false_iff_not]
  omega

/-- Settles O22: each of these accesses is the host's move, which looks at the address first. -/
theorem accessesOutsideTheInterfaceStop : Obligations.AccessesOutsideTheInterfaceStop := by
  intro s rest off bytes a v b
  refine ⟨fun h hoff => ?_, fun h hoff => ?_, fun h => ?_, fun h ha => ?_, fun h ha => ?_⟩ <;>
    rw [step_of_hostNext h, hostMove]
  · rw [regAccessible_eq_false hoff]
    rfl
  · rw [regAccessible_eq_false hoff]
    rfl
  · exact if_neg (Nat.not_lt.mpr ha)
  · exact if_neg (Nat.not_lt.mpr ha)

end Sys2Proof.Machine
end

section
/-! SUPPORT. The command word in both directions: the word whose fields are those of a word, what a row of the
opcode map says of it, the rows against the opcodes of R117, and the engine's move on a word of no command. -/

namespace Sys2Proof
open Sys2Proof.Claims

/-! ## The words of each format -/

theorem toNat_encodeN {opc : Nat} (h : opc < 256) : (encodeN opc).toNat = opc := by
  rw [encodeN, BitVec.toNat_ofNat]
  omega

theorem toNat_encodeK {opc o k : Nat} (h : opc < 256) (ho : o < 256) (hk : k < 256) :
    (encodeK opc o k).toNat = opc + 256 * o + 65536 * k := by
  rw [encodeK_eq h ho hk, BitVec.toNat_ofNat]
  omega

theorem toNat_encodeF {opc : Nat} (h : opc < 256) (b : Bool) :
    (encodeF opc b).toNat = opc + 256 * b.toNat := by
  have hb := b.toNat_lt
  rw [encodeF_eq h, BitVec.toNat_ofNat]
  omega

/-- The first bit a format reserves (R112, R113, R114). -/
def Format.width : Format → Nat
  | .n => 8
  | .k => 24
  | .f => 9

theorem Format.and_reserved_eq_zero_iff (w : U32) (fmt : Format) :
    w &&& fmt.reserved = 0 ↔ w.toNat < 2 ^ fmt.width := by
  rw [Format.reserved_eq_zero]
  cases fmt <;> rfl

/-- The word of format `fmt` whose fields are those of `w`. -/
def Format.rebuild (fmt : Format) (w : U32) : U32 :=
  match fmt with
  | .n => encodeN (opcField w)
  | .k => encodeK (opcField w) (outlenField w) (keylenField w)
  | .f => encodeF (opcField w) (flagField w)

/-- A word with no reserved bit set is its fields. -/
theorem Format.rebuild_eq {w : U32} {fmt : Format} (h : w &&& fmt.reserved = 0) :
    fmt.rebuild w = w := by
  rw [Format.and_reserved_eq_zero_iff] at h
  have hopc := opcField_eq w
  have hopc_lt := opcField_lt w
  apply BitVec.eq_of_toNat_eq
  cases fmt with
  | n =>
    have hw : w.toNat < 2 ^ 8 := h
    rw [Format.rebuild, toNat_encodeN hopc_lt]
    omega
  | k =>
    have hw : w.toNat < 2 ^ 24 := h
    rw [Format.rebuild, toNat_encodeK hopc_lt (outlenField_lt w) (keylenField_lt w), outlenField_eq,
      keylenField_eq]
    omega
  | f =>
    have hw : w.toNat < 2 ^ 9 := h
    rw [Format.rebuild, toNat_encodeF hopc_lt, flagField_eq]
    omega

/-! ## Decoding an encoded word -/

/-- A format K word decodes to the command of its row, with the lengths it was made from. -/
theorem decode_encodeK {opc o k : Nat} {mk : Nat → Nat → Instr} (h : opc < 256) (ho : o < 256)
    (hk : k < 256) (hrow : ∀ w, opcField w = opc →
      opcodeMap w = some (.k, mk (outlenField w) (keylenField w))) :
    decode (encodeK opc o k) = .ok (mk o k) := by
  have hw := toNat_encodeK h ho hk
  have hopc : opcField (encodeK opc o k) = opc := by rw [opcField_eq]; omega
  have hout : outlenField (encodeK opc o k) = o := by rw [outlenField_eq]; omega
  have hkey : keylenField (encodeK opc o k) = k := by rw [keylenField_eq]; omega
  have hmap := hrow _ hopc
  rw [hout, hkey] at hmap
  have hlt : (encodeK opc o k).toNat < 2 ^ 24 := by omega
  exact decode_of_some hmap ((Format.and_reserved_eq_zero_iff _ .k).mpr hlt)

theorem fitsByte_and_iff {o k : Nat} :
    (fitsByte o && fitsByte k) = true ↔ o < 256 ∧ k < 256 := by
  simp [fitsByte]

/-- Settles O1: a format K word is its three fields, whatever the lengths; the other formats have one or two
words a command. -/
theorem encodedCommandDecodesBack : Obligations.EncodedCommandDecodesBack := by
  intro i hwf
  cases i with
  | b2bInit o k =>
    obtain ⟨ho, hk⟩ := fitsByte_and_iff.mp hwf
    exact decode_encodeK (by decide) ho hk fun w hw => by simp only [opcodeMap, hw]
  | b2bHash o k =>
    obtain ⟨ho, hk⟩ := fitsByte_and_iff.mp hwf
    exact decode_encodeK (by decide) ho hk fun w hw => by simp only [opcodeMap, hw]
  | b2bCompress flag | a2G flag => cases flag <;> rfl
  | _ => rfl

/-! ## The rows of the opcode map -/

/-- What a row says of a word: its command's fields are those of the word, and the bits its format reserves are
those of R112..R114. -/
theorem opcodeMap_row {w : U32} {fmt : Format} {i : Instr} (h : opcodeMap w = some (fmt, i)) :
    i.wf = true ∧ encode i = fmt.rebuild w ∧ reservedBits w = w.toNat / 2 ^ fmt.width := by
  have hfields := fitsByte_and_iff.mpr ⟨outlenField_lt w, keylenField_lt w⟩
  unfold opcodeMap at h
  split at h
  case h_17 => cases h
  all_goals
    rename_i hopc
    cases h
    simp [Instr.wf, hfields, encode, Format.rebuild, reservedBits, Format.width, hopc]

theorem opcodeMap_eq_none_iff (w : U32) : opcodeMap w = none ↔ opcField w ∉ opcodes := by
  unfold opcodeMap
  split
  case h_17 => simp_all [opcodes]
  all_goals
    rename_i hopc
    simp [opcodes, hopc]

/-- Settles O2: the command's word is the word of its fields, which is the word itself. -/
theorem decodedWordEncodesBack : Obligations.DecodedWordEncodesBack := by
  intro w i h
  obtain ⟨fmt, hmap, hres⟩ := decode_ok h
  obtain ⟨hwf, henc, -⟩ := opcodeMap_row hmap
  exact ⟨hwf, henc.trans (Format.rebuild_eq hres)⟩

theorem reservedBits_eq_zero_iff {w : U32} {fmt : Format} {i : Instr}
    (h : opcodeMap w = some (fmt, i)) : reservedBits w = 0 ↔ w &&& fmt.reserved = 0 := by
  obtain ⟨-, -, hbits⟩ := opcodeMap_row h
  rw [hbits, Format.and_reserved_eq_zero_iff, Nat.div_eq_zero_iff_lt (Nat.two_pow_pos _)]

/-- An opcode of R117 has a row. -/
theorem opcodeMap_of_mem {w : U32} (h : opcField w ∈ opcodes) :
    ∃ fmt i, opcodeMap w = some (fmt, i) := by
  cases hmap : opcodeMap w with
  | none => exact absurd h ((opcodeMap_eq_none_iff w).mp hmap)
  | some row => exact ⟨row.1, row.2, rfl⟩

/-- Settles O3: the opcodes are those with a row, and the row's format reserves the bits the statement names. -/
theorem decodingIsTotalInOrder : Obligations.DecodingIsTotalInOrder := by
  intro w
  refine ⟨fun hopc => decode_of_none ((opcodeMap_eq_none_iff w).mpr hopc), fun hopc hbits => ?_,
    fun hopc hbits => ?_⟩
  · obtain ⟨fmt, i, hmap⟩ := opcodeMap_of_mem hopc
    exact decode_of_reserved hmap (mt (reservedBits_eq_zero_iff hmap).mpr hbits)
  · obtain ⟨fmt, i, hmap⟩ := opcodeMap_of_mem hopc
    exact ⟨i, decode_of_some hmap ((reservedBits_eq_zero_iff hmap).mp hbits)⟩

/-- Settles O4: each word is evaluated. -/
theorem sampleWordsDecode : Obligations.SampleWordsDecode := by
  unfold Obligations.SampleWordsDecode
  decide

end Sys2Proof

namespace Sys2Proof.Machine
open Sys2Proof.Claims

/-! ## A word of no command -/

theorem engineMove_of_decode_error {s : State} {e : Illegal} (h : decode s.cmd = .error e) :
    engineMove s = .next (s.raise .illegal) := by
  rw [engineMove, h]

/-- Settles O10: the step is the engine's move, which is the error completion. -/
theorem illegalWordEndsWithIllegal : Obligations.IllegalWordEndsWithIllegal := by
  intro s e hnext h
  exact (step_of_engineNext hnext).trans (engineMove_of_decode_error h)

end Sys2Proof.Machine
end

section
/-! SUPPORT. The Blake2b commands: when their checks pass, the HashState after one absorbed byte and after
Init, what the commands leave, and the byte count. -/

namespace Sys2Proof.Machine
open Sys2Proof.Claims

/-! ## When the checks pass -/

theorem badHashLengths_eq_false_iff {nn kk : Nat} :
    badHashLengths nn kk = false ↔ 1 ≤ nn ∧ nn ≤ 64 ∧ kk ≤ 64 := by
  simp [badHashLengths, Nat.one_le_iff_ne_zero, and_assoc]

theorem checkB2bInit_of_fits {nn kk : Nat} {s : State} (hlen : badHashLengths nn kk = false)
    (hkey : fits s (s.argLo 0) kk) : checkB2bInit nn kk s = none := by
  simp [checkB2bInit, hlen, (s.valid_iff_fits _ _).mpr hkey]

theorem checkB2bUpdate_of_fits {s : State} (hst : s.hash.st = .absorbing)
    (hdata : fits s (s.argLo 0) (s.argLo 1)) : checkB2bUpdate s = none := by
  simp [checkB2bUpdate, hst, (s.valid_iff_fits _ _).mpr hdata]

theorem checkB2bFinal_of_fits {s : State} (hst : s.hash.st = .absorbing)
    (hout : fits s (s.argLo 2) s.hash.outlen) : checkB2bFinal s = none := by
  simp [checkB2bFinal, hst, (s.valid_iff_fits _ _).mpr hout]

theorem checkB2bCompress_of_fits {s : State} (hblock : fits s (s.argLo 0) 128) :
    checkB2bCompress s = none := by
  simp [checkB2bCompress, (s.valid_iff_fits _ _).mpr hblock]

theorem checkB2bHash_of_fits {nn kk : Nat} {s : State} (hlen : badHashLengths nn kk = false)
    (hdata : fits s (s.argLo 0) (s.argLo 1)) (hkey : fits s (s.argLo 3) kk)
    (hout : fits s (s.argLo 2) nn) : checkB2bHash nn kk s = none := by
  simp [checkB2bHash, hlen, (s.valid_iff_fits _ _).mpr hdata, (s.valid_iff_fits _ _).mpr hkey,
    (s.valid_iff_fits _ _).mpr hout]

theorem exec_b2bInit_of_fits {nn kk : Nat} {s : State} (hlen : badHashLengths nn kk = false)
    (hkey : fits s (s.argLo 0) kk) :
    exec (.b2bInit nn kk) s = .next (effectB2bInit nn kk s).complete :=
  exec_of_check_none (checkB2bInit_of_fits hlen hkey)

theorem exec_b2bUpdate_of_fits {s : State} (hst : s.hash.st = .absorbing)
    (hdata : fits s (s.argLo 0) (s.argLo 1)) : exec .b2bUpdate s = .next (effectB2bUpdate s).complete :=
  exec_of_check_none (checkB2bUpdate_of_fits hst hdata)

theorem exec_b2bFinal_of_fits {s : State} (hst : s.hash.st = .absorbing)
    (hout : fits s (s.argLo 2) s.hash.outlen) : exec .b2bFinal s = .next (effectB2bFinal s).complete :=
  exec_of_check_none (checkB2bFinal_of_fits hst hout)

/-! ## Absorbing one byte -/

theorem HashState.makeRoom_of_room {hs : HashState} (h : hs.buflen < 128) : hs.makeRoom = hs :=
  if_neg (Nat.ne_of_lt h)

theorem HashState.makeRoom_of_full {hs : HashState} (h : hs.buflen = 128) :
    hs.makeRoom = { hs.addT 128 with
      h := compress hs.h hs.buf.toList (hs.addT 128).t false, buflen := 0 } :=
  if_pos h

theorem HashState.push_of_room {hs : HashState} (h : hs.buflen < 128) (x : Byte) :
    hs.push x = { hs with buf := hs.buf.set hs.buflen x h, buflen := hs.buflen + 1 } := by
  simp [HashState.push, Vector.setIfInBounds, Array.setIfInBounds, h]

/-- Settles O28: a buffer with room is left to take the byte; a full one is counted, compressed and emptied
first. -/
theorem absorbingOneByte : Obligations.AbsorbingOneByte := by
  refine fun hs x => ⟨fun hroom => ?_, fun hfull => ?_⟩
  · rw [HashState.absorbByte, HashState.makeRoom_of_room hroom, HashState.push_of_room hroom]
  · have ht : (hs.addT 128).t = hs.t + 128 := hs.addT_t 128
    rw [HashState.absorbByte, HashState.makeRoom_of_full hfull, ht,
      HashState.push_of_room (Nat.succ_pos 127)]
    exact ⟨ht, rfl, rfl, rfl, rfl, rfl⟩

/-! ## B2B.INIT -/

@[simp] theorem initialH_zero (nn kk : Nat) :
    (initialH nn kk)[0] =
      iv[0] ^^^ 0x01010000 ^^^ (BitVec.ofNat 64 kk <<< 8) ^^^ BitVec.ofNat 64 nn := by
  simp [initialH]

theorem initialH_of_ne_zero (nn kk : Nat) {i : Fin 8} (h : i ≠ 0) : (initialH nn kk)[i] = iv[i] := by
  have hne : 0 ≠ i.val := fun h0 => h (Fin.ext h0.symm)
  exact Vector.getElem_set_ne (h := hne) ..

/-- BUF holds the key and then zeros (R148). -/
theorem keyBlock_toList {key : List Byte} (h : key.length ≤ 128) :
    (keyBlock key).toList = key ++ zeros (128 - key.length) := by
  have hlen : (key ++ zeros (128 - key.length)).length = 128 := by simp [zeros]; omega
  refine List.ext_getElem (by simp [hlen]) fun i _ hi => ?_
  simp [keyBlock, List.getD_eq_getElem?_getD, List.getElem?_eq_getElem hi]

/-- The effect of B2B.INIT, by the key length alone. -/
theorem effectB2bInit_eq (nn kk : Nat) (s : State) :
    effectB2bInit nn kk s = { s with
      hash := { h := initialH nn kk, t0 := 0, t1 := 0
                buf := if kk = 0 then s.hash.buf else keyBlock (s.dmem.read (s.argLo 0) kk)
                buflen := if kk = 0 then 0 else 128, outlen := nn, st := .absorbing } } := by
  simp [effectB2bInit, HashState.init]

/-- Settles O26: the lengths and the key region pass the checks, and the effect is Init. -/
theorem b2bInitBeginsAHash : Obligations.B2bInitBeginsAHash := by
  intro s nn kk hnn hnn' hkk hkey
  have hlen := badHashLengths_eq_false_iff.mpr ⟨hnn, hnn', hkk⟩
  rw [exec_b2bInit_of_fits hlen hkey, effectB2bInit_eq]
  refine ⟨_, rfl, rfl, initialH_zero nn kk, fun _ => initialH_of_ne_zero nn kk, fun hne => ?_⟩
  have hblock := keyBlock_toList (key := s.dmem.read (s.argLo 0) kk) (by simp; omega)
  simpa [State.complete, hne] using hblock

/-! ## B2B.UPDATE -/

/-- Absorbing writes neither OUTLEN nor B2BST. -/
theorem HashState.absorb_fixed (hs : HashState) (xs : List Byte) :
    hs.absorb xs = { hs.absorb xs with outlen := hs.outlen, st := hs.st } := by
  rw [← hs.absorb_outlen xs, ← hs.absorb_st xs]

/-- Settles O27: the effect is the absorption, and absorbing leaves OUTLEN and B2BST alone. -/
theorem b2bUpdateAbsorbsTheRegion : Obligations.B2bUpdateAbsorbsTheRegion := by
  intro s hst hdata
  refine ⟨_, exec_b2bUpdate_of_fits hst hdata, ?_, rfl, fun hempty => ?_⟩
  · exact congrArg (fun hash => { s with status := s.status.succeeded, hash := hash })
      (s.hash.absorb_fixed (s.dmem.read (s.argLo 0) (s.argLo 1)))
  · show s.hash.absorb (s.dmem.read (s.argLo 0) (s.argLo 1)) = s.hash
    rw [hempty, Memory.read_zero, HashState.absorb_nil]

/-- The machine with the operands of B2B.UPDATE set to a region, as the statement places them. -/
def State.withRegion (s : State) (a n : Nat) : State :=
  { s with args := (s.args.set 0 (BitVec.ofNat 64 a)).set 1 (BitVec.ofNat 64 n) }

theorem extractLsb'_ofNat_of_lt {a : Nat} (h : a < 2 ^ 32) :
    ((BitVec.ofNat 64 a).extractLsb' 0 32).toNat = a := by
  simp; omega

theorem State.withRegion_argLo_zero (s : State) {a : Nat} (n : Nat) (h : a < 2 ^ 32) :
    (s.withRegion a n).argLo 0 = a := by
  have harg : (s.withRegion a n).arg 0 = BitVec.ofNat 64 a := by simp [State.arg, State.withRegion]
  rw [State.argLo, harg, extractLsb'_ofNat_of_lt h]

theorem State.withRegion_argLo_one (s : State) (a : Nat) {n : Nat} (h : n < 2 ^ 32) :
    (s.withRegion a n).argLo 1 = n := by
  have harg : (s.withRegion a n).arg 1 = BitVec.ofNat 64 n := by simp [State.arg, State.withRegion]
  rw [State.argLo, harg, extractLsb'_ofNat_of_lt h]

/-- B2B.UPDATE over a region given as numbers. -/
theorem exec_b2bUpdate_withRegion {s : State} {a n : Nat} (hst : s.hash.st = .absorbing)
    (hsize : a + n ≤ s.cfg.dmemSize) (hlt : a + n < 2 ^ 32) :
    exec .b2bUpdate (s.withRegion a n) =
      .next { (s.withRegion a n).complete with hash := s.hash.absorb (s.dmem.read a n) } := by
  have h0 := s.withRegion_argLo_zero n (show a < 2 ^ 32 by omega)
  have h1 := s.withRegion_argLo_one a (show n < 2 ^ 32 by omega)
  have hfits : fits (s.withRegion a n) ((s.withRegion a n).argLo 0) ((s.withRegion a n).argLo 1) := by
    rw [h0, h1]
    exact .inr hsize
  rw [exec_b2bUpdate_of_fits (s := s.withRegion a n) hst hfits, effectB2bUpdate, h0, h1]
  rfl

/-- Settles O53: a region is read as its two parts, and absorbing them one after the other absorbs the
whole. -/
theorem updateInChunksIsOneUpdate : Obligations.UpdateInChunksIsOneUpdate := by
  intro s a n k hst hsize hlt
  refine ⟨_, _, _, exec_b2bUpdate_withRegion hst (by omega) (by omega),
    exec_b2bUpdate_withRegion ((s.hash.absorb_st _).trans hst) hsize hlt,
    exec_b2bUpdate_withRegion hst (by omega) (by omega), ?_⟩
  show (s.hash.absorb (s.dmem.read a n)).absorb (s.dmem.read (a + n) k) =
    s.hash.absorb (s.dmem.read a (n + k))
  rw [Memory.read_append, HashState.absorb_append]

/-! ## B2B.FINAL -/

theorem HashState.finalize_t (hs : HashState) :
    hs.finalize.t = hs.t + BitVec.ofNat 128 hs.buflen := hs.addT_t hs.buflen

/-- A write of `n` bytes is read back, and every other byte is as before. -/
theorem Memory.write_read_and_frame {m : Memory} (h : m.wf) (a : Nat) {n : Nat} {bs : List Byte}
    (hlen : bs.length = n) : (m.write a bs).read a n = bs ∧
      ∀ x, (x < a ∨ a + n ≤ x) → (m.write a bs).byte x = m.byte x := by
  subst hlen
  exact ⟨Memory.read_write_same h a bs, fun x => Memory.byte_write_outside h⟩

/-- Settles O29: the effect is Finalize and the write of its digest, which is OUTLEN bytes long. -/
theorem b2bFinalWritesTheDigest : Obligations.B2bFinalWritesTheDigest := by
  intro s hst hout hrange hwf
  have hlen : s.hash.finalize.digest.length = s.hash.outlen := by
    rw [HashState.digest_length, HashState.finalize_outlen, Nat.min_eq_left hrange.2]
  obtain ⟨hread, hframe⟩ := Memory.write_read_and_frame hwf (s.argLo 2) hlen
  exact ⟨_, exec_b2bFinal_of_fits hst hout, rfl, s.hash.finalize_t, rfl, hread, hframe⟩

/-! ## B2B.COMPRESS -/

/-- Settles O30: the check is the region's alone, and the effect is F. -/
theorem b2bCompressAppliesF : Obligations.B2bCompressAppliesF := fun _ _ hblock =>
  exec_of_check_none (checkB2bCompress_of_fits hblock)

/-! ## B2B.HASH -/

/-- DMEM after B2B.INIT, B2B.UPDATE and B2B.FINAL with legal lengths and valid regions; the key's address
stands in ARG0 for B2B.INIT only. -/
theorem exec_init_update_final {nn kk : Nat} {s : State} (hlen : badHashLengths nn kk = false)
    (hdata : fits s (s.argLo 0) (s.argLo 1)) (hkey : fits s (s.argLo 3) kk)
    (hout : fits s (s.argLo 2) nn) :
    ∃ u v w : State,
      exec (.b2bInit nn kk) { s with args := s.args.set 0 (s.arg 3) } = .next u ∧
      exec .b2bUpdate { u with args := s.args } = .next v ∧ exec .b2bFinal v = .next w ∧
      w.dmem = s.dmem.write (s.argLo 2)
        (blake2b nn (s.dmem.read (s.argLo 0) (s.argLo 1)) (s.dmem.read (s.argLo 3) kk)) := by
  have hkey' : ({ s with args := s.args.set 0 (s.arg 3) } : State).argLo 0 = s.argLo 3 := by
    simp [State.argLo, State.arg]
  refine ⟨_, _, _, exec_b2bInit_of_fits hlen (hkey' ▸ hkey), exec_b2bUpdate_of_fits rfl hdata,
    exec_b2bFinal_of_fits (HashState.absorb_st ..) ?_, ?_⟩
  · exact (HashState.absorb_outlen ..).symm ▸ hout
  · show s.dmem.write (s.argLo 2) ((s.hash.init nn (s.dmem.read
      (({ s with args := s.args.set 0 (s.arg 3) } : State).argLo 0) kk)).absorb
        (s.dmem.read (s.argLo 0) (s.argLo 1))).finalize.digest = _
    rw [hkey', HashState.digest_eq_blake2b]

/-- Settles O31: the effect is the write of the digest; the three commands absorb the same bytes, and the
bytes of BUF that B2B.INIT leaves open reach no digest. -/
theorem b2bHashWritesTheDigest : Obligations.B2bHashWritesTheDigest := by
  intro s nn kk hnn hnn' hkk hdata hkey hout hwf
  have hlen := badHashLengths_eq_false_iff.mpr ⟨hnn, hnn', hkk⟩
  have hdigest : (blake2b nn (s.dmem.read (s.argLo 0) (s.argLo 1))
      (s.dmem.read (s.argLo 3) kk)).length = nn := by
    rw [blake2b_length, Nat.min_eq_left hnn']
  obtain ⟨hread, hframe⟩ := Memory.write_read_and_frame hwf (s.argLo 2) hdigest
  exact ⟨_, exec_of_check_none (checkB2bHash_of_fits hlen hdata hkey hout), rfl, hread, hframe,
    exec_init_update_final hlen hdata hkey hout⟩

/-! ## What the other commands leave alone -/

/-- A command other than A2.MODE and A2.INDEX leaves the result registers (R44). -/
theorem effectOf_results {i : Instr} (hmode : i ≠ .a2Mode) (hindex : i ≠ .a2Index) (s : State) :
    (effectOf i s).res0 = s.res0 ∧ (effectOf i s).res1 = s.res1 := by
  cases i with
  | a2Mode => exact absurd rfl hmode
  | a2Index => exact absurd rfl hindex
  | a2Init => rw [effectOf, effectA2Init_fixed]; exact ⟨rfl, rfl⟩
  | a2Slice => rw [effectOf, effectA2Slice_fixed]; exact ⟨rfl, rfl⟩
  | a2Final => rw [effectOf, effectA2Final_fixed]; exact ⟨rfl, rfl⟩
  | a2Run => rw [effectOf, effectA2Run_fixed]; exact ⟨rfl, rfl⟩
  | _ => exact ⟨rfl, rfl⟩

/-- Settles O44: an error completion changes neither, and the effect of a command changes only what the
command writes. -/
theorem onlyTheirCommandsChangeHashAndResults : Obligations.OnlyTheirCommandsChangeHashAndResults := by
  intro i s t hexec
  rcases exec_cases hexec with ⟨-, rfl⟩ | ⟨e, -, rfl⟩
  · refine ⟨fun hne => ?_, fun hne => ⟨?_, rfl⟩⟩
    · by_contra hw
      exact hne (effectOf_hash_of_not_writesHash hw s)
    · by_contra hw
      obtain ⟨hmode, hindex⟩ := not_or.mp hw
      obtain ⟨h0, h1⟩ := effectOf_results hmode hindex s
      exact hne.elim (· h0) (· h1)
  · exact ⟨fun hne => absurd rfl hne, fun hne => hne.elim (absurd rfl) (absurd rfl)⟩

/-! ## The byte count -/

/-- `n` bytes have been absorbed: the counter has whole blocks, and BUF the rest, which is empty at the
start only (R149, R152). -/
structure HashState.Counts (hs : HashState) (n : Nat) : Prop where
  total : hs.t.toNat + hs.buflen = n
  blocks : hs.t.toNat % 128 = 0
  full : hs.buflen ≤ 128
  rest : 0 < n → 0 < hs.buflen

theorem HashState.init_t (hs : HashState) (nn : Nat) (key : List Byte) : (hs.init nn key).t = 0 := by
  show (0 : Word) ++ (0 : Word) = (0 : U128)
  decide

theorem HashState.init_counts (hs : HashState) (nn : Nat) (key : List Byte) :
    (hs.init nn key).Counts (if key.length = 0 then 0 else 128) where
  total := by rw [HashState.init_t]; exact Nat.zero_add _
  blocks := by rw [HashState.init_t]; rfl
  full := hs.init_buflen_le nn key
  rest := id

/-- While the count does not wrap, `addT` adds on numbers. -/
theorem HashState.addT_toNat {hs : HashState} {n : Nat} (h : hs.t.toNat + n < 2 ^ 128) :
    (hs.addT n).t.toNat = hs.t.toNat + n := by
  rw [HashState.addT_t, BitVec.toNat_add, BitVec.toNat_ofNat, Nat.add_mod_mod, Nat.mod_eq_of_lt h]

/-- Making room moves a full buffer's 128 bytes from BUF to the counter. -/
theorem HashState.Counts.makeRoom {hs : HashState} {n : Nat} (h : hs.Counts n) (hn : n < 2 ^ 128) :
    hs.makeRoom.t.toNat + hs.makeRoom.buflen = n ∧ hs.makeRoom.t.toNat % 128 = 0 ∧
      hs.makeRoom.buflen < 128 := by
  obtain ⟨htotal, hblocks, hle, -⟩ := h
  rcases Nat.lt_or_eq_of_le hle with hroom | hfull
  · rw [HashState.makeRoom_of_room hroom]
    exact ⟨htotal, hblocks, hroom⟩
  · rw [HashState.makeRoom_of_full hfull]
    have ht : (hs.addT 128).t.toNat = hs.t.toNat + 128 := HashState.addT_toNat (by omega)
    show (hs.addT 128).t.toNat + 0 = n ∧ (hs.addT 128).t.toNat % 128 = 0 ∧ 0 < 128
    omega

theorem HashState.Counts.absorbByte {hs : HashState} {n : Nat} (h : hs.Counts n) (hn : n < 2 ^ 128)
    (x : Byte) : (hs.absorbByte x).Counts (n + 1) := by
  obtain ⟨htotal, hblocks, hroom⟩ := h.makeRoom hn
  exact ⟨congrArg (· + 1) htotal, hblocks, hroom, fun _ => Nat.succ_pos _⟩

theorem HashState.Counts.absorb {hs : HashState} {n : Nat} (h : hs.Counts n) (data : List Byte)
    (hn : n + data.length < 2 ^ 128) : (hs.absorb data).Counts (n + data.length) := by
  induction data generalizing hs n with
  | nil => exact h
  | cons x data ih =>
    rw [List.length_cons] at hn ⊢
    rw [HashState.absorb_cons, show n + (data.length + 1) = n + 1 + data.length by omega]
    exact ih (h.absorbByte (by omega) x) (by omega)

theorem HashState.Counts.finalize_t {hs : HashState} {n : Nat} (h : hs.Counts n) (hn : n < 2 ^ 128) :
    hs.finalize.t.toNat = n :=
  (HashState.addT_toNat (h.total ▸ hn)).trans h.total

/-- Settles O54: Init counts the key block, each byte absorbed one more, and Finalize the rest of BUF. -/
theorem counterCountsTheBytesAbsorbed : Obligations.CounterCountsTheBytesAbsorbed := by
  intro hs nn key data total ab htotal
  have hcounts : ab.Counts total := (hs.init_counts nn key).absorb data htotal
  exact ⟨hcounts.total, hcounts.blocks, hcounts.full, hcounts.rest, hcounts.finalize_t htotal⟩

end Sys2Proof.Machine
end

section
/-! SUPPORT. Blake2b-Long: the chain of H' as its first 32 bytes per chain value and a final call, and
B2B.LONG, which writes H' of its data. -/

namespace Sys2Proof.Machine
open Sys2Proof.Claims

/-! ## The chain of H' -/

theorem hPrime_of_le {t : Nat} (h : t ≤ 64) (a : List Byte) :
    hPrime t a = blake2b t (le32 t ++ a) [] := if_pos h

theorem hPrime_of_gt {t : Nat} (h : 64 < t) (a : List Byte) :
    hPrime t a = (chainValue t a 0).take 32 ++ hPrimeChain t (t - 32) (chainValue t a 0) :=
  if_neg (Nat.not_le.mpr h)

/-- At most 64 bytes are one final call, whatever the fuel. -/
theorem hPrimeChain_of_le {rem : Nat} (h : rem ≤ 64) (fuel : Nat) (v : List Byte) :
    hPrimeChain fuel rem v = blake2b rem v [] := by
  cases fuel with
  | zero => rfl
  | succ fuel => exact if_neg (Nat.not_lt.mpr h)

/-- More than 64 bytes ask for the next chain value. -/
theorem hPrimeChain_of_gt {rem : Nat} (h : 64 < rem) (fuel : Nat) (t : Nat) (a : List Byte) (k : Nat) :
    hPrimeChain (fuel + 1) rem (chainValue t a k) =
      (chainValue t a (k + 1)).take 32 ++ hPrimeChain fuel (rem - 32) (chainValue t a (k + 1)) :=
  if_pos h

/-- With between 33 and 64 bytes beyond `32 * n` to emit after chain value `k`, the rest of H' is `n` more
chain values cut to 32 bytes and the final call (R181, R182). -/
theorem hPrimeChain_eq_flatMap (t : Nat) (a : List Byte) {n fuel rem : Nat} (k : Nat) (hfuel : n ≤ fuel)
    (hlo : 32 * n + 33 ≤ rem) (hhi : rem ≤ 32 * n + 64) :
    hPrimeChain fuel rem (chainValue t a k) =
      (List.range' (k + 1) n).flatMap (fun i => (chainValue t a i).take 32) ++
        blake2b (rem - 32 * n) (chainValue t a (k + n)) [] := by
  induction n generalizing fuel rem k with
  | zero => exact hPrimeChain_of_le hhi fuel _
  | succ n ih =>
    obtain ⟨fuel, rfl⟩ : ∃ f, fuel = f + 1 := ⟨fuel - 1, by omega⟩
    have hrem : rem - 32 - 32 * n = rem - 32 * (n + 1) := by omega
    rw [hPrimeChain_of_gt (by omega), ih (k + 1) (by omega) (by omega) (by omega), hrem,
      List.range'_succ, List.flatMap_cons, List.append_assoc, Nat.add_right_comm k 1 n, Nat.add_assoc k n 1]

/-- With between 33 and 64 bytes beyond `32 * r`, H' is `r` chain values cut to 32 bytes and the final
call (R182). -/
theorem hPrime_eq_flatMap {t r : Nat} (a : List Byte) (hr : 1 ≤ r) (hlo : 32 * r + 33 ≤ t)
    (hhi : t ≤ 32 * r + 64) :
    hPrime t a = (List.range r).flatMap (fun k => (chainValue t a k).take 32) ++
      blake2b (t - 32 * r) (chainValue t a (r - 1)) [] := by
  obtain ⟨n, rfl⟩ : ∃ n, r = n + 1 := ⟨r - 1, by omega⟩
  have hrem : t - 32 - 32 * n = t - 32 * (n + 1) := by omega
  rw [hPrime_of_gt (by omega), hPrimeChain_eq_flatMap t a 0 (n := n) (by omega) (by omega) (by omega),
    hrem, List.range_eq_range', List.range'_succ, List.flatMap_cons, List.append_assoc, Nat.zero_add,
    Nat.zero_add, Nat.add_sub_cancel]

/-- Settles O55: for T > 64, between 33 and 64 bytes lie beyond the 32 * r of the truncated calls. -/
theorem hPrimeChainLength : Obligations.HPrimeChainLength := by
  refine fun t a => ⟨hPrime_length t a, fun h => hPrime_of_le h a, fun h => ?_⟩
  intro r
  have hr : 1 ≤ r := by omega
  have hlo : 32 * r + 33 ≤ t := by omega
  have hhi : t ≤ 32 * r + 64 := by omega
  exact ⟨by omega, by omega, hr, hPrime_eq_flatMap a hr hlo hhi⟩

/-! ## B2B.LONG -/

theorem checkB2bLong_of_fits {s : State} (hlen : s.argLo 3 ≠ 0)
    (hdata : fits s (s.argLo 0) (s.argLo 1)) (hout : fits s (s.argLo 2) (s.argLo 3)) :
    checkB2bLong s = none := by
  simp [checkB2bLong, hlen, (s.valid_iff_fits _ _).mpr hdata, (s.valid_iff_fits _ _).mpr hout]

/-- Settles O32: the checks pass, and the effect is one write of H', which is T bytes long. -/
theorem b2bLongWritesHPrime : Obligations.B2bLongWritesHPrime := by
  intro s hlen hdata hout hwf
  obtain ⟨hread, hframe⟩ := Memory.write_read_and_frame hwf (s.argLo 2)
    (hPrime_length (s.argLo 3) (s.dmem.read (s.argLo 0) (s.argLo 1)))
  exact ⟨_, exec_of_check_none (checkB2bLong_of_fits hlen hdata hout), rfl, hread, hframe⟩

end Sys2Proof.Machine
end

section
/-! SUPPORT. The block compression G: it depends on X xor Y only and sends equal blocks to the zero block; and
A2.G, which writes it. -/

namespace Sys2Proof.Machine
open Sys2Proof.Claims

/-! ## G -/

theorem blockG_congr {x y x' y' : Block} (h : x.xor y = x'.xor y') : blockG x y = blockG x' y' := by
  unfold blockG
  rw [h]

theorem permP_zero : permP (Vector.replicate 16 0) = Vector.replicate 16 0 := by decide

/-- P leaves sixteen words that are 0 as they are, wherever they stand in the block (R196). -/
theorem applyP_zero (place : Fin 16 → Fin 128) : applyP place Block.zero = Block.zero := by
  have hload : Vector.ofFn (fun k => Block.zero[place k]) = Vector.replicate 16 0 := by
    ext k hk
    simp [Block.zero]
  have hstore : ∀ k : Fin 16, Block.zero.set (place k) (Vector.replicate 16 (0 : Word))[k] = Block.zero := by
    intro k
    ext i hi
    simp [Block.zero]
  unfold applyP
  rw [hload, permP_zero]
  exact List.foldl_fixed' hstore _

theorem mixRows_zero : mixRows Block.zero = Block.zero :=
  List.foldl_fixed' (fun i => applyP_zero (rowIndex i)) _

theorem mixCols_zero : mixCols Block.zero = Block.zero :=
  List.foldl_fixed' (fun j => applyP_zero (colIndex j)) _

theorem blockG_self (x : Block) : blockG x x = Block.zero := by
  simp only [blockG, Block.xor_self, mixRows_zero, mixCols_zero]

/-- Settles O56: G is a function of X xor Y, and both its passes leave the zero block as it is. -/
theorem compressionGProperties : Obligations.CompressionGProperties :=
  ⟨fun x y => blockG_congr (Block.xor_comm x y), fun _ _ _ _ => blockG_congr, blockG_self⟩

/-! ## A2.G -/

theorem checkA2G_of_fits {s : State} (hx : fits s (s.argLo 0) 1024) (hy : fits s (s.argLo 1) 1024)
    (hz : fits s (s.argLo 2) 1024) : checkA2G s = none := by
  rw [← State.valid_iff_fits] at hx hy hz
  simp [checkA2G, hx, hy, hz]

/-- Settles O40: the regions pass the check, and the effect is one block stored. -/
theorem a2GWritesTheCompression : Obligations.A2GWritesTheCompression := by
  intro s xor hx hy hz hwf
  exact ⟨_, exec_of_check_none (checkA2G_of_fits hx hy hz), rfl, Memory.block_setBlock_same hwf _ _,
    fun _ => Memory.byte_setBlock_outside hwf _⟩

end Sys2Proof.Machine
end

section
/-! SUPPORT. The checks of the Argon2 commands: the cause each ends with (R276, R277), and what they accept. -/

namespace Sys2Proof.Machine
open Sys2Proof.Claims

/-! ## Error completions -/

/-- The error completion of the first failing check is the one R274 gives. -/
theorem endsWith_of_check {i : Instr} {s : State} {e : Cause} (h : checkOf i s = some e) :
    endsWith i s e := exec_of_check_some h

/-! ## A2.H0 and A2.RUN -/

theorem badParams_iff (c : A2Config) : badParams c = true ↔
    c.t.toNat < 1 ∨ c.p.toNat < 1 ∨ c.ty.toNat > 2 ∨ c.taglen.toNat < 1 ∨ c.m.toNat < 8 * c.p.toNat := by
  simp only [badParams, Bool.or_eq_true, decide_eq_true_iff, or_assoc]

/-- The input regions and the tag region of the configuration are valid (R201). -/
def regionsFit (s : State) : Prop :=
  fits s s.a2.pwdAddr.toNat s.a2.pwdLen.toNat ∧ fits s s.a2.saltAddr.toNat s.a2.saltLen.toNat ∧
    fits s s.a2.secretAddr.toNat s.a2.secretLen.toNat ∧ fits s s.a2.adAddr.toNat s.a2.adLen.toNat ∧
    fits s s.a2.tagAddr.toNat s.a2.taglen.toNat

theorem all_valid_iff_regionsFit (s : State) :
    (inputRegions s.a2 ++ [tagRegion s.a2]).all (fun r => s.valid r.1 r.2) = true ↔ regionsFit s := by
  simp [inputRegions, tagRegion, regionsFit, State.valid_iff_fits]

/-- The matrix region of the configuration is valid (R202). -/
def matrixFits (s : State) : Prop :=
  fits s s.a2.mbase.toNat (s.a2.p.toNat * (4 * (s.a2.m.toNat / (4 * s.a2.p.toNat))) * 1024)

theorem valid_matrixRegion_iff (s : State) :
    s.valid (matrixRegion s.a2).1 (matrixRegion s.a2).2 = true ↔ matrixFits s := s.valid_iff_fits _ _

theorem checkParams_of_badParams {s : State} (h : badParams s.a2 = true) : checkParams s = some .param :=
  if_pos h

theorem checkParams_of_not_regionsFit {s : State} (hp : ¬badParams s.a2 = true) (hr : ¬regionsFit s) :
    checkParams s = some .range := by
  rw [checkParams, if_neg hp, if_neg ((all_valid_iff_regionsFit s).not.mpr hr)]

theorem checkParams_of_not_matrixFits {s : State} (hp : ¬badParams s.a2 = true) (hr : regionsFit s)
    (hm : ¬matrixFits s) : checkParams s = some .alloc := by
  rw [checkParams, if_neg hp, if_pos ((all_valid_iff_regionsFit s).mpr hr),
    if_neg ((valid_matrixRegion_iff s).not.mpr hm)]

/-- A configuration that R201 and R202 accept passes the checks. -/
theorem checkParams_of_configOk {s : State} (h : configOk s) : checkParams s = none := by
  obtain ⟨ht, hp, hty, htag, hm, hpwd, hsalt, hsecret, had, htagRegion, hmatrix⟩ := h
  have hparams : ¬badParams s.a2 = true := by rw [badParams_iff]; omega
  have hregions : regionsFit s := ⟨hpwd, hsalt, hsecret, had, htagRegion⟩
  rw [checkParams, if_neg hparams, if_pos ((all_valid_iff_regionsFit s).mpr hregions),
    if_pos ((valid_matrixRegion_iff s).mpr hmatrix)]

theorem checkStart_of_active {s : State} (h : s.run.st.active = true) : checkStart s = some .a2State :=
  if_pos h

theorem checkStart_of_not_active {s : State} (h : s.run.st.active = false) :
    checkStart s = checkParams s := if_neg (by simp [h])

theorem checkOf_of_startsRun {i : Instr} (h : i = .a2H0 ∨ i = .a2Run) (s : State) :
    checkOf i s = checkStart s := by
  rcases h with rfl | rfl <;> rfl

/-- Settles O24: both commands have the one check, which looks at A2ST, the parameters, the regions and the
matrix in this order. -/
theorem runStartErrors : Obligations.RunStartErrors := by
  intro s i hi bad inputs matrix
  have hends {e : Cause} (hc : checkStart s = some e) : endsWith i s e :=
    endsWith_of_check ((checkOf_of_startsRun hi s).trans hc)
  refine ⟨fun hactive => hends (checkStart_of_active hactive), fun hidle => ?_⟩
  have hparams {e : Cause} (hc : checkParams s = some e) : endsWith i s e :=
    hends ((checkStart_of_not_active hidle).trans hc)
  have hbad : badParams s.a2 = true ↔ bad := badParams_iff s.a2
  exact ⟨fun hb => hparams (checkParams_of_badParams (hbad.mpr hb)),
    fun hb hr => hparams (checkParams_of_not_regionsFit (hbad.not.mpr hb) hr),
    fun hb hr hm => hparams (checkParams_of_not_matrixFits (hbad.not.mpr hb) hr hm)⟩

/-! ## The other commands -/

theorem checkA2G_of_not_fits {s : State}
    (h : ¬(fits s (s.argLo 0) 1024 ∧ fits s (s.argLo 1) 1024 ∧ fits s (s.argLo 2) 1024)) :
    checkA2G s = some .range := by
  apply if_neg
  simpa only [Bool.and_eq_true, State.valid_iff_fits, and_assoc] using h

theorem checkA2Addr_eq {s : State} (h : s.run.st ≠ .unconfigured) : checkA2Addr s =
    if s.argLo 0 ≥ s.a2.t.toNat ∨ s.argLo 1 ≥ s.a2.p.toNat ∨ s.argLo 2 > 3 then some .param
    else if s.valid (s.argLo 4) 1024 then none else some .range := by
  rw [checkA2Addr, if_neg h]
  simp only [Bool.or_eq_true, decide_eq_true_iff, or_assoc]

theorem checkA2Index_eq {s : State} (h : s.run.st ≠ .unconfigured) : checkA2Index s =
    if s.argLo 1 ≥ s.a2.t.toNat ∨ s.argLo 2 > 3 ∨ s.argLo 3 ≥ s.a2.p.toNat ∨
      s.argLo 4 ≥ s.run.seglen.toNat ∨ (s.argLo 1 = 0 ∧ s.argLo 2 = 0 ∧ s.argLo 4 < 2) then some .param
    else none := by
  rw [checkA2Index, if_neg h]
  simp only [Bool.or_eq_true, Bool.and_eq_true, decide_eq_true_iff, or_assoc, and_assoc]

/-- Settles O25: each command's own check, with A2ST before the operands and these before the region. -/
theorem fillAndAddressingErrors : Obligations.FillAndAddressingErrors := by
  intro s xor badAddr badIndex
  refine ⟨?init, ?slice, ?final, ?g, ?mode, ?unconfigured, fun hst => ⟨?addrParam, ?addrRange, ?indexParam⟩⟩
  case init => exact fun h => endsWith_of_check (if_neg h)
  case slice => exact fun h h' => endsWith_of_check (if_neg (by simp [h, h']))
  case final => exact fun h => endsWith_of_check (if_neg h)
  case g => exact fun h => endsWith_of_check (checkA2G_of_not_fits h)
  case mode => exact fun h => endsWith_of_check (if_pos (by simpa using h))
  case unconfigured => exact fun h => ⟨endsWith_of_check (if_pos h), endsWith_of_check (if_pos h)⟩
  case addrParam => exact fun hbad => endsWith_of_check ((checkA2Addr_eq hst).trans (if_pos hbad))
  case addrRange =>
    intro hbad hfits
    refine endsWith_of_check ((checkA2Addr_eq hst).trans ((if_neg hbad).trans (if_neg ?_)))
    rwa [State.valid_iff_fits]
  case indexParam => exact fun hbad => endsWith_of_check ((checkA2Index_eq hst).trans (if_pos hbad))

end Sys2Proof.Machine
end

section
/-! SUPPORT. A2.H0, A2.INIT, A2.FINAL and A2.ABORT: what each leaves in the run registers and in DMEM. -/

namespace Sys2Proof.Machine
open Sys2Proof.Claims

/-! ## A2.H0 and A2.ABORT -/

/-- A start that finds no run active and an accepted configuration passes its checks. -/
theorem checkStart_of_configOk {s : State} (hidle : s.run.st.active = false) (h : configOk s) :
    checkStart s = none := (checkStart_of_not_active hidle).trans (checkParams_of_configOk h)

/-- The seed's register `k` (R51). -/
theorem effectA2H0_h0reg (s : State) (k : Fin 16) : (effectA2H0 s).run.h0reg[k] =
    BitVec.ofNat 32 (ofLE (slice (blake2b 64 (seedInput s.a2 s.dmem) []) (4 * k.val) 4)) := by
  show (h0Registers (seedH0 s.a2 s.dmem))[k.val] = _
  rw [h0Registers, Vector.getElem_ofFn]
  rfl

/-- Settles O33: the checks pass, the sizes are R192's, and the seed is the Blake2b of the fields one after the
other. -/
theorem a2H0DerivesTheSeed : Obligations.A2H0DerivesTheSeed := by
  intro s hidle hconfig
  refine ⟨_, exec_of_check_none (checkStart_of_configOk hidle hconfig), rfl, rfl, rfl, rfl,
    effectA2H0_sized hconfig, fun k => ?_⟩
  refine (effectA2H0_h0reg s k).trans ?_
  simp only [seedInput, prefixed, List.append_assoc]

/-- Settles O39: A2.ABORT has no check, and its effect is the reset of the run registers. -/
theorem a2AbortClearsTheRun : Obligations.A2AbortClearsTheRun := fun s =>
  exec_of_check_none (i := .a2Abort) (s := s) rfl

/-! ## A matrix in DMEM -/

theorem State.namesMatrix_of_matrixOk {s : State} (h : matrixOk s) : s.namesMatrix :=
  ⟨h.1.1, h.1.2, (s.valid_iff_fits _ _).mpr h.2⟩

/-! ## A2.INIT -/

/-- A region that one of a fold's updates fills, whatever the memory, and the others leave alone. -/
theorem foldl_read_of_mem {α : Type} {f : Memory → α → Memory} (hf : ∀ m a, m.wf → (f m a).wf)
    {a n : Nat} {bs : List Byte} {x : α} (hself : ∀ m : Memory, m.wf → (f m x).read a n = bs)
    {xs : List α} (hother : ∀ y ∈ xs, y ≠ x → ∀ m : Memory, m.wf → (f m y).read a n = m.read a n)
    {m : Memory} (h : m.wf) (hx : x ∈ xs ∨ m.read a n = bs) : (xs.foldl f m).read a n = bs := by
  induction xs generalizing m with
  | nil => exact hx.resolve_left List.not_mem_nil
  | cons y ys ih =>
    refine ih (fun z hz => hother z (List.mem_cons_of_mem _ hz)) (hf m y h) ?_
    by_cases hy : y = x
    · exact .inr (hy ▸ hself m h)
    · rw [hother y (List.mem_cons_self ..) hy m h]
      exact hx.imp_left fun hx => (List.mem_cons.mp hx).resolve_left (Ne.symm hy)

/-- Both initial blocks of a lane stand in their columns (R194). -/
theorem read_initLane_same {j : Job} {h0 : List Byte} {m : Memory} (h : m.wf) (l : Nat) {c : Nat}
    (hc : c < 2) : (initLane j h0 m l).read (blkAddr j l c) 1024 = initialBlock h0 l c := by
  have hone := blkAddr_one j l
  have hsame {m : Memory} (h : m.wf) (c : Nat) :
      (m.write (blkAddr j l c) (initialBlock h0 l c)).read (blkAddr j l c) 1024 = initialBlock h0 l c :=
    (Memory.write_read_and_frame h _ (initialBlock_length h0 l c)).1
  obtain rfl | rfl : c = 0 ∨ c = 1 := by omega
  · rw [initLane, Memory.read_write_disjoint (Memory.write_wf h _ _) (by omega), hsame h]
  · exact hsame (Memory.write_wf h _ _) 1

/-- The initial blocks of another lane are elsewhere. -/
theorem read_initLane_other {j : Job} (hq : 2 ≤ j.q) {h0 : List Byte} {m : Memory} (h : m.wf) {l l' c : Nat}
    (hc : c < 2) (hne : l' ≠ l) :
    (initLane j h0 m l').read (blkAddr j l c) 1024 = m.read (blkAddr j l c) 1024 := by
  refine Memory.read_congr fun x hlo hhi => byte_initLane_outside h ?_
  have hapart := blkAddr_lanes_apart j hne (c := 0) (n := 2) (c' := c) (n' := 1) hq (by omega)
  omega

theorem effectA2Init_defined {s : State} (h : s.initDefined = true) : effectA2Init s =
    { s with
      run := { s.run with st := .initFilled }
      dmem := (List.range s.job.p).foldl (initLane s.job s.run.h0Bytes) s.dmem } := by
  rw [effectA2Init, fillInit_defined h]

/-- Settles O34: each lane's update fills its own two columns and leaves the other lanes' alone. -/
theorem a2InitWritesTheInitialBlocks : Obligations.A2InitWritesTheInitialBlocks := by
  intro s hst hwf hmatrix
  have hq : 2 ≤ s.job.q := by
    obtain ⟨hseg, hq⟩ := hmatrix.1
    omega
  have hwfLane (m : Memory) (l : Nat) (h : m.wf) : (initLane s.job s.run.h0Bytes m l).wf :=
    initLane_wf h l
  refine ⟨(effectA2Init s).complete, exec_of_check_none (if_pos hst), ?_⟩
  rw [effectA2Init_defined (State.namesMatrix_of_matrixOk hmatrix).initDefined]
  refine ⟨rfl, fun l c hl hc => ?_, fun x hx => ?_⟩
  · exact foldl_read_of_mem hwfLane (fun m h => read_initLane_same h l hc)
      (fun l' _ hne m h => read_initLane_other hq h hc hne) hwf (.inl (List.mem_range.mpr hl))
  · refine foldl_byte _ hwfLane x _ (fun l hl m h => byte_initLane_outside h ?_) hwf
    have hx : x < s.job.mbase + l * s.job.q * 1024 ∨ s.job.mbase + (l * s.job.q + 2) * 1024 ≤ x :=
      hx l (List.mem_range.mp hl)
    simp only [blkAddr]
    omega

/-! ## A2.FINAL -/

theorem Block.foldl_xor_getElem {α : Type} (f : α → Block) (xs : List α) (b : Block) (k : Fin 128) :
    (xs.foldl (fun c x => c.xor (f x)) b)[k] = xs.foldl (fun w x => w ^^^ (f x)[k]) b[k] := by
  induction xs generalizing b with
  | nil => rfl
  | cons x xs ih =>
    rw [List.foldl_cons, List.foldl_cons, ih]
    exact congrArg (fun w => xs.foldl _ w) (Block.xor_getElem b (f x) k.val k.isLt)

theorem lastColumn_getElem (j : Job) (m : Memory) (k : Fin 128) : (lastColumn j m)[k] =
    (List.range j.p).foldl (fun w l => w ^^^ (blk j m l (j.q - 1))[k]) 0 := by
  have hzero : Block.zero[k] = 0 := Vector.getElem_replicate k.isLt
  rw [lastColumn, Block.foldl_xor_getElem, hzero]

theorem effectA2Final_defined {s : State} (h : s.finalDefined = true) : effectA2Final s =
    { s with
      run := { s.run with st := .finalized }
      dmem := s.dmem.write s.a2.tagAddr.toNat
        (hPrime s.a2.taglen.toNat (lastColumn s.job s.dmem).bytes) } := by
  rw [effectA2Final, writeTag_defined h]

/-- Settles O37: the effect is one write, of H' of the last column's XOR, which is as long as the tag. -/
theorem a2FinalWritesTheTag : Obligations.A2FinalWritesTheTag := by
  intro s hst hwf hmatrix htag
  have hdef := (State.namesMatrix_of_matrixOk hmatrix).finalDefined ((s.valid_iff_fits _ _).mpr htag)
  obtain ⟨hread, hframe⟩ := Memory.write_read_and_frame hwf s.a2.tagAddr.toNat
    (hPrime_length s.a2.taglen.toNat (lastColumn s.job s.dmem).bytes)
  refine ⟨(effectA2Final s).complete, lastColumn s.job s.dmem, exec_of_check_none (if_pos hst), ?_⟩
  rw [effectA2Final_defined hdef]
  exact ⟨rfl, lastColumn_getElem s.job s.dmem, hread, hframe⟩

end Sys2Proof.Machine
end

section
/-! SUPPORT. A2.SLICE: how it advances the run, the bytes it leaves alone, that the order of the lanes does not
matter, and the fill equation of every block it computes. -/

namespace Sys2Proof.Machine
open Sys2Proof.Claims

/-! ## The order of the lanes -/

/-- Settles O59: the segments of a slice commute. -/
theorem laneOrderDoesNotMatter : Obligations.LaneOrderDoesNotMatter := fun _ _ _ _ _ hj hs hwf hperm =>
  fillSlice_perm hj hs hperm (fun _ hl => List.mem_range.mp (hperm.subset hl)) hwf

/-! ## The progress and the frame of a slice -/

theorem checkA2Slice_of_st {s : State} (h : s.run.st = .initFilled ∨ s.run.st = .filling) :
    checkA2Slice s = none := if_pos (by simpa using h)

theorem segStart_toNat (r s : U32) : segStart r.toNat s.toNat = if r = 0 ∧ s = 0 then 2 else 0 := by
  simp only [segStart, ← BitVec.toNat_inj, BitVec.ofNat_eq_ofNat, BitVec.toNat_ofNat, Nat.zero_mod]

/-- A slice leaves every byte outside the columns it fills, after a race too (R208). -/
theorem byte_effectA2Slice_outside {s : State} (h : s.dmem.wf) {x : Nat}
    (hx : ∀ l < s.job.p,
      x < blkAddr s.job l (s.run.slice.toNat * s.job.seg + segStart s.run.pass.toNat s.run.slice.toNat) ∨
        blkAddr s.job l (s.run.slice.toNat * s.job.seg + s.job.seg) ≤ x) :
    (effectA2Slice s).dmem.byte x = s.dmem.byte x := by
  show (fillCurrentSlice s).dmem.byte x = _
  unfold fillCurrentSlice
  split
  · exact byte_fillSlice_outside _ h fun l hl => blkAddr_add .. ▸ hx l (mem_laneOrder hl)
  · refine State.byte_openBytes_outside h (Bool.eq_false_iff.mpr fun hin => ?_)
    obtain ⟨l, hl, hlo, hhi⟩ := (inRegions_laneColumns ..).mp hin
    have hx := hx l hl
    simp only [blkAddr_add] at hlo hhi hx
    omega

/-- Settles O35: the run registers are `afterSlice`, and the memory keeps its bytes outside the slice's columns
whether the registers name a matrix or not. -/
theorem a2SliceAdvancesTheRun : Obligations.A2SliceAdvancesTheRun := by
  intro s hst hwf
  refine ⟨(effectA2Slice s).complete, exec_of_check_none (checkA2Slice_of_st hst), ?_, fun hm hs => ?_,
    fun x hx => byte_effectA2Slice_outside hwf ?_⟩
  · rw [effectA2Slice_fixed]
    simp only [effectA2Slice, RunCtx.afterSlice_pass, RunCtx.afterSlice_slice, RunCtx.afterSlice_st]
    rfl
  · show (fillCurrentSlice s).draws = s.draws
    rw [fillCurrentSlice_defined ((State.namesMatrix_of_matrixOk hm).sliceDefined hs)]
  · rw [segStart_toNat]
    exact hx

end Sys2Proof.Machine
end

section
/-! SUPPORT. The fill equation: every block a slice computes is G of its predecessor and its reference as they
stand when the slice is done, since FillSegment changes neither after it has read them, and the segment of the
block's own lane may be taken last. -/

namespace Sys2Proof.Machine
open Sys2Proof.Claims

/-! ## The address generator of a segment -/

/-- The generator that holds address block `k` (R251). -/
def addrGenAt (j : Job) (r l s k : Nat) : AddrGen :=
  { ctr := BitVec.ofNat 64 k, z := addrBlock j r l s (BitVec.ofNat 64 k) }

theorem addrAdvance_of_ctr {j : Job} {r l s k : Nat} {g : AddrGen} (h : g.ctr = BitVec.ofNat 64 k) :
    addrAdvance j r l s g = addrGenAt j r l s (k + 1) := by
  rw [addrAdvance, h, addrGenAt, BitVec.ofNat_add]
  rfl

/-- From the segment's first index up to index `i` the generator has come to address block `i / 128 + 1`. -/
theorem addrNext_foldl (j : Job) (r l s n : Nat) :
    (List.range' (segStart r s) (n + 1)).foldl (fun g i => addrNext j r l s i g)
      (addrStart j r l s (segStart r s)) = addrGenAt j r l s ((segStart r s + n) / 128 + 1) := by
  induction n with
  | zero =>
    have hstart : segStart r s = 0 ∨ segStart r s = 2 := by unfold segStart; split <;> simp
    rcases hstart with h | h <;> rw [h] <;> exact addrAdvance_of_ctr (k := 0) rfl
  | succ n ih =>
    rw [List.range'_concat, List.foldl_append, ih, List.foldl_cons, List.foldl_nil, addrNext, Nat.one_mul]
    split
    · rw [addrAdvance_of_ctr rfl]
      congr 1
      omega
    · congr 1
      omega

/-! ## The iterations of a segment -/

/-- The generator and DMEM after the first `k` iterations of FillSegment (R200). -/
def segmentState (j : Job) (r s : Nat) (m : Memory) (l k : Nat) : AddrGen × Memory :=
  (List.range' (segStart r s) k).foldl (fillStep j r s l) (addrStart j r l s (segStart r s), m)

theorem segmentState_succ (j : Job) (r s : Nat) (m : Memory) (l k : Nat) :
    segmentState j r s m l (k + 1) = fillStep j r s l (segmentState j r s m l k) (segStart r s + k) := by
  rw [segmentState, List.range'_concat, List.foldl_append, Nat.one_mul]
  rfl

theorem segmentState_wf {j : Job} {r s : Nat} {m : Memory} (h : m.wf) (l k : Nat) :
    (segmentState j r s m l k).2.wf := fillStep_foldl_wf _ h

theorem fillSegment_eq_segmentState (j : Job) (r s : Nat) (m : Memory) (l : Nat) :
    fillSegment j r s m l = (segmentState j r s m l (segmentBlocks j r s)).2 := rfl

/-- With data-independent addressing the iterations drive the generator and nothing else does. -/
theorem segmentState_gen {j : Job} {r s : Nat} (hdi : dataIndependent j.y r s = true) (m : Memory)
    (l k : Nat) : (segmentState j r s m l k).1 =
      (List.range' (segStart r s) k).foldl (fun g i => addrNext j r l s i g)
        (addrStart j r l s (segStart r s)) := by
  induction k with
  | zero => rfl
  | succ k ih =>
    rw [segmentState_succ, List.range'_concat, List.foldl_append, ← ih, Nat.one_mul, fillStep, if_pos hdi]
    rfl

/-- The selector word of an iteration is the one of its position. -/
theorem selector_segmentState (j : Job) (r s : Nat) (m m' : Memory) (l k : Nat) :
    selector j m' r s l (segStart r s + k) (segmentState j r s m l (k + 1)).1 =
      selectorWord j m' r s l (segStart r s + k) := by
  unfold selector selectorWord
  split
  · rename_i hdi
    rw [segmentState_gen hdi, addrNext_foldl]
    rfl
  · rfl

/-- The block one position gets: G of its predecessor and its reference in `m`, XORed into `old` on a later
pass (R200, R203). -/
def fillValue (j : Job) (old : Block) (m : Memory) (r s l i : Nat) (w : Word) : Block :=
  let rl := refLane j.p r s l (selJ2 w)
  let rc := refCol j.q j.seg r s i (selJ1 w) (rl = l)
  let n := blockG (blk j m l (prevCol j.q (s * j.seg + i))) (blk j m rl rc)
  if r = 0 then n else old.xor n

/-- What an iteration stores. -/
theorem segmentState_succ_dmem (j : Job) (r s : Nat) (m : Memory) (l k : Nat) :
    (segmentState j r s m l (k + 1)).2 =
      let m' := (segmentState j r s m l k).2
      let i := segStart r s + k
      m'.setBlock (blkAddr j l (s * j.seg + i))
        (fillValue j (blk j m' l (s * j.seg + i)) m' r s l i (selectorWord j m' r s l i)) := by
  have hselector := selector_segmentState j r s m (segmentState j r s m l k).2 l k
  simp only [← hselector, segmentState_succ]
  rfl

/-! ## What the iterations leave alone -/

/-- Two blocks of the matrix are the same or apart. -/
theorem blkAddr_apart (j : Job) {l l' c c' : Nat} (hc : c < j.q) (hc' : c' < j.q)
    (h : l ≠ l' ∨ c ≠ c') :
    blkAddr j l c + 1024 ≤ blkAddr j l' c' ∨ blkAddr j l' c' + 1024 ≤ blkAddr j l c := by
  by_cases hl : l = l'
  · subst hl
    simp only [blkAddr]
    omega
  · have := blkAddr_lanes_apart j hl (n := 1) (n' := 1) hc hc'
    omega

/-- The iterations from `k` to `k'` leave every block but their own as it was. -/
theorem blk_segmentState {j : Job} (hj : geometry j) {r s : Nat} (hs : s ≤ 3) {m : Memory} (h : m.wf)
    {l k k' : Nat} (hk : k ≤ k') (hk' : k' ≤ segmentBlocks j r s) {l₁ c₁ : Nat} (hc₁ : c₁ < j.q)
    (hne : l₁ ≠ l ∨ ¬(s * j.seg + segStart r s + k ≤ c₁ ∧ c₁ < s * j.seg + segStart r s + k')) :
    blk j (segmentState j r s m l k').2 l₁ c₁ = blk j (segmentState j r s m l k).2 l₁ c₁ := by
  induction k', hk using Nat.le_induction with
  | base => rfl
  | succ k' hkk ih =>
    rw [← ih (by omega) (by omega), segmentState_succ_dmem]
    have hfit := segmentBlocks_fit hj (r := r) hs
    exact Memory.block_setBlock_disjoint (segmentState_wf h l k') _
      (blkAddr_apart j hc₁ (by omega) (by omega))

/-! ## What an iteration reads -/

/-- A reference to the same lane is neither the block itself nor a later one of the segment (R255). -/
theorem refCol_same_lane {seg r s i : Nat} (j1 : Nat) (hseg : 2 ≤ seg) (hs : s ≤ 3) (hi : i < seg)
    (h0 : r = 0 ∧ s = 0 → 2 ≤ i) :
    ¬(s * seg + i ≤ refCol (4 * seg) seg r s i j1 true ∧
      refCol (4 * seg) seg r s i j1 true < s * seg + seg) := by
  have harea : 1 ≤ refArea (4 * seg) seg r s i true := refArea_pos hseg h0
  have hz := remapJ1_lt harea j1
  rw [refCol_eq harea (by omega)]
  generalize remapJ1 (refArea (4 * seg) seg r s i true) j1 = z at hz
  have hm := mod_lane (q := 4 * seg) (y := areaStart seg r s + z)
  simp only [refArea, areaStart, if_true] at hz hm ⊢
  obtain rfl | rfl | rfl | rfl : s = 0 ∨ s = 1 ∨ s = 2 ∨ s = 3 := by omega
  all_goals by_cases hr : r = 0 <;> simp [hr] at hz hm h0 ⊢ <;> omega

/-- Two memories that are alike but for the blocks of lane `l` from column `c` to the end of the segment. -/
def sameBehind (j : Job) (s l c : Nat) (m m' : Memory) : Prop :=
  ∀ l₁ c₁, c₁ < j.q → (l₁ ≠ l ∨ ¬(c ≤ c₁ ∧ c₁ < s * j.seg + j.seg)) → blk j m l₁ c₁ = blk j m' l₁ c₁

/-- The predecessor is a block the segment has left behind. -/
theorem blk_prevCol_sameBehind {j : Job} (hj : geometry j) {s l i : Nat} (hs : s ≤ 3) (hi : i < j.seg)
    {m m' : Memory} (hm : sameBehind j s l (s * j.seg + i) m m') :
    blk j m l (prevCol j.q (s * j.seg + i)) = blk j m' l (prevCol j.q (s * j.seg + i)) := by
  obtain ⟨hseg, hq⟩ := hj
  have hfit := segment_fits hq hs
  refine hm _ _ (prevCol_lt (by omega)) (.inr ?_)
  unfold prevCol
  split
  · have : s * j.seg = 0 := by omega
    omega
  · omega

theorem selectorWord_sameBehind {j : Job} (hj : geometry j) {r s l i : Nat} (hs : s ≤ 3) (hi : i < j.seg)
    {m m' : Memory} (hm : sameBehind j s l (s * j.seg + i) m m') :
    selectorWord j m r s l i = selectorWord j m' r s l i := by
  unfold selectorWord
  rw [blk_prevCol_sameBehind hj hs hi hm]

/-- An iteration reads nothing that it or a later one of its segment writes. -/
theorem fillValue_sameBehind {j : Job} (hj : geometry j) {r s l i : Nat} (hs : s ≤ 3) (hi : i < j.seg)
    (h0 : r = 0 ∧ s = 0 → 2 ≤ i) {m m' : Memory} (hm : sameBehind j s l (s * j.seg + i) m m') (old : Block)
    (w : Word) : fillValue j old m r s l i w = fillValue j old m' r s l i w := by
  obtain ⟨hseg, hq⟩ := hj
  have href (l₁ : Nat) : blk j m l₁ (refCol j.q j.seg r s i (selJ1 w) (l₁ = l)) =
      blk j m' l₁ (refCol j.q j.seg r s i (selJ1 w) (l₁ = l)) := by
    rw [hq]
    refine hm _ _ ?_ ?_
    · rw [hq]
      exact refCol_lt (refArea_pos hseg h0) (by omega) _
    · by_cases hl : l₁ = l
      · rw [decide_eq_true hl]
        exact .inr (refCol_same_lane _ hseg hs hi h0)
      · exact .inl hl
  simp only [fillValue, blk_prevCol_sameBehind ⟨hseg, hq⟩ hs hi hm, href]

/-! ## The fill equation -/

/-- Block `i` of the segment is what FillSegment gives it, read in the memory the whole segment leaves. -/
theorem fillSegment_fillEquation {j : Job} (hj : geometry j) {r s : Nat} (hs : s ≤ 3) {m : Memory} (h : m.wf)
    (l : Nat) {i : Nat} (hi : i < j.seg) (h0 : r = 0 ∧ s = 0 → 2 ≤ i) :
    let m' := fillSegment j r s m l
    blk j m' l (s * j.seg + i) =
      fillValue j (blk j m l (s * j.seg + i)) m' r s l i (selectorWord j m' r s l i) := by
  rw [fillSegment_eq_segmentState]
  intro m'
  have hstart : segStart r s ≤ i := by
    unfold segStart
    split
    · exact h0 ‹_›
    · exact Nat.zero_le i
  obtain ⟨k, rfl⟩ := Nat.exists_eq_add_of_le hstart
  have hfit := segment_fits hj.2 hs
  have hblocks : segmentBlocks j r s = j.seg - segStart r s := rfl
  let mk := (segmentState j r s m l k).2
  have hbehind : sameBehind j s l (s * j.seg + (segStart r s + k)) mk m' := fun l₁ c₁ hc₁ hne =>
    (blk_segmentState hj hs h (k := k) (by omega) le_rfl hc₁ (by omega)).symm
  have hold : blk j mk l (s * j.seg + (segStart r s + k)) = blk j m l (s * j.seg + (segStart r s + k)) :=
    blk_segmentState hj hs h (Nat.zero_le k) (by omega) (by omega) (by omega)
  calc blk j m' l (s * j.seg + (segStart r s + k))
    _ = blk j (segmentState j r s m l (k + 1)).2 l (s * j.seg + (segStart r s + k)) :=
      blk_segmentState hj hs h (by omega) le_rfl (by omega) (by omega)
    _ = fillValue j (blk j mk l (s * j.seg + (segStart r s + k))) mk r s l (segStart r s + k)
        (selectorWord j mk r s l (segStart r s + k)) := by
      rw [segmentState_succ_dmem]
      exact Memory.block_setBlock_same (segmentState_wf h l k) _ _
    _ = _ := by
      rw [hold, fillValue_sameBehind hj hs hi h0 hbehind, selectorWord_sameBehind hj hs hi hbehind]

/-- The segments of other lanes leave the columns of lane `l` alone. -/
theorem blk_fillSlice_other {j : Job} (hj : geometry j) {r s : Nat} (hs : s ≤ 3) {order : List Nat} {l : Nat}
    (hl : l ∉ order) {m : Memory} (h : m.wf) {c : Nat} (hc : c < j.q) :
    blk j (fillSlice j r s order m) l c = blk j m l c := by
  refine Memory.block_congr fun x hlo hhi => byte_fillSlice_outside order h fun l' hl' => ?_
  have hne : l' ≠ l := fun e => hl (e ▸ hl')
  have hapart := blkAddr_lanes_apart j hne (segment_fits hj.2 hs) (c' := c) (n' := 1) hc
  rw [blkAddr_add]
  omega

/-- The segment of any lane may be taken last. -/
theorem fillSlice_eq_last {j : Job} (hj : geometry j) {r s : Nat} (hs : s ≤ 3) {order : List Nat}
    (horder : order.Perm (List.range j.p)) {l : Nat} (hl : l < j.p) {m : Memory} (h : m.wf) :
    fillSlice j r s order m =
      fillSegment j r s (fillSlice j r s ((List.range j.p).erase l) m) l := by
  have hlast : order.Perm ((List.range j.p).erase l ++ [l]) :=
    (horder.trans (List.perm_cons_erase (List.mem_range.mpr hl))).trans
      (List.perm_append_singleton l _).symm
  rw [fillSlice_perm hj hs hlast (fun _ hk => List.mem_range.mp (horder.subset hk)) h]
  exact List.foldl_append ..

/-- Every block of a slice is what FillSegment gives it, read in the memory the whole slice leaves. -/
theorem fillSlice_fillEquation {j : Job} (hj : geometry j) {r s : Nat} (hs : s ≤ 3) {order : List Nat}
    (horder : order.Perm (List.range j.p)) {m : Memory} (h : m.wf) {l i : Nat} (hl : l < j.p)
    (hi : i < j.seg) (h0 : r = 0 ∧ s = 0 → 2 ≤ i) :
    let m' := fillSlice j r s order m
    blk j m' l (s * j.seg + i) =
      fillValue j (blk j m l (s * j.seg + i)) m' r s l i (selectorWord j m' r s l i) := by
  have hfit := segment_fits hj.2 hs
  rw [fillSlice_eq_last hj hs horder hl h,
    ← blk_fillSlice_other hj hs (r := r) List.nodup_range.not_mem_erase h (c := s * j.seg + i) (by omega)]
  exact fillSegment_fillEquation hj hs (fillSlice_wf _ h) l hi h0

/-- Settles O36: the workers fill the lanes in some order, and the equation holds for every order. -/
theorem a2SliceMeetsTheFillEquation : Obligations.A2SliceMeetsTheFillEquation := by
  intro s hst hwf hmatrix hslice hworkers
  have hdef := (State.namesMatrix_of_matrixOk hmatrix).sliceDefined hslice
  refine ⟨(effectA2Slice s).complete, exec_of_check_none (checkA2Slice_of_st hst), fun l i hl hi h0 => ?_⟩
  rw [effectA2Slice, fillCurrentSlice_defined hdef]
  exact fillSlice_fillEquation hmatrix.1 hslice (laneOrder_perm hworkers s.job.p) hwf hl hi h0

end Sys2Proof.Machine
end

section
/-! SUPPORT. A2.RUN: each command of the stepwise run passes its check and does to the completed machine what the
part of A2.RUN does, so the two end alike. -/

namespace Sys2Proof.Machine
open Sys2Proof.Claims

/-! ## Commands one after the other -/

@[simp] theorem State.complete_complete (s : State) : s.complete.complete = s.complete := rfl

/-- A command on a machine that has just completed one does what its effect does without that completion. -/
theorem exec_complete {i : Instr} {s : State} (hc : checkOf i s.complete = none)
    (he : effectOf i s.complete = (effectOf i s).complete) :
    exec i s.complete = .next (effectOf i s).complete := by
  rw [exec_of_check_none hc, he, State.complete_complete]

theorem slices_succ {n : Nat} {s t : State} (h : exec .a2Slice s = .next t) :
    slices (n + 1) s = slices n t := by
  rw [slices, h]

/-- `n` slices from slice `k` of the run on, each of which finds the run not yet filled. -/
theorem slices_complete {n k : Nat} {s : State} (hp : s.run.pass.toNat = k / 4) (hs : s.run.slice.toNat = k % 4)
    (hst : 1 ≤ n → s.run.st = .initFilled ∨ s.run.st = .filling) (hn : k + n ≤ 4 * s.a2.t.toNat) :
    slices n s.complete = .next (fillSlices n s).complete := by
  induction n generalizing k s with
  | zero => rfl
  | succ n ih =>
    obtain ⟨hp', hs', hst'⟩ := RunCtx.afterSlice_count (t := s.a2.t) hp hs (by omega)
    have hslice : exec .a2Slice s.complete = .next (effectA2Slice s).complete :=
      exec_complete (checkA2Slice_of_st (hst (by omega))) (effectA2Slice_complete s)
    have ha2 : (effectA2Slice s).a2 = s.a2 := effectOf_a2 .a2Slice s
    rw [slices_succ hslice]
    refine ih hp' hs' (fun hpos => .inr ?_) (by rw [ha2]; omega)
    exact hst'.trans (if_neg (by omega))

theorem stepwiseRun_of_next {s s1 s2 s3 : State} (h1 : exec .a2H0 s = .next s1) (h2 : exec .a2Init s1 = .next s2)
    (h3 : slices (4 * s.a2.t.toNat) s2 = .next s3) : stepwiseRun s = exec .a2Final s3 := by
  simp only [stepwiseRun, h1, h2, h3]

/-! ## A2.RUN -/

/-- The run registers when the slices of A2.RUN are done. -/
theorem fillSlices_of_start {s : State} (h : configOk s) :
    let v := fillSlices (4 * s.a2.t.toNat) (effectA2Init (effectA2H0 s))
    v.run.st = .filled ∧ v.run.pass = s.a2.t ∧ v.run.slice = 0 := by
  have ha2 : (effectA2Init (effectA2H0 s)).a2 = s.a2 := effectOf_a2 .a2Init _
  obtain ⟨hpass, hslice, hst⟩ := fillSlices_count (n := 4 * s.a2.t.toNat) (k := 0)
    (s := effectA2Init (effectA2H0 s)) rfl rfl (by rw [ha2]; omega)
  rw [ha2, Nat.zero_add] at hst
  have ht := h.1
  exact ⟨(hst (by omega)).trans (if_pos rfl), BitVec.eq_of_toNat_eq (hpass.trans (by omega)),
    BitVec.eq_of_toNat_eq (hslice.trans (by simp))⟩

/-- The sizes A2.H0 derives stand through the run. -/
theorem effectA2Run_sized {s : State} (h : configOk s) : sized (effectA2Run s) := by
  have hsized := effectA2H0_sized h
  rw [effectA2Run, effectA2Final_fixed, fillSlices_fixed, effectA2Init_fixed]
  exact hsized

/-- The commands of R190 from an accepted start end as A2.RUN ends (R210). -/
theorem stepwiseRun_eq {s : State} (hidle : s.run.st.active = false) (h : configOk s) :
    stepwiseRun s = .next (effectA2Run s).complete := by
  have hH0 : exec .a2H0 s = .next (effectA2H0 s).complete :=
    exec_of_check_none (checkStart_of_configOk hidle h)
  have hInit : exec .a2Init (effectA2H0 s).complete = .next (effectA2Init (effectA2H0 s)).complete :=
    exec_complete rfl (effectA2Init_complete _)
  have ha2 : (effectA2Init (effectA2H0 s)).a2 = s.a2 := effectOf_a2 .a2Init _
  have hSlices := slices_complete (n := 4 * s.a2.t.toNat) (k := 0) (s := effectA2Init (effectA2H0 s)) rfl rfl
    (fun _ => .inl rfl) (by rw [ha2]; omega)
  obtain ⟨hfilled, -⟩ := fillSlices_of_start h
  exact (stepwiseRun_of_next hH0 hInit hSlices).trans
    (exec_complete (if_pos hfilled) (effectA2Final_complete _))

/-- Settles O38: A2.RUN's effect is the stepwise run's, and where its checks pass no byte is left open. -/
theorem a2RunIsTheStepwiseRun : Obligations.A2RunIsTheStepwiseRun := by
  intro s hidle hconfig
  have hc := checkStart_of_configOk hidle hconfig
  obtain ⟨-, hpass, hslice⟩ := fillSlices_of_start hconfig
  obtain ⟨-, hdraws⟩ := effectA2Run_defined (checkParams_of_configOk hconfig)
  refine ⟨(effectA2Run s).complete, exec_of_check_none hc, stepwiseRun_eq hidle hconfig, ?_, rfl, hpass, hslice,
    effectA2Run_sized hconfig⟩
  have hfixed := effectA2Run_fixed s
  rw [hdraws] at hfixed
  rw [hfixed]
  rfl

end Sys2Proof.Machine
end

section
/-! SUPPORT. The addressing commands: the mode predicate, the address block of a position and its closed form
along a segment, and the reference of a position on integers and as a block that may be used (R255). -/

namespace Sys2Proof.Machine
open Sys2Proof.Claims

/-! ## A2.MODE -/

theorem checkA2Mode_of_le {s : State} (hy : s.argLo 0 ≤ 2) (hs : s.argLo 2 ≤ 3) : checkA2Mode s = none := by
  simp [checkA2Mode, hy, hs]

theorem dataIndependent_eq_true_iff (y r s : Nat) :
    dataIndependent y r s = true ↔ y = 1 ∨ (y = 2 ∧ r = 0 ∧ s < 2) := by
  simp [dataIndependent, and_assoc]

/-- The mode predicate as the word A2.MODE gives. -/
theorem ofNat_dataIndependent (y r s : Nat) : BitVec.ofNat 64 (dataIndependent y r s).toNat =
    if y = 1 ∨ (y = 2 ∧ r = 0 ∧ s < 2) then 1 else 0 := by
  rw [← if_congr (dataIndependent_eq_true_iff y r s) rfl rfl]
  cases dataIndependent y r s <;> rfl

/-- Settles O41: the operands pass the check, and RES0 is the predicate as a word. -/
theorem a2ModeGivesThePredicate : Obligations.A2ModeGivesThePredicate := by
  intro s hy hs
  rw [exec_of_check_none (i := .a2Mode) (checkA2Mode_of_le hy hs), ← ofNat_dataIndependent]
  rfl

/-! ## A2.ADDR and the address generator -/

theorem checkA2Addr_of_fits {s : State} (hst : s.run.st ≠ .unconfigured) (hr : s.argLo 0 < s.a2.t.toNat)
    (hl : s.argLo 1 < s.a2.p.toNat) (hs : s.argLo 2 ≤ 3) (hz : fits s (s.argLo 4) 1024) :
    checkA2Addr s = none := by
  rw [checkA2Addr_eq hst, if_neg (by omega), if_pos ((s.valid_iff_fits _ _).mpr hz)]

theorem addrInput_eq_zero (j : Job) (r l s : Nat) (ctr : Word) {k : Fin 128} (hk : 7 ≤ k.val) :
    (addrInput j r l s ctr)[k] = 0 := by
  simp only [addrInput, Fin.getElem_fin, Vector.getElem_ofFn]
  exact List.getD_eq_default _ _ hk

/-- Settles O42: the position passes the checks, and the effect is one block stored, made of the input block
whose words the generator lists. -/
theorem a2AddrWritesTheAddressBlock : Obligations.A2AddrWritesTheAddressBlock := by
  intro s hst hr hl hs hz hwf
  refine ⟨_, addrInput s.job (s.argLo 0) (s.argLo 1) (s.argLo 2) (s.arg 3),
    exec_of_check_none (checkA2Addr_of_fits hst hr hl hs hz), rfl, ?_, ?_, ?_, ?_, ?_, ?_, ?_,
    fun k hk => addrInput_eq_zero _ _ _ _ _ hk, Memory.block_setBlock_same hwf _ _,
    fun _ => Memory.byte_setBlock_outside hwf _⟩
  all_goals simp [addrInput, State.job]

/-- Settles O57: after index i the generator holds address block floor(i / 128) + 1. -/
theorem addressGeneratorClosedForm : Obligations.AddressGeneratorClosedForm := by
  intro j r s l n start g i _
  have hg : g = addrGenAt j r l s (i / 128 + 1) := addrNext_foldl j r l s n
  rw [hg]
  rfl

/-! ## The reference on integers -/

/-- The area of R246 as the integer it is. -/
def areaInt (q seg : Int) (r s i : Nat) (same : Prop) [Decidable same] : Int :=
  let last : Int := if i = 0 then 1 else 0
  if r = 0 then
    if s = 0 then i - 1
    else if same then s * seg + i - 1 else s * seg - last
  else if same then q - seg + i - 1 else q - seg - last

/-- RefArea is that integer, or 0 where it is below 0. -/
theorem refArea_eq_toNat (q seg r s i : Nat) (same : Prop) [Decidable same] :
    refArea q seg r s i (decide same) = (areaInt q seg r s i same).toNat := by
  simp only [refArea, areaInt, decide_eq_true_iff, ← Int.natCast_mul]
  split_ifs <;> omega

/-- The remap never takes more than the area holds, so R247's difference is one of integers. -/
theorem remapJ1_cast {area j1 : Nat} (ha : 1 ≤ area) (hj : j1 < 2 ^ 32) :
    (remapJ1 area j1 : Int) = area - 1 - area * ((j1 : Int) * j1 / 2 ^ 32) / 2 ^ 32 := by
  have hx : j1 * j1 / 2 ^ 32 < 2 ^ 32 := by
    rw [Nat.div_lt_iff_lt_mul (by decide)]
    exact Nat.mul_lt_mul'' hj hj
  have hy : area * (j1 * j1 / 2 ^ 32) / 2 ^ 32 < area := by
    rw [Nat.div_lt_iff_lt_mul (by decide)]
    exact Nat.mul_lt_mul_of_pos_left hx ha
  rw [remapJ1, Nat.cast_sub (by omega), Nat.cast_sub ha]
  push_cast
  rfl

theorem areaStart_cast (seg r s : Nat) :
    (areaStart seg r s : Int) = if r = 0 ∨ s = 3 then 0 else ((s : Int) + 1) * seg := by
  unfold areaStart
  split_ifs <;> simp

theorem refArea_pos_of_areaInt {q seg r s i : Nat} {same : Prop} [Decidable same]
    (h : 0 < areaInt q seg r s i same) : 1 ≤ refArea q seg r s i (decide same) := by
  rw [refArea_eq_toNat]; omega

/-- The reference column on integers (R249), wherever the area is above 0 and a lane has blocks. -/
theorem refCol_cast {q seg r s i j1 : Nat} {same : Prop} [Decidable same] (hj : j1 < 2 ^ 32)
    (ha : 0 < areaInt q seg r s i same) (hq : 0 < q) :
    (refCol q seg r s i j1 (decide same) : Int) =
      ((if r = 0 ∨ s = 3 then 0 else ((s : Int) + 1) * seg) +
        (areaInt q seg r s i same - 1 -
          areaInt q seg r s i same * ((j1 : Int) * j1 / 2 ^ 32) / 2 ^ 32)) % q := by
  have hpos := refArea_pos_of_areaInt ha
  have hcast : (refArea q seg r s i (decide same) : Int) = areaInt q seg r s i same := by
    rw [refArea_eq_toNat, Int.toNat_of_nonneg ha.le]
  rw [refCol_eq hpos hq, Int.natCast_mod, Int.natCast_add, areaStart_cast, remapJ1_cast hpos hj, hcast]

/-! ## A2.INDEX -/

theorem checkA2Index_of_position {s : State} (hst : s.run.st ≠ .unconfigured) (hr : s.argLo 1 < s.a2.t.toNat)
    (hs : s.argLo 2 ≤ 3) (hl : s.argLo 3 < s.a2.p.toNat) (hi : s.argLo 4 < s.run.seglen.toNat)
    (hfirst : ¬(s.argLo 1 = 0 ∧ s.argLo 2 = 0 ∧ s.argLo 4 < 2)) : checkA2Index s = none := by
  rw [checkA2Index_eq hst, if_neg (by omega)]

theorem selJ1_eq (w : Word) : selJ1 w = w.toNat % 2 ^ 32 := by
  simp [selJ1, BitVec.extractLsb'_toNat]

theorem selJ2_eq (w : Word) : selJ2 w = w.toNat / 2 ^ 32 := by
  have hw := w.isLt
  rw [selJ2, BitVec.extractLsb'_toNat, Nat.shiftRight_eq_div_pow]
  omega

/-- A result register holds a number below `2 ^ 32` as it is. -/
theorem toNat_ofNat_of_lt {n : Nat} (h : n < 2 ^ 32) : (BitVec.ofNat 64 n).toNat = n := by
  rw [BitVec.toNat_ofNat, Nat.mod_eq_of_lt (by omega)]

/-- The lane `rl` and the column in it that A2.INDEX gives (R254). -/
theorem effectA2Index_results {s : State} {rl : Nat}
    (h : refLane s.a2.p.toNat (s.argLo 1) (s.argLo 2) (s.argLo 3) (selJ2 (s.arg 0)) = rl) :
    (effectA2Index s).res0 = BitVec.ofNat 64 rl ∧
      (effectA2Index s).res1 = BitVec.ofNat 64 (refCol s.run.lanelen.toNat s.run.seglen.toNat (s.argLo 1)
        (s.argLo 2) (s.argLo 4) (selJ1 (s.arg 0)) (decide (rl = s.argLo 3))) := by
  subst h
  exact ⟨rfl, rfl⟩

/-- Settles O43: the position passes the checks; lane and column fit their registers, and the column is the one
computed on integers. -/
theorem a2IndexGivesTheReference : Obligations.A2IndexGivesTheReference := by
  intro s hst hr hs hl hi hfirst
  refine ⟨_, exec_of_check_none (checkA2Index_of_position hst hr hs hl hi hfirst), rfl, ?_⟩
  intro q seg r sl l i j1 rl last area start rel
  have hrl : refLane s.a2.p.toNat r sl l (selJ2 (s.arg 0)) = rl := by rw [refLane, selJ2_eq]
  obtain ⟨hres0, hres1⟩ := effectA2Index_results hrl
  refine ⟨?lane, fun ha hq => ?column⟩
  case lane =>
    have hlt : rl < s.a2.p.toNat := hrl ▸ refLane_lt hl r sl _
    exact (congrArg BitVec.toNat hres0).trans (toNat_ofNat_of_lt (hlt.trans s.a2.p.isLt))
  case column =>
    have hq' : 0 < s.run.lanelen.toNat := Int.natCast_pos.mp hq
    have hlt := refCol_lt (refArea_pos_of_areaInt (same := rl = l) ha) hq' (selJ1 (s.arg 0))
    have hcol := refCol_cast (same := rl = l) (selJ1_lt (s.arg 0)) ha hq'
    rw [← toNat_ofNat_of_lt (hlt.trans s.run.lanelen.isLt), ← hres1, selJ1_eq] at hcol
    exact hcol

/-! ## Every reference is usable -/

/-- On pass 0 the reference area starts at column 0 (R248), so the column is below the area's size. -/
theorem refCol_first_pass_lt {q seg s i : Nat} {same : Bool} (ha : 1 ≤ refArea q seg 0 s i same) (hq : 0 < q)
    (j1 : Nat) : refCol q seg 0 s i j1 same < refArea q seg 0 s i same := by
  rw [refCol_eq ha hq, areaStart, if_pos (.inl rfl), Nat.zero_add]
  exact (Nat.mod_le _ _).trans_lt (remapJ1_lt ha j1)

theorem refArea_first_pass_same (q seg s i : Nat) : refArea q seg 0 s i true = s * seg + i - 1 := by
  by_cases hs : s = 0 <;> simp [refArea, hs]

theorem refArea_first_pass_other {s : Nat} (hs : s ≠ 0) (q seg i : Nat) :
    refArea q seg 0 s i false = s * seg - (if i = 0 then 1 else 0) := by
  simp [refArea, hs]

/-- In its own lane a block refers to one before its predecessor, or to one after the current segment that is not
its predecessor around the end of the lane either (R255). -/
theorem refCol_same_lane_range {seg r s i : Nat} (j1 : Nat) (hseg : 2 ≤ seg) (hs : s ≤ 3)
    (hi : i < seg) (h0 : r = 0 ∧ s = 0 → 2 ≤ i) :
    let rc := refCol (4 * seg) seg r s i j1 true
    rc + 1 < s * seg + i ∨ (s * seg + seg ≤ rc ∧ rc + 1 < 4 * seg + (s * seg + i)) := by
  intro rc
  have ha : 1 ≤ refArea (4 * seg) seg r s i true := refArea_pos hseg h0
  by_cases hr : r = 0
  · subst hr
    have hlt := refCol_first_pass_lt ha (by omega) j1
    rw [refArea_first_pass_same] at hlt
    omega
  · have hz := remapJ1_lt ha j1
    have hrc : rc = _ := refCol_eq ha (by omega) j1
    generalize remapJ1 (refArea (4 * seg) seg r s i true) j1 = z at hz hrc
    simp only [refArea, areaStart, hr, false_or, if_false, if_true] at hz hrc
    by_cases h3 : s = 3
    · subst h3
      rw [if_pos rfl, Nat.zero_add] at hrc
      have := Nat.mod_le z (4 * seg)
      omega
    · have hseg' : s * seg ≤ 2 * seg := Nat.mul_le_mul_right _ (by omega)
      rw [if_neg h3, Nat.succ_mul] at hrc
      have hm := mod_lane (q := 4 * seg) (y := s * seg + seg + z) (by omega)
      omega

/-- Settles O58: the area is not empty; in its own lane the reference has `refCol_same_lane_range`, in another it
is outside the segment, and on pass 0 it is below the size of the area. -/
theorem referenceIsAlwaysUsable : Obligations.ReferenceIsAlwaysUsable := by
  intro q seg r s i j1 same hseg hq hs hi _ h0 c rc
  subst hq
  have ha : 1 ≤ refArea (4 * seg) seg r s i same := refArea_pos hseg fun h => (h0 h).1
  refine ⟨ha, refCol_lt ha (by omega) j1, ?sameLane, ?otherLane, ?firstPass⟩
  case sameLane =>
    rintro rfl
    have hrange := refCol_same_lane_range j1 hseg hs hi fun h => (h0 h).1
    unfold prevCol
    split <;> omega
  case otherLane =>
    rintro rfl
    exact refCol_other_lane j1 hseg hs fun h => by simpa using (h0 h).2
  case firstPass =>
    rintro rfl
    have hlt : rc < _ := refCol_first_pass_lt ha (by omega) j1
    cases same with
    | true =>
      rw [refArea_first_pass_same] at hlt
      exact ⟨by omega, by simp⟩
    | false =>
      have hs0 : s ≠ 0 := fun h => by simpa using (h0 ⟨rfl, h⟩).2
      rw [refArea_first_pass_other hs0] at hlt
      split at hlt <;> exact ⟨by omega, fun _ => ⟨by omega, fun _ => by omega⟩⟩

end Sys2Proof.Machine
end

section
/-! SUPPORT. How a command ends, whichever it is: its completion (R273, R274), the error causes of the Blake2b
and Blake2b-Long commands (R276, R277), and the step that runs the accepted word (R270). -/

namespace Sys2Proof.Machine
open Sys2Proof.Claims

/-! ## Completion -/

/-- Settles O8: either completion sets DONE and clears BUSY, and no effect writes CTRL or ERRCMD. -/
theorem everyCommandCompletes : Obligations.EveryCommandCompletes := by
  refine ⟨fun i s => ?_, fun s v => Bool.and_false s.irqEn⟩
  obtain ⟨t, hexec⟩ := exec_next i s
  refine ⟨t, hexec, ?_⟩
  rcases exec_cases hexec with ⟨-, rfl⟩ | ⟨e, -, rfl⟩
  · rw [effectOf_fixed]
    exact ⟨rfl, rfl, Bool.and_true s.irqEn, fun _ => ⟨rfl, rfl⟩⟩
  · exact ⟨rfl, rfl, Bool.and_true s.irqEn, nofun⟩

/-- Settles O9: only the error completion sets ERR, and it changes nothing but STATUS and ERRCMD. -/
theorem errorsArePrecise : Obligations.ErrorsArePrecise := by
  intro i s t hexec herr
  rcases exec_cases hexec with ⟨-, rfl⟩ | ⟨e, -, rfl⟩
  · cases herr
  · exact ⟨e, rfl, rfl⟩

/-! ## The error causes of the Blake2b commands -/

theorem badHashLengths_iff {nn kk : Nat} :
    badHashLengths nn kk = true ↔ nn < 1 ∨ nn > 64 ∨ kk > 64 := by
  simp only [badHashLengths, Bool.or_eq_true, decide_eq_true_iff, or_assoc]

theorem checkB2bInit_of_not_fits {nn kk : Nat} {s : State} (hlen : ¬badHashLengths nn kk = true)
    (h : ¬fits s (s.argLo 0) kk) : checkB2bInit nn kk s = some .range := by
  rw [checkB2bInit, if_neg hlen, if_neg ((s.valid_iff_fits _ _).not.mpr h)]

theorem checkB2bHash_of_not_fits {nn kk : Nat} {s : State} (hlen : ¬badHashLengths nn kk = true)
    (h : ¬(fits s (s.argLo 0) (s.argLo 1) ∧ fits s (s.argLo 3) kk ∧ fits s (s.argLo 2) nn)) :
    checkB2bHash nn kk s = some .range := by
  rw [checkB2bHash, if_neg hlen]
  apply if_neg
  simpa only [Bool.and_eq_true, State.valid_iff_fits, and_assoc] using h

theorem checkB2bUpdate_of_not_fits {s : State} (hst : s.hash.st = .absorbing)
    (h : ¬fits s (s.argLo 0) (s.argLo 1)) : checkB2bUpdate s = some .range := by
  rw [checkB2bUpdate, if_neg (not_not_intro hst), if_neg ((s.valid_iff_fits _ _).not.mpr h)]

theorem checkB2bFinal_of_not_fits {s : State} (hst : s.hash.st = .absorbing)
    (h : ¬fits s (s.argLo 2) s.hash.outlen) : checkB2bFinal s = some .range := by
  rw [checkB2bFinal, if_neg (not_not_intro hst), if_neg ((s.valid_iff_fits _ _).not.mpr h)]

theorem checkB2bCompress_of_not_fits {s : State} (h : ¬fits s (s.argLo 0) 128) :
    checkB2bCompress s = some .range := if_neg ((s.valid_iff_fits _ _).not.mpr h)

theorem checkB2bLong_of_not_fits {s : State} (hlen : s.argLo 3 ≠ 0)
    (h : ¬(fits s (s.argLo 0) (s.argLo 1) ∧ fits s (s.argLo 2) (s.argLo 3))) :
    checkB2bLong s = some .range := by
  rw [checkB2bLong, if_neg hlen]
  apply if_neg
  simpa only [Bool.and_eq_true, State.valid_iff_fits] using h

/-- Settles O23: each command's own check, with the lengths or B2BST before the regions. -/
theorem hashCommandErrors : Obligations.HashCommandErrors := by
  intro s nn kk last
  refine ⟨?lengths, ?keyedRange, ?state, ?absorbingRange, ?compress, ?longParam, ?longRange⟩
  case lengths =>
    intro hbad
    have hlen := badHashLengths_iff.mpr hbad
    exact ⟨endsWith_of_check (if_pos hlen), endsWith_of_check (if_pos hlen)⟩
  case keyedRange =>
    intro hgood
    have hlen := badHashLengths_iff.not.mpr hgood
    exact ⟨fun h => endsWith_of_check (checkB2bInit_of_not_fits hlen h),
      fun h => endsWith_of_check (checkB2bHash_of_not_fits hlen h)⟩
  case state => exact fun hst => ⟨endsWith_of_check (if_pos hst), endsWith_of_check (if_pos hst)⟩
  case absorbingRange =>
    exact fun hst => ⟨fun h => endsWith_of_check (checkB2bUpdate_of_not_fits hst h),
      fun h => endsWith_of_check (checkB2bFinal_of_not_fits hst h)⟩
  case compress => exact fun h => endsWith_of_check (checkB2bCompress_of_not_fits h)
  case longParam => exact fun hlen => endsWith_of_check (if_pos hlen)
  case longRange => exact fun hlen h => endsWith_of_check (checkB2bLong_of_not_fits hlen h)

/-! ## The step that runs the accepted word -/

/-- With no race on record the engine's move is the command (R270, R271). -/
theorem engineMove_of_not_raced {s : State} {i : Instr} (hraced : s.raced = false)
    (hd : decode s.cmd = .ok i) : engineMove s = exec i s := by
  simp only [engineMove, hd, hraced, Bool.false_and, Bool.false_eq_true, if_false]

theorem step_of_not_raced {s : State} {i : Instr} (hnext : engineNext s) (hraced : s.raced = false)
    (hd : decode s.cmd = .ok i) : step s = exec i s :=
  (step_of_engineNext hnext).trans (engineMove_of_not_raced hraced hd)

theorem decode_of_decodeTableWord {nbits w : Nat} {i : Instr} (h : decodeTableWord nbits w = some i) :
    decode (BitVec.ofNat 32 (w % 2 ^ nbits)) = .ok i := by
  unfold decodeTableWord at h
  split at h
  · next hd => rwa [Option.some_inj.mp h] at hd
  · cases h

/-- The placed word is the running command and it is the engine's turn. -/
theorem engineNext_withFetchWord (s : State) (nbits w : Nat) : engineNext (s.withFetchWord nbits w) :=
  ⟨rfl, .inr (.inl rfl)⟩

theorem step_of_nothingMoves {s : State} (h : nothingMoves s) : step s = .next s := by
  obtain ⟨hidle, hnext⟩ := h
  unfold step
  cases hin : s.inputs with
  | nil => exact if_neg (by simp [hidle])
  | cons op rest =>
    have hengine : engineTurn s op = false := by simp [engineTurn, hidle]
    have hblocked : op.blocked s = true := by simpa [hostWaits, hin] using hnext
    simp [hengine, hblocked]

/-- Settles O5: the engine's move is the command the word decodes to, and a placed word has no race. -/
theorem stepRunsTheAcceptedCommand : Obligations.StepRunsTheAcceptedCommand :=
  ⟨fun _ _ hnext hraced hd => step_of_not_raced hnext hraced hd,
    fun s _ nbits w h =>
      step_of_not_raced (engineNext_withFetchWord s nbits w) rfl (decode_of_decodeTableWord h),
    fun _ h => step_of_nothingMoves h⟩

end Sys2Proof.Machine
end

section
/-! SUPPORT. What a reset leaves (70_reset_and_hazards.md): the reset value of every register of the map, the
power-on reset as a step, and the invariants at the reset state. -/

namespace Sys2Proof.Machine
open Sys2Proof.Claims

/-! ## The reset values of the register map -/

@[simp] theorem halfOf_zero (hi : Bool) : halfOf 0 hi = 0 := by cases hi <;> rfl

theorem A2Config.reset_get (k : Fin 16) : A2Config.reset.get k = 0 := by revert k; decide

/-- ID and DMEM_LAST are the constants of the map (R41, R42); every other register resets to zero (R301). -/
theorem State.resetFor_regValue (cfg : Config) {r : Reg} (hid : r ≠ .id) (hlast : r ≠ .dmemLast) :
    (State.resetFor cfg).regValue r = 0 := by
  have hslot {n : Nat} {w : Nat} (k : Fin n) : (Vector.replicate n (0 : BitVec w))[k] = 0 :=
    Vector.getElem_replicate k.isLt
  cases r with
  | id => exact absurd rfl hid
  | dmemLast => exact absurd rfl hlast
  | arg n hi => exact (congrArg (halfOf · hi) (hslot n)).trans (halfOf_zero hi)
  | b2bH i hi => exact (congrArg (halfOf · hi) (hslot i)).trans (halfOf_zero hi)
  | res0 hi | res1 hi | b2bT0 hi | b2bT1 hi => exact halfOf_zero hi
  | a2cfg k => exact A2Config.reset_get k
  | a2H0reg k => exact hslot k
  | _ => rfl

/-- After reset no command runs, so every register reads as the value it holds (R52). -/
theorem State.resetFor_readReg (cfg : Config) (r : Reg) :
    (State.resetFor cfg).readReg r.offset = (State.resetFor cfg).regValue r :=
  State.readReg_idle rfl r

theorem State.resetFor_readReg_zero (cfg : Config) {off : Nat} (ha : off % 4 = 0) (hid : off ≠ 0x010)
    (hlast : off ≠ 0x014) : (State.resetFor cfg).readReg off = 0 := by
  cases hr : regAt off with
  | none => exact State.readReg_of_none hr
  | some r =>
    obtain rfl := offset_of_regAt ha hr
    rw [State.resetFor_readReg]
    exact State.resetFor_regValue cfg (by rintro rfl; exact hid rfl) (by rintro rfl; exact hlast rfl)

/-- Settles O11: the registers at 0x010 and 0x014 are the two constants, and at every other offset stands a
register that resets to zero, or none. -/
theorem resetValuesAreTheSpecs : Obligations.ResetValuesAreTheSpecs := by
  refine fun cfg => ⟨fun off _ ha => ?_, rfl, rfl⟩
  split
  next hid => exact hid ▸ State.resetFor_readReg cfg .id
  next hid =>
    split
    next hlast => exact hlast ▸ State.resetFor_readReg cfg .dmemLast
    next hlast => exact State.resetFor_readReg_zero cfg ha hid hlast

/-! ## The power-on reset -/

/-- After a power-on reset no byte of DMEM has been written, so each is the draw of the new power-on (R302). -/
theorem State.powerOnReset_byte (s : State) (a : Nat) :
    s.powerOnReset.dmem.byte a = Config.powerOnByte (s.dmem.epoch + 1) a := rfl

theorem step_powerOn {s : State} {rest : List HostOp} (h : hostNext s .powerOn rest) :
    step s = .next (State.powerOnReset { s with inputs := rest }).redraw := by
  rw [step_of_hostNext h, hostMove]

/-- Settles O18: the step is the power-on reset, whether or not a command runs. -/
theorem powerOnResetRedrawsDmem : Obligations.PowerOnResetRedrawsDmem :=
  fun s rest hnext => ⟨_, step_powerOn hnext, rfl, State.powerOnReset_byte { s with inputs := rest }⟩

/-! ## The invariants at reset -/

theorem dmemOk_of_unwritten {s : State} (h : s.dmem.cells = []) : dmemOk s := by
  rw [dmemOk, Memory.wf, h]
  exact ⟨.nil, nofun⟩

/-- Settles O52: each invariant holds of every state whose registers, or whose DMEM, are as reset leaves
them. -/
theorem resetMeetsTheInvariants : Obligations.ResetMeetsTheInvariants :=
  fun _ => ⟨hashOk_of_reset rfl, runOk_of_reset rfl, dmemOk_of_unwritten rfl, statusOk_of_reset rfl rfl⟩

end Sys2Proof.Machine
end
